-- ==== Sys2Proof/Word.lean ====
section
/-! DEFINITION. The unsigned types of 00_scope.md R9: the hardware has no signed quantity and no sign extension. -/
namespace Sys2Proof

/-- `u8`, R9. -/
abbrev Byte := BitVec 8

/-- `u16`, R9. -/
abbrev Half := BitVec 16

/-- `u32`, R9: the width of every register that is not listed otherwise. -/
abbrev Word := BitVec 32

/-- `u64`, R9: `ARG0`, `ARG1` and the host's view of `FLEN` (R28, R33). -/
abbrev Dword := BitVec 64

end Sys2Proof
end

