-- ==== Sys2Proof/Machine/Bytes.lean ====
section
/-! DEFINITION. Byte sequences and their little-endian readings (00_scope.md R10, 20_memory.md R42). -/
namespace Sys2Proof.Machine

/-- `s[a..a+n)` of R10. -/
def slice (s : List Byte) (a n : Nat) : List Byte := (s.drop a).take n

/-- The number a byte sequence stands for, the first byte least significant (R10, R42). -/
def leNat : List Byte → Nat
  | [] => 0
  | b :: rest => b.toNat + 256 * leNat rest

/-- `le16(s) = s[0] + 256*s[1]`, R10. -/
def le16 (s : List Byte) : Half := BitVec.ofNat 16 (leNat s)

/-- `le32(s) = s[0] + 2^8*s[1] + 2^16*s[2] + 2^24*s[3]`, R10. -/
def le32 (s : List Byte) : Word := BitVec.ofNat 32 (leNat s)

/-- Byte `j` of a value is `v[8j+7:8j]`, R8. -/
def byteOf {n : Nat} (v : BitVec n) (j : Nat) : Byte := v.extractLsb' (8 * j) 8

/-- `bytes_le16(v)`, R10: element `j` is byte `j` of `v`. -/
def bytesLe16 (v : Half) : List Byte := [byteOf v 0, byteOf v 1]

/-- `bytes_le32(v)`, R10: element `j` is byte `j` of `v` (the source's `littleEndianBytes`). -/
def bytesLe32 (v : Word) : List Byte := [byteOf v 0, byteOf v 1, byteOf v 2, byteOf v 3]

end Sys2Proof.Machine
end

