-- ==== Sys2Proof/Config.lean ====
section
/-! DEFINITION. What 00_scope.md fixes (R6) and what it leaves to the implementation (R7). -/
namespace Sys2Proof.Config

/-- `HDRLEN`, R6: bytes in the file header. -/
abbrev headerLength : Nat := 16

/-- `BLKLEN`, R6: bytes in a block record. -/
abbrev blockLength : Nat := 276

/-- `PTLEN`, R6: bytes of cipher data, and of plaintext, in a block. -/
abbrev plainLength : Nat := 260

/-- `PAYLEN`, R6: bytes of flash payload in the plaintext. -/
abbrev payloadLength : Nat := 256

/-- `KEYLEN`, R6: bytes of key material. -/
abbrev keyLength : Nat := 516

/-- `POLY`, R6: the reflected CRC polynomial. -/
abbrev poly : Word := 0xEDB88320#32

/-- `CRCINIT`, R6: the initial value of the CRC register. -/
abbrev crcInit : Word := 0xFFFFFFFF#32

/-- `SWZ_LO`, R6. -/
abbrev swzLo : Word := 0x07070707#32

/-- `SWZ_HI`, R6. -/
abbrev swzHi : Word := 0xF8F8F8F8#32

/-- `USWZ_HI`, R6. -/
abbrev uswzHi : Word := 0xE0E0E0E0#32

/-- `USWZ_LO`, R6. -/
abbrev uswzLo : Word := 0x1F1F1F1F#32

/-- The parameter `KS` of R7 in the reset state: a byte sequence nothing is known of (log 2). Claims about
ciphertext are stated for every value of the field `params.ks`, so none rests on this constant. -/
opaque keyStore : List Byte

/-- What `FCAP` exceeds 16 by in the reset state (log 3). R7 knows only `FCAP >= 16`. -/
opaque frameSpare : Nat

/-- The parameter `FCAP` of R7 in the reset state: some natural number that is at least 16. -/
def frameCapacity : Nat := 16 + frameSpare

/-- A free value (log 8): what the 64-bit register `FLEN` (R33) shows of a frame length that does not fit 64
bits. R21 makes `FLEN` a natural number bounded by `FCAP` alone, and no rule says what is read then. -/
opaque longFrameLength : Nat → Dword

/-- A free value (log 15): the `numBlocks` word `encodeContainer` (R108) writes for a list of 2^32 or more blocks, of
which "the source does not say what a longer list does". No command of the machine reads it (R116). -/
opaque longBlockCount : Nat → Word

end Sys2Proof.Config

namespace Sys2Proof

/-- The two parameters of R7. They are arguments of the whole model: no command and no host move, RESET
included, changes them (R127). -/
structure Params where
  /-- `KS`, the contents of the external key store: any finite byte sequence. -/
  ks : List Byte
  /-- `FCAP`, the capacity of the frame memory in bytes. -/
  fcap : Nat
  deriving DecidableEq, Repr

/-- The parameters of the reset state: free constants, nothing can be proved of them but `FCAP >= 16`. -/
def Params.free : Params := { ks := Config.keyStore, fcap := Config.frameCapacity }

end Sys2Proof
end

