-- ==== Sys2Proof/Syntax.lean ====
section
/-! DEFINITION. The fourteen commands of 30_encoding.md R66, in the table's order. A command has no operand of
its own: all are implicit in the opcode (R59, R60). -/
namespace Sys2Proof

/-- One constructor per row of spec/opcode_table.json. -/
inductive Instr where
  /-- 0x01, load the key material, R125. -/
  | ldkey
  /-- 0x02, checksum of a frame range, R79. -/
  | crc
  /-- 0x03, swizzle one word, R88. -/
  | swz
  /-- 0x04, unswizzle one word, R89. -/
  | uswz
  /-- 0x05, swizzle a frame range in place, R90. -/
  | swzb
  /-- 0x06, unswizzle a frame range in place, R91. -/
  | uswzb
  /-- 0x07, decrypt the block in the block registers, R104. -/
  | dec
  /-- 0x08, encrypt the plaintext in the block registers, R105. -/
  | enc
  /-- 0x09, validate the container in the frame and open it, R112. -/
  | decc
  /-- 0x0A, parse a record into the block registers, R113. -/
  | ldblk
  /-- 0x0B, end the use of the open container, R114. -/
  | close
  /-- 0x0C, start assembling a container, R115. -/
  | begin
  /-- 0x0D, serialize the block registers as the next record, R116. -/
  | append
  /-- 0x0E, finish the container, R117. -/
  | encc
  deriving DecidableEq, Repr

end Sys2Proof
end

