-- ==== Sys2Proof/WellFormed.lean ====
section
/-! DEFINITION. Well-formedness. An instruction carries no operand (30_encoding.md R59), so every term of `Instr`
is well formed; the check with content is the one on command words, which is written from R59 and R67 and not
from the decoder, so that the two can be compared. -/
namespace Sys2Proof

/-- R59, R60: no command has an operand in its word, so no term of `Instr` is ill formed. -/
def Instr.wellFormed : Instr → Bool
  | .ldkey => true
  | .crc => true
  | .swz => true
  | .uswz => true
  | .swzb => true
  | .uswzb => true
  | .dec => true
  | .enc => true
  | .decc => true
  | .ldblk => true
  | .close => true
  | .begin => true
  | .append => true
  | .encc => true

/-- R59: `cmd[31:8] = 0`. -/
def highBitsClear (w : Word) : Bool := w.toNat < 256

/-- R67: "Opcodes 0x00 and 0x0F to 0xFF are reserved." -/
def opcodeAssigned (w : Word) : Bool := 1 ≤ w.toNat % 256 && w.toNat % 256 ≤ 14

/-- R68: "Every command word is either one of the fourteen of rule R66 or reserved." -/
def commandWordWellFormed (w : Word) : Bool := highBitsClear w && opcodeAssigned w

end Sys2Proof
end

