-- ==== Sys2Proof/Decode.lean ====
section
/-! DEFINITION. The decoder of command words and, after it, the encoder, both from 30_encoding.md R59, R66, R67. -/
namespace Sys2Proof

/-- Why a command word is reserved (R67). -/
inductive DecodeError where
  /-- One of bits 31..8 is set: "reserved whatever its low byte". -/
  | highBitsSet
  /-- The opcode is 0x00 or lies in 0x0F to 0xFF. -/
  | reservedOpcode
  deriving DecidableEq, Repr

/-- The opcode column of R66. -/
def decodeOpcode (op : Byte) : Except DecodeError Instr :=
  match op.toNat with
  | 0x01 => .ok .ldkey
  | 0x02 => .ok .crc
  | 0x03 => .ok .swz
  | 0x04 => .ok .uswz
  | 0x05 => .ok .swzb
  | 0x06 => .ok .uswzb
  | 0x07 => .ok .dec
  | 0x08 => .ok .enc
  | 0x09 => .ok .decc
  | 0x0A => .ok .ldblk
  | 0x0B => .ok .close
  | 0x0C => .ok .begin
  | 0x0D => .ok .append
  | 0x0E => .ok .encc
  | _ => .error .reservedOpcode

/-- `CMD32` (R59): `cmd[7:0]` is the opcode and `cmd[31:8]` is 0. Total on every word. -/
def decode (cmd : Word) : Except DecodeError Instr :=
  if cmd.extractLsb' 8 24 = 0#24 then decodeOpcode (cmd.extractLsb' 0 8)
  else .error .highBitsSet

/-- The opcode of a command (R66). -/
def opcode : Instr → Byte
  | .ldkey => 0x01#8
  | .crc => 0x02#8
  | .swz => 0x03#8
  | .uswz => 0x04#8
  | .swzb => 0x05#8
  | .uswzb => 0x06#8
  | .dec => 0x07#8
  | .enc => 0x08#8
  | .decc => 0x09#8
  | .ldblk => 0x0A#8
  | .close => 0x0B#8
  | .begin => 0x0C#8
  | .append => 0x0D#8
  | .encc => 0x0E#8

/-- The command word of a command (R59, R66): the opcode in bits 7..0, zeros above. -/
def encode (i : Instr) : Word := (opcode i).setWidth 32

/-- The instruction the decoder reads from the `nbits` low bits of `w`, every higher bit 0. The command word is
one 32-bit value written to a register, not bytes in a memory, so there is no byte order to apply. -/
def decodeTableWord (nbits w : Nat) : Option Instr :=
  if w % 2 ^ nbits < 2 ^ 32 then
    match decode (BitVec.ofNat 32 (w % 2 ^ nbits)) with
    | .ok i => some i
    | .error _ => none
  else none

end Sys2Proof
end

