-- ==== Sys2Proof/Machine/State.lean ====
section
/-! DEFINITION. The whole state of XBCC (10_state.md R16), the reasons a step can be refused, and reset (R37). -/
namespace Sys2Proof.Machine

/-- `PH`, the phase register (R17). The values 4, 5, 6 "are never produced", so they have no constructor. -/
inductive Phase where
  /-- 0 `NOKEY`: the reset state, no key loaded. -/
  | noKey
  /-- 1 `IDLE`: key loaded, no container open. -/
  | idle
  /-- 2 `OPEN`: the container in `FRAME` has passed `DECC`. -/
  | opened
  /-- 3 `BUILD`: a container is being assembled in `FRAME`. -/
  | building
  /-- 7 `DEAD`: the key load failed. -/
  | dead
  deriving DecidableEq, Repr

/-- The five errors of 60_exceptions.md R132. "No other error exists." -/
inductive ErrorKind where
  /-- code 1, R133. -/
  | truncatedInput
  /-- code 2, R134. -/
  | fileChecksumMismatch
  /-- code 3, R135. -/
  | blockChecksumMismatch
  /-- code 4, R136. -/
  | malformedLength
  /-- code 5, R137. -/
  | invalidKeyLength
  deriving DecidableEq, Repr

/-- The state elements that R37 leaves `undef` after reset, as a refusal names them. -/
inductive Element where
  | key | hminor | hmajor | hmagic | hpad | hcrc | hnblk | bcrc | bidx | bunk | bpad | bdata | w | crcr | arg0 | arg1
  deriving DecidableEq, Repr

/-- The three byte spaces of 20_memory.md R38 (the fourth space, the register numbers, holds no bytes). -/
inductive Space where
  | frame | key | bdata
  deriving DecidableEq, Repr

/-- A byte space's contents: (address, byte) pairs, addresses strictly rising (`Memory.wf`). -/
abbrev Memory := List Host.Cell

/-- A register of `n` bits with the spec's own state `undef` (R12): `none` is "holds no value", which R37 states
as its value after reset, R127 assigns, and the commands' refusal conditions test (log 1). -/
abbrev Reg (n : Nat) := Option (BitVec n)

/-- What the host can do (44_key_and_host.md R127 to R131). -/
inductive HostMove where
  /-- `RESET`, R127. -/
  | reset
  /-- `RD reg`, R128. -/
  | readReg (reg : Nat)
  /-- `WR reg, v`, R128; `WR CMD, v` issues a command, R131. -/
  | writeReg (reg : Nat) (v : Dword)
  /-- `BRD i`, R129. -/
  | readBlock (i : Nat)
  /-- `BWR i, b`, R129. -/
  | writeBlock (i : Nat) (b : Byte)
  /-- `FLOAD s`, R130. -/
  | loadFrame (s : List Byte)
  /-- `FRD a`, R130. -/
  | readFrame (a : Nat)
  /-- `FWR a, b`, R130. -/
  | writeFrame (a : Nat) (b : Byte)
  deriving DecidableEq, Repr

/-- The machine never stops with a fault: its five errors are next states (60_exceptions.md R139) and everything
else the spec does not let happen is refused (R13). So this type has no constructor. -/
inductive Fault where
  deriving DecidableEq, Repr

/-- Why a command or a host move is refused. R13: "the model must refuse it, which means it defines no next
state"; R146: "This errs toward unprovable". Every constructor is safe. -/
inductive Refusal where
  /-- An instruction that has no meaning in the model yet: raised by `exec` only; safe. No arm uses it. -/
  | notModelled (mnemonic : String)
  /-- A reserved command word (R67, U1), raised by the host port; safe. -/
  | reservedWord (why : DecodeError)
  /-- A value of more than 32 bits written to `CMD` (R59, R68; log 7), raised by the host port; safe. -/
  | wideCommandWord
  /-- A command in a phase that does not accept it (R124, U2), raised by every command; safe. -/
  | wrongPhase (ph : Phase)
  /-- A command or host read of an `undef` element (R12, R13, U3, U7), raised by CRC, SWZ, USWZ, SWZB, USWZB, DEC, ENC,
  LDBLK, APPEND, ENCC and the host reads; safe. -/
  | undefOperand (e : Element)
  /-- `ARG0 + ARG1 > FLEN` (U4), raised by CRC, SWZB, USWZB; safe. -/
  | frameRange
  /-- `ARG0 >= HNBLK` (U4), raised by LDBLK; safe. -/
  | blockNumber
  /-- `ECNT = 2^32 - 1` (U6), raised by APPEND; safe. -/
  | countOverflow
  /-- No room below `FCAP` (U5), raised by APPEND and FLOAD; safe. -/
  | noRoom
  /-- A register number above 15 (R33, U7), raised by RD and WR; safe. -/
  | noSuchRegister (reg : Nat)
  /-- A host write to an `RO` register (R33, U7); safe. -/
  | readOnlyRegister (reg : Nat)
  /-- A host read of a `WO` register (R33, U7); safe. -/
  | writeOnlyRegister (reg : Nat)
  /-- A `BDATA` index of 260 or more (R41, R129, U7); safe. -/
  | blockIndex (i : Nat)
  /-- A frame move in a phase that does not allow it (R34, R130, U7); safe. -/
  | framePhase (ph : Phase)
  /-- A frame address at or beyond `FLEN` (R39, R130, U7); safe. -/
  | frameAddress (a : Nat)
  deriving DecidableEq, Repr

/-- The complete architectural state (R16), the parameters (R7), and the two fields that are the model's own. -/
structure State where
  /-- `KS` and `FCAP`, R7. -/
  params : Params
  /-- `PH`, R17. -/
  ph : Phase
  /-- `ERR`, R18. -/
  err : BitVec 3
  /-- `ELOG`, R19. -/
  elog : BitVec 5
  /-- `KEY[0..515]`, R20. -/
  key : Memory
  /-- `FRAME`, R21. -/
  frame : Memory
  /-- `FLEN`, R21. -/
  flen : Nat
  /-- `HMINOR`, R22. -/
  hminor : Reg 8
  /-- `HMAJOR`, R22. -/
  hmajor : Reg 8
  /-- `HMAGIC`, R22. -/
  hmagic : Reg 16
  /-- `HPAD`, R22. -/
  hpad : Reg 32
  /-- `HCRC`, R23. -/
  hcrc : Reg 32
  /-- `HNBLK`, R23. -/
  hnblk : Reg 32
  /-- `BCRC`, R24. -/
  bcrc : Reg 32
  /-- `BIDX`, R24. -/
  bidx : Reg 32
  /-- `BUNK`, R24. -/
  bunk : Reg 32
  /-- `BPAD`, R24. -/
  bpad : Reg 32
  /-- `BDATA[0..259]`, R25. -/
  bdata : Memory
  /-- `W`, R26. -/
  w : Reg 32
  /-- `CRCR`, R27. -/
  crcr : Reg 32
  /-- `ARG0`, R28. -/
  arg0 : Reg 64
  /-- `ARG1`, R28. -/
  arg1 : Reg 64
  /-- `ECNT`, R29. -/
  ecnt : BitVec 32
  /-- The host moves still to come, oldest first. The model's own field (log 4). -/
  inbox : List HostMove
  /-- The values the host has read, newest first. The model's own field (log 6). -/
  replies : List Dword
  deriving DecidableEq, Repr

/-- The state after reset (R37) of an engine with the parameters `p`. `undef` is the spec's word in that table. -/
def State.resetWith (p : Params) : State where
  params := p
  ph := .noKey
  err := 0#3
  elog := 0#5
  key := []
  frame := []
  flen := 0
  hminor := none
  hmajor := none
  hmagic := none
  hpad := none
  hcrc := none
  hnblk := none
  bcrc := none
  bidx := none
  bunk := none
  bpad := none
  bdata := []
  w := none
  crcr := none
  arg0 := none
  arg1 := none
  ecnt := 0#32
  inbox := []
  replies := []

/-- The machine right after reset (R37, R150), its parameters free constants (R7; logs 2, 3), no host move
waiting (log 4). -/
def State.reset : State := State.resetWith Params.free

end Sys2Proof.Machine
end

