-- ==== Sys2Proof/Machine/Flags.lean ====
section
/-! DEFINITION. The status elements `PH`, `ERR`, `ELOG` as bits: codes (10_state.md R17, 60_exceptions.md R132),
the log bit of an error (R19) and the register view `STATUS` (R31). -/
namespace Sys2Proof.Machine

/-- The number of a phase, R17. -/
def Phase.code : Phase → BitVec 3
  | .noKey => 0#3
  | .idle => 1#3
  | .opened => 2#3
  | .building => 3#3
  | .dead => 7#3

/-- "the key is loaded in exactly these" (R104): `IDLE`, `OPEN`, `BUILD`. -/
def Phase.keyed : Phase → Bool
  | .noKey => false
  | .idle => true
  | .opened => true
  | .building => true
  | .dead => false

/-- The code of an error, R132. -/
def ErrorKind.code : ErrorKind → BitVec 3
  | .truncatedInput => 1#3
  | .fileChecksumMismatch => 2#3
  | .blockChecksumMismatch => 3#3
  | .malformedLength => 4#3
  | .invalidKeyLength => 5#3

/-- The `ELOG` bit of an error: bit `c-1` for the code `c` (R19, R139). -/
def ErrorKind.logBit (e : ErrorKind) : BitVec 5 := 1#5 <<< (e.code.toNat - 1)

/-- Where an error leaves `PH`: `DEAD` for `InvalidKeyLength`, else where it was (R139). -/
def ErrorKind.phaseAfter (e : ErrorKind) (ph : Phase) : Phase :=
  match e with
  | .truncatedInput => ph
  | .fileChecksumMismatch => ph
  | .blockChecksumMismatch => ph
  | .malformedLength => ph
  | .invalidKeyLength => .dead

/-- `STATUS`, R31: `PH` in bits 2..0, `ERR` in 6..4, `ELOG` in 12..8, every other bit 0. -/
def State.status (s : State) : Word :=
  s.ph.code.setWidth 32 ||| (s.err.setWidth 32 <<< 4) ||| (s.elog.setWidth 32 <<< 8)

end Sys2Proof.Machine
end

