-- ==== Sys2Proof/Machine/Ops.lean ====
section
/-! DEFINITION. The shared operations: the byte spaces (20_memory.md R38 to R41), the frame (R21, R39), error entry
(60_exceptions.md R139), a command's end (00_scope.md R13, R141) and the reset move (44_key_and_host.md R127). -/
namespace Sys2Proof.Machine

/-! ### Byte spaces -/

/-- What an address that is not listed reads as. In `KEY` and `BDATA` it is `undef` (R20, R25). `FRAME` below
`FLEN` has no unwritten byte (R21), so listing none of its zero bytes is only the way frames are written down
(log 10). -/
def unlisted : Space → Option Byte
  | .frame => some 0#8
  | .key => none
  | .bdata => none

/-- The byte listed at an address. -/
def Memory.lookup : Memory → Nat → Option Byte
  | [], _ => none
  | (k, b) :: rest, a => if k = a then some b else Memory.lookup rest a

/-- List a byte at its place in the order. -/
def Memory.insert : Memory → Nat → Byte → Memory
  | [], a, v => [(a, v)]
  | (k, b) :: rest, a, v =>
    if a < k then (a, v) :: (k, b) :: rest
    else if a = k then (a, v) :: rest
    else (k, b) :: Memory.insert rest a v

/-- List nothing at an address. -/
def Memory.erase (m : Memory) (a : Nat) : Memory := m.filter fun c => c.1 != a

/-- Read one byte of a space; `none` is `undef`. -/
def Memory.get (sp : Space) (m : Memory) (a : Nat) : Option Byte :=
  match Memory.lookup m a with
  | some b => some b
  | none => unlisted sp

/-- Write one byte of a space. "Writing a byte changes that byte and nothing else" (R48). -/
def Memory.put (sp : Space) (m : Memory) (a : Nat) (b : Byte) : Memory :=
  if unlisted sp = some b then Memory.erase m a else Memory.insert m a b

/-- Write a byte sequence from an address upwards. -/
def Memory.putBytes (sp : Space) (m : Memory) (a : Nat) : List Byte → Memory
  | [] => m
  | b :: rest => Memory.putBytes sp (Memory.put sp m a b) (a + 1) rest

/-- A space that holds exactly the given bytes from an address upwards. -/
def Memory.ofBytes (sp : Space) (a : Nat) : List Byte → Memory
  | [] => []
  | b :: rest =>
    if unlisted sp = some b then Memory.ofBytes sp (a + 1) rest
    else (a, b) :: Memory.ofBytes sp (a + 1) rest

/-- `n` bytes from an address upwards, if none of them is `undef` (R12). -/
def Memory.collect (sp : Space) (m : Memory) (a : Nat) : Nat → Option (List Byte)
  | 0 => some []
  | n + 1 =>
    match Memory.get sp m a, Memory.collect sp m (a + 1) n with
    | some b, some rest => some (b :: rest)
    | _, _ => none

/-- Addresses strictly rising. -/
def Memory.rising : Memory → Bool
  | [] => true
  | (k, _) :: rest => rest.all (fun c => k < c.1) && Memory.rising rest

/-- The canonical form: addresses strictly rising, and no entry equal to what an unlisted address reads as. -/
def Memory.wf (sp : Space) (m : Memory) : Bool :=
  Memory.rising m && m.all (fun c => unlisted sp != some c.2)

/-- Every listed address is below a bound. -/
def Memory.below (m : Memory) (n : Nat) : Bool := m.all (fun c => c.1 < n)

/-! ### The frame -/

/-- `FRAME[a]` for an address below `FLEN` (R21, R39). -/
def State.frameByte (s : State) (a : Nat) : Byte := (Memory.get .frame s.frame a).getD 0#8

/-- `MemRead(FRAME, a, n)`, R11. It "needs `a+n <= FLEN`", which every user of it tests or knows. -/
def State.memRead (s : State) (a n : Nat) : List Byte := (List.range' a n).map s.frameByte

/-- `MemWrite(FRAME, a, n, s)`, R11: replaces bytes of the frame, `FLEN` unchanged. -/
def State.memWrite (s : State) (a : Nat) (bytes : List Byte) : State :=
  { s with frame := Memory.putBytes .frame s.frame a bytes }

/-- `FRAME <- s` (R115, R130): the old content is discarded and `FLEN` is the new length. -/
def State.setFrame (s : State) (bytes : List Byte) : State :=
  { s with frame := Memory.ofBytes .frame 0 bytes, flen := bytes.length }

/-- `FRAME <- FRAME ‖ s` (R116). -/
def State.growFrame (s : State) (bytes : List Byte) : State :=
  { s with frame := Memory.putBytes .frame s.frame s.flen bytes, flen := s.flen + bytes.length }

/-! ### The block buffer -/

/-- All 260 bytes of `BDATA` written at once (R104, R105, R113). -/
def State.setBdata (s : State) (bytes : List Byte) : State :=
  { s with bdata := Memory.ofBytes .bdata 0 bytes }

/-! ### The end of a command -/

/-- Error entry, R139: `ERR` takes the code, `ELOG` its bit, `PH` becomes `DEAD` for `InvalidKeyLength`, "no other
state element is written". There is no handler and no vector, and so no return (R140): the next accepted
command overwrites `ERR`. -/
def State.raise (s : State) (e : ErrorKind) : State :=
  { s with err := e.code, elog := s.elog ||| e.logBit, ph := e.phaseAfter s.ph }

/-- Outcome ok, R13: `ERR <- 0`. -/
def State.finish (s : State) : State := { s with err := 0#3 }

/-- A command's effect, begun in state `s`, brought to its end: ok, or the error entered in the state before the
command, since no rule writes before it raises (R139). -/
def conclude (s : State) : Except ErrorKind State → State
  | .ok t => t.finish
  | .error e => s.raise e

/-- How a command runs (R13, R141): "Refusal conditions (phase, `undef` operand, range) are tested before any
error condition", so its operands are collected first, and with all of them in hand it always ends. -/
def accept {α : Type} (operands : Except Refusal α) (effect : α → Except ErrorKind State) (s : State) :
    Host.Outcome State Fault Refusal :=
  match operands with
  | .ok a => .next (conclude s (effect a))
  | .error r => .refused r

/-! ### Host side -/

/-- The reset move, R127: every element takes its reset value (R37); `KS` and `FCAP` are parameters and stay. What
the host has read and what it will do are not the engine's and stay too (logs 4, 6). -/
def State.afterReset (s : State) : State :=
  { State.resetWith s.params with inbox := s.inbox, replies := s.replies }

/-- The host receives a value; nothing else changes (R48, R128). -/
def State.reply (s : State) (v : Dword) : State := { s with replies := v :: s.replies }

/-- The next host move, and the state with that move taken. -/
def State.nextMove (s : State) : Option (HostMove × State) :=
  match s.inbox with
  | [] => none
  | m :: rest => some (m, { s with inbox := rest })

end Sys2Proof.Machine
end

