-- ==== Sys2Proof/Machine/Operands.lean ====
section
/-! DEFINITION. What a command tests and reads before it runs: the phase table (43_container.md R124), operand
registers that may be `undef` (00_scope.md R12), ranges (20_memory.md R39, R46), and the host's reading side
of the register map (10_state.md R33). -/
namespace Sys2Proof.Machine

/-- The acceptance table of R124. -/
def acceptedIn (i : Instr) (p : Phase) : Bool :=
  match i with
  | .ldkey => p == .noKey
  | .crc => p.keyed
  | .swz => p.keyed
  | .uswz => p.keyed
  | .swzb => p == .idle
  | .uswzb => p == .idle
  | .dec => p.keyed
  | .enc => p.keyed
  | .decc => p == .idle
  | .ldblk => p == .opened
  | .close => p == .opened
  | .begin => p == .idle
  | .append => p == .building
  | .encc => p == .building

/-- A refusal condition: go on if it holds, refuse if it does not (R13). -/
def require (c : Bool) (r : Refusal) : Except Refusal Unit := if c then .ok () else .error r

/-- Refuse a command in a phase that does not accept it (R124). -/
def requirePhase (i : Instr) (s : State) : Except Refusal Unit :=
  require (acceptedIn i s.ph) (.wrongPhase s.ph)

/-- Read an element that may be `undef`. R12: "A command whose rule reads an `undef` element is refused"; R151: "The
model must not assume any value for an `undef` element: not zero" (S4, U3, U7). -/
def operand {α : Type} (e : Element) (x : Option α) : Except Refusal α :=
  match x with
  | some v => .ok v
  | none => .error (.undefOperand e)

/-- All 260 bytes of `BDATA`: `DEC`, `ENC` and `APPEND` "are refused unless all 260 bytes are defined" (R25). -/
def State.blockBytes (s : State) : Option (List Byte) :=
  Memory.collect .bdata s.bdata 0 Config.plainLength

/-- All 516 bytes of `KEY` (R20, log 11). -/
def State.keyBytes (s : State) : Option (List Byte) :=
  Memory.collect .key s.key 0 Config.keyLength

/-- The start and length of a frame range: `ARG0` and `ARG1` defined, and `A + N <= FLEN` in natural numbers
(R46, R79, R90). -/
def frameRange (s : State) : Except Refusal (Nat × Nat) := do
  let a ← operand .arg0 s.arg0
  let n ← operand .arg1 s.arg1
  require (a.toNat + n.toNat ≤ s.flen) .frameRange
  return (a.toNat, n.toNat)

/-! ### Views (R25, R31, R32, R33) -/

/-- `FADDR = le32(BDATA[0..4))`, R25. -/
def State.faddr (s : State) : Option Word := (Memory.collect .bdata s.bdata 0 4).map le32

/-- `PAYLOAD = BDATA[4..260)`, R25. -/
def State.payload (s : State) : Option (List Byte) := Memory.collect .bdata s.bdata 4 Config.payloadLength

/-- The 64 bits the host sees of a frame length (R33; free where it does not fit, log 8). -/
def frameLengthWord (n : Nat) : Dword :=
  if n < 2 ^ 64 then BitVec.ofNat 64 n else Config.longFrameLength n

/-- `HVER`, R32: `HMINOR` in bits 7..0, `HMAJOR` in 15..8, `HMAGIC` in 31..16. -/
def versionWord (minor major : Byte) (magic : Half) : Word :=
  minor.setWidth 32 ||| (major.setWidth 32 <<< 8) ||| (magic.setWidth 32 <<< 16)

/-- A 32-bit register as the host reads it, zero-extended (R8). -/
def operand32 (e : Element) (x : Reg 32) : Except Refusal Dword := do
  let v ← operand e x
  return v.setWidth 64

/-- `RD reg`, R128: the value of a register, by its number (R33). `HVER` is R32. -/
def readRegister (reg : Nat) (s : State) : Except Refusal Dword :=
  match reg with
  | 0 => .error (.writeOnlyRegister 0)
  | 1 => operand .arg0 s.arg0
  | 2 => operand .arg1 s.arg1
  | 3 => .ok (s.status.setWidth 64)
  | 4 => operand32 .w s.w
  | 5 => operand32 .crcr s.crcr
  | 6 => do
    let minor ← operand .hminor s.hminor
    let major ← operand .hmajor s.hmajor
    let magic ← operand .hmagic s.hmagic
    return (versionWord minor major magic).setWidth 64
  | 7 => operand32 .hcrc s.hcrc
  | 8 => operand32 .hpad s.hpad
  | 9 => operand32 .hnblk s.hnblk
  | 10 => operand32 .bcrc s.bcrc
  | 11 => operand32 .bidx s.bidx
  | 12 => operand32 .bunk s.bunk
  | 13 => operand32 .bpad s.bpad
  | 14 => .ok (s.ecnt.setWidth 64)
  | 15 => .ok (frameLengthWord s.flen)
  | n => .error (.noSuchRegister n)

end Sys2Proof.Machine
end

