-- ==== Sys2Proof/Machine/Checksum.lean ====
section
/-! DEFINITION. The CRC-32 generator in polynomial mode (40_checksum.md) and the command `CRC`. -/
namespace Sys2Proof.Machine

/-- One bit step, R74. -/
def crcBit (c : Word) : Word :=
  if c.getLsbD 0 then (c >>> 1) ^^^ Config.poly else c >>> 1

/-- One byte step, R75: the byte is XORed into bits 7..0, then eight bit steps. -/
def crcByte (c : Word) (b : Byte) : Word :=
  crcBit (crcBit (crcBit (crcBit (crcBit (crcBit (crcBit (crcBit (c ^^^ b.setWidth 32))))))))

/-- The loop of R76 from any start value: the running form of R78. -/
def checksumFrom (c : Word) (s : List Byte) : Word := s.foldl crcByte c

/-- `checksum(s)`, R76: no final inversion (R77, 90_conflicts.md C12). -/
def checksum (s : List Byte) : Word := checksumFrom Config.crcInit s

/-- `CRC`, R79. -/
def execCrc (s : State) : Host.Outcome State Fault Refusal :=
  accept
    (do
      requirePhase .crc s
      frameRange s)
    (fun (a, n) => .ok { s with crcr := some (checksum (s.memRead a n)) })
    s

end Sys2Proof.Machine
end

