-- ==== Sys2Proof/Machine/Records.lean ====
section
/-! DEFINITION. The record formats of 30_encoding.md: file header, block record, plaintext. -/
namespace Sys2Proof.Machine

/-- The six fields of the file header, R55. -/
structure FileHeader where
  minor : Byte
  major : Byte
  magic : Half
  crc32 : Word
  pad : Word
  numBlocks : Word
  deriving DecidableEq, Repr

/-- The fields of a block record, R56; `cipherData` has 260 bytes (`BlockRecord.sized`). -/
structure BlockRecord where
  crc32 : Word
  index : Word
  unknown : Word
  pad : Word
  cipherData : List Byte
  deriving DecidableEq, Repr

/-- `cipherData: [u8; 260]`, R56. -/
def BlockRecord.sized (b : BlockRecord) : Bool := b.cipherData.length == Config.plainLength

/-- `parse_header(s)`, R61. -/
def parseHeader (s : List Byte) : FileHeader where
  minor := s.getD 0 0#8
  major := s.getD 1 0#8
  magic := le16 (slice s 2 2)
  crc32 := le32 (slice s 4 4)
  pad := le32 (slice s 8 4)
  numBlocks := le32 (slice s 12 4)

/-- `ser_header`, R62. -/
def serHeader (h : FileHeader) : List Byte :=
  [h.minor] ++ [h.major] ++ bytesLe16 h.magic ++ bytesLe32 h.crc32 ++ bytesLe32 h.pad ++ bytesLe32 h.numBlocks

/-- `parse_block(r)`, R63. -/
def parseBlock (r : List Byte) : BlockRecord where
  crc32 := le32 (slice r 0 4)
  index := le32 (slice r 4 4)
  unknown := le32 (slice r 8 4)
  pad := le32 (slice r 12 4)
  cipherData := slice r 16 Config.plainLength

/-- `ser_block`, R64. -/
def serBlock (b : BlockRecord) : List Byte :=
  bytesLe32 b.crc32 ++ bytesLe32 b.index ++ bytesLe32 b.unknown ++ bytesLe32 b.pad ++ b.cipherData

/-- `asm_pt(flashAddress, payload)`, R65. -/
def asmPlain (flashAddress : Word) (payload : List Byte) : List Byte := bytesLe32 flashAddress ++ payload

/-- `parse_pt(p)`, R65. -/
def parsePlain (p : List Byte) : Word × List Byte := (le32 (slice p 0 4), slice p 4 Config.payloadLength)

end Sys2Proof.Machine
end

