-- ==== Sys2Proof/Machine/Swizzle.lean ====
section
/-! DEFINITION. The 32-bit bit-permutation (41_swizzle.md) and the commands `SWZ`, `USWZ`, `SWZB`, `USWZB`. -/
namespace Sys2Proof.Machine

/-- `ror3(b)`, R81. -/
def ror3 (b : Byte) : Byte := ((b &&& 0x07#8) <<< 5) ||| ((b &&& 0xF8#8) >>> 3)

/-- `rol3(b)`, R81. -/
def rol3 (b : Byte) : Byte := ((b &&& 0xE0#8) >>> 5) ||| ((b &&& 0x1F#8) <<< 3)

/-- `swizzle(w)`, R82. -/
def swizzle (w : Word) : Word := ((w &&& Config.swzLo) <<< 5) ||| ((w &&& Config.swzHi) >>> 3)

/-- `unswizzle(w)`, R83. -/
def unswizzle (w : Word) : Word := ((w &&& Config.uswzHi) >>> 5) ||| ((w &&& Config.uswzLo) <<< 3)

/-- A function of words applied to every 4-byte little-endian group, counted from the start (R86). -/
def mapWords (f : Word → Word) : List Byte → List Byte
  | a :: b :: c :: d :: rest => bytesLe32 (f (le32 [a, b, c, d])) ++ mapWords f rest
  | _ => []

/-- The length rule of the buffer forms (R45, R86) and then the groups. -/
def permuteBuffer (f : Word → Word) (s : List Byte) : Except ErrorKind (List Byte) :=
  if s.length % 4 ≠ 0 then .error .malformedLength else .ok (mapWords f s)

/-- `swizzleBuffer(s)`, R86. -/
def swizzleBuffer (s : List Byte) : Except ErrorKind (List Byte) := permuteBuffer swizzle s

/-- `unswizzleBuffer(s)`, R86. -/
def unswizzleBuffer (s : List Byte) : Except ErrorKind (List Byte) := permuteBuffer unswizzle s

/-- `W <- f(W)` (R88, R89). -/
def permuteW (f : Word → Word) (i : Instr) (s : State) : Host.Outcome State Fault Refusal :=
  accept
    (do
      requirePhase i s
      operand .w s.w)
    (fun v => .ok { s with w := some (f v) })
    s

/-- A frame range replaced by its image under a buffer form (R90, R91). -/
def permuteRange (f : List Byte → Except ErrorKind (List Byte)) (i : Instr) (s : State) :
    Host.Outcome State Fault Refusal :=
  accept
    (do
      requirePhase i s
      frameRange s)
    (fun (a, n) => (f (s.memRead a n)).map fun out => s.memWrite a out)
    s

/-- `SWZ`, R88. -/
def execSwz (s : State) : Host.Outcome State Fault Refusal := permuteW swizzle .swz s

/-- `USWZ`, R89. -/
def execUswz (s : State) : Host.Outcome State Fault Refusal := permuteW unswizzle .uswz s

/-- `SWZB`, R90: the length test is `swizzleBuffer`'s own, the range having `ARG1` bytes. -/
def execSwzb (s : State) : Host.Outcome State Fault Refusal := permuteRange swizzleBuffer .swzb s

/-- `USWZB`, R91. -/
def execUswzb (s : State) : Host.Outcome State Fault Refusal := permuteRange unswizzleBuffer .uswzb s

end Sys2Proof.Machine
end

