-- ==== Sys2Proof/Machine/Transform.lean ====
section
/-! DEFINITION. The XOR keystream engine and the block-transform pipeline (42_block_transform.md), and the commands
`DEC` and `ENC`. -/
namespace Sys2Proof.Machine

/-- `kso(index)`, R92. -/
def kso (index : Word) : Word := ((index >>> 8) + (index &&& 0xFF#32)) &&& 0xFF#32

/-- `hk(index)`, R93. -/
def hk (index : Word) : List Byte := bytesLe32 (swizzle index)

/-- The bytes from position `i` on, XORed with a pad given by position. -/
def xorPad (pad : Nat → Byte) : Nat → List Byte → List Byte
  | _, [] => []
  | i, b :: rest => (b ^^^ pad i) :: xorPad pad (i + 1) rest

/-- Stage K, R94: `s[i] ^ KEY[(i + k) mod 516]`. -/
def xorKey (key : List Byte) (s : List Byte) (k : Nat) : List Byte :=
  xorPad (fun i => key.getD ((i + k) % Config.keyLength) 0#8) 0 s

/-- Stage H, R95: `s[i] ^ h[i mod 4]`. -/
def xorHk (s h : List Byte) : List Byte := xorPad (fun i => h.getD (i % 4) 0#8) 0 s

/-- Steps 1 to 5 of `decrypt`, R97: stages K, H, P in that order (R99). A block has 260 bytes, so stage P is
the word map without the length test (R96). -/
def decipher (key : List Byte) (index : Word) (ct : List Byte) : List Byte :=
  let k := kso index
  let h := hk index
  let l1 := xorKey key ct k.toNat
  let l2 := xorHk l1 h
  mapWords unswizzle l2

/-- Steps 3 to 5 of `encrypt`, R98: stages P, H, K in that order (R99). -/
def encipher (key : List Byte) (index : Word) (pt : List Byte) : List Byte :=
  let s := mapWords swizzle pt
  let x := xorHk s (hk index)
  xorKey key x (kso index).toNat

/-- `decrypt(crc, index, ct)`, R97, as the 260 plaintext bytes: the checksum is taken "*after* decryption". -/
def decryptPlain (key : List Byte) (crc index : Word) (ct : List Byte) : Except ErrorKind (List Byte) :=
  let pt := decipher key index ct
  if checksum pt ≠ crc then .error .blockChecksumMismatch else .ok pt

/-- `decrypt(crc, index, ct)`, R97, with step 7. -/
def decrypt (key : List Byte) (crc index : Word) (ct : List Byte) : Except ErrorKind (Word × List Byte) :=
  (decryptPlain key crc index ct).map parsePlain

/-- `encrypt(flashAddress, payload, index, unknown, pad)`, R98. -/
def encrypt (key : List Byte) (flashAddress : Word) (payload : List Byte) (index unknown pad : Word) :
    BlockRecord :=
  let pt := asmPlain flashAddress payload
  { crc32 := checksum pt, index := index, unknown := unknown, pad := pad, cipherData := encipher key index pt }

/-- `DEC`, R104. -/
def execDec (s : State) : Host.Outcome State Fault Refusal :=
  accept
    (do
      requirePhase .dec s
      let crc ← operand .bcrc s.bcrc
      let index ← operand .bidx s.bidx
      let ct ← operand .bdata s.blockBytes
      let key ← operand .key s.keyBytes
      return (crc, index, ct, key))
    (fun (crc, index, ct, key) => (decryptPlain key crc index ct).map fun pt => s.setBdata pt)
    s

/-- `ENC`, R105. `BCRC`, `BUNK` and `BPAD` are not read. -/
def execEnc (s : State) : Host.Outcome State Fault Refusal :=
  accept
    (do
      requirePhase .enc s
      let index ← operand .bidx s.bidx
      let pt ← operand .bdata s.blockBytes
      let key ← operand .key s.keyBytes
      return (index, pt, key))
    (fun (index, pt, key) => .ok { s.setBdata (encipher key index pt) with bcrc := some (checksum pt) })
    s

end Sys2Proof.Machine
end

