-- ==== Sys2Proof/Machine/Container.lean ====
section
/-! DEFINITION. The container codec's functions (43_container.md R107, R108) and the commands `DECC`, `LDBLK`, `CLOSE`,
`BEGIN`, `APPEND`, `ENCC`. All lengths and addresses are natural numbers (20_memory.md R46). -/
namespace Sys2Proof.Machine

/-- The frame address of record `k`, R49: `16 + 276*k`. -/
def recordAddress (k : Nat) : Nat := Config.headerLength + Config.blockLength * k

/-- `decodeContainer(bytes)`, R107. -/
def decodeContainer (bytes : List Byte) : Except ErrorKind (FileHeader × List BlockRecord) :=
  if bytes.length < Config.headerLength then .error .truncatedInput
  else
    let h := parseHeader (slice bytes 0 Config.headerLength)
    if bytes.length < recordAddress h.numBlocks.toNat then .error .truncatedInput
    else if checksum (bytes.drop Config.headerLength) ≠ h.crc32 then .error .fileChecksumMismatch
    else
      .ok (h, (List.range h.numBlocks.toNat).map fun k =>
        parseBlock (slice bytes (recordAddress k) Config.blockLength))

/-- The `numBlocks` word for a list of `n` blocks. R108: "`n` must fit `u32`", and "the source does not say what a longer
list does": there it is a free value, which is the model's choice (log 15). -/
def blockCountWord (n : Nat) : Word := if n < 2 ^ 32 then BitVec.ofNat 32 n else Config.longBlockCount n

/-- `encodeContainer(header, blocks)`, R108. That a list of 2^32 or more blocks is serialized like any other, with a free
`numBlocks`, is the model's choice (log 15); no command can build one (R116). -/
def encodeContainer (header : FileHeader) (blocks : List BlockRecord) : List Byte :=
  let body := blocks.flatMap serBlock
  serHeader { header with crc32 := checksum body, numBlocks := blockCountWord blocks.length } ++ body

/-- `DECC`, R112: steps 1, 3 and 4 of `decodeContainer`, in the order of R141. -/
def execDecc (s : State) : Host.Outcome State Fault Refusal :=
  accept
    (requirePhase .decc s)
    (fun _ =>
      if s.flen < Config.headerLength then .error .truncatedInput
      else
        let h := parseHeader (s.memRead 0 Config.headerLength)
        if s.flen < recordAddress h.numBlocks.toNat then .error .truncatedInput
        else if checksum (s.memRead Config.headerLength (s.flen - Config.headerLength)) ≠ h.crc32 then
          .error .fileChecksumMismatch
        else
          .ok { s with
            hminor := some h.minor, hmajor := some h.major, hmagic := some h.magic, hcrc := some h.crc32,
            hpad := some h.pad, hnblk := some h.numBlocks, ph := .opened })
    s

/-- `LDBLK`, R113. The record lies in the frame whenever `DECC` has opened it; where it does not, the access is
to an invalid range and refused (R39). -/
def execLdblk (s : State) : Host.Outcome State Fault Refusal :=
  accept
    (do
      requirePhase .ldblk s
      let k ← operand .arg0 s.arg0
      let n ← operand .hnblk s.hnblk
      require (k.toNat < n.toNat) .blockNumber
      require (recordAddress (k.toNat + 1) ≤ s.flen) .frameRange
      return k.toNat)
    (fun k =>
      let b := parseBlock (s.memRead (recordAddress k) Config.blockLength)
      .ok { s.setBdata b.cipherData with
        bcrc := some b.crc32, bidx := some b.index, bunk := some b.unknown, bpad := some b.pad })
    s

/-- `CLOSE`, R114. -/
def execClose (s : State) : Host.Outcome State Fault Refusal :=
  accept (requirePhase .close s) (fun _ => .ok { s with ph := .idle }) s

/-- `BEGIN`, R115: the sixteen zero bytes are a placeholder for the header. -/
def execBegin (s : State) : Host.Outcome State Fault Refusal :=
  accept
    (requirePhase .begin s)
    (fun _ =>
      .ok { s.setFrame (List.replicate Config.headerLength 0#8) with ecnt := 0#32, ph := .building })
    s

/-- `APPEND`, R116. -/
def execAppend (s : State) : Host.Outcome State Fault Refusal :=
  accept
    (do
      requirePhase .append s
      let crc ← operand .bcrc s.bcrc
      let index ← operand .bidx s.bidx
      let unknown ← operand .bunk s.bunk
      let pad ← operand .bpad s.bpad
      let data ← operand .bdata s.blockBytes
      require (s.ecnt.toNat ≠ 2 ^ 32 - 1) .countOverflow
      require (recordAddress (s.ecnt.toNat + 1) ≤ s.params.fcap) .noRoom
      return { crc32 := crc, index := index, unknown := unknown, pad := pad, cipherData := data })
    (fun (b : BlockRecord) => .ok { s.growFrame (serBlock b) with ecnt := s.ecnt + 1 })
    s

/-- `ENCC`, R117. The frame holds its 16 header bytes whenever a container is being built; where it does not,
the access is to an invalid range and refused (R39). -/
def execEncc (s : State) : Host.Outcome State Fault Refusal :=
  accept
    (do
      requirePhase .encc s
      let minor ← operand .hminor s.hminor
      let major ← operand .hmajor s.hmajor
      let magic ← operand .hmagic s.hmagic
      let pad ← operand .hpad s.hpad
      require (Config.headerLength ≤ s.flen) .frameRange
      return (minor, major, magic, pad))
    (fun (minor, major, magic, pad) =>
      let crc := checksum (s.memRead Config.headerLength (s.flen - Config.headerLength))
      let header : FileHeader :=
        { minor := minor, major := major, magic := magic, crc32 := crc, pad := pad, numBlocks := s.ecnt }
      .ok { s.memWrite 0 (serHeader header) with hcrc := some crc, hnblk := some s.ecnt, ph := .idle })
    s

end Sys2Proof.Machine
end

