-- ==== Sys2Proof/Machine/KeyLoad.lean ====
section
/-! DEFINITION. The key load, `LDKEY` (44_key_and_host.md R125). -/
namespace Sys2Proof.Machine

/-- `LDKEY`, R125: exactly 516 bytes, or `InvalidKeyLength`, which enters `DEAD` (R139, R145). -/
def execLdkey (s : State) : Host.Outcome State Fault Refusal :=
  accept
    (requirePhase .ldkey s)
    (fun _ =>
      if s.params.ks.length ≠ Config.keyLength then .error .invalidKeyLength
      else .ok { s with key := Memory.ofBytes .key 0 s.params.ks, ph := .idle })
    s

end Sys2Proof.Machine
end

