-- ==== Sys2Proof/Machine/Dispatch.lean ====
section
/-! DEFINITION. One arm per command: its meaning. -/
namespace Sys2Proof.Machine

def exec (i : Instr) (s : State) : Host.Outcome State Fault Refusal :=
  match i with
  | .ldkey => Sys2Proof.Machine.execLdkey s
  | .crc => Sys2Proof.Machine.execCrc s
  | .swz => Sys2Proof.Machine.execSwz s
  | .uswz => Sys2Proof.Machine.execUswz s
  | .swzb => Sys2Proof.Machine.execSwzb s
  | .uswzb => Sys2Proof.Machine.execUswzb s
  | .dec => Sys2Proof.Machine.execDec s
  | .enc => Sys2Proof.Machine.execEnc s
  | .decc => Sys2Proof.Machine.execDecc s
  | .ldblk => Sys2Proof.Machine.execLdblk s
  | .close => Sys2Proof.Machine.execClose s
  | .begin => Sys2Proof.Machine.execBegin s
  | .append => Sys2Proof.Machine.execAppend s
  | .encc => Sys2Proof.Machine.execEncc s

end Sys2Proof.Machine
end

