-- ==== Sys2Proof/Machine/HostPort.lean ====
section
/-! DEFINITION. The host's moves (44_key_and_host.md R127 to R131), each one step of the machine. -/
namespace Sys2Proof.Machine

/-- `WR CMD, word`, R131: decode, test the refusal conditions, run the whole command as one step. `CMD` has 32
bits (R30); a value of more is none of the fourteen words and so reserved (R68, log 7). -/
def issue (v : Dword) (s : State) : Host.Outcome State Fault Refusal :=
  if v.extractLsb' 32 32 = 0#32 then
    match decode (v.extractLsb' 0 32) with
    | .ok i => exec i s
    | .error e => .refused (.reservedWord e)
  else .refused .wideCommandWord

/-- `WR reg, v`, R128: an `RW` register takes `v` truncated to its width (R33); `HVER` is R32. -/
def writeRegister (reg : Nat) (v : Dword) (s : State) : Host.Outcome State Fault Refusal :=
  match reg with
  | 0 => issue v s
  | 1 => .next { s with arg0 := some v }
  | 2 => .next { s with arg1 := some v }
  | 3 => .refused (.readOnlyRegister 3)
  | 4 => .next { s with w := some (v.setWidth 32) }
  | 5 => .refused (.readOnlyRegister 5)
  | 6 => .next { s with
      hminor := some (v.extractLsb' 0 8), hmajor := some (v.extractLsb' 8 8), hmagic := some (v.extractLsb' 16 16) }
  | 7 => .refused (.readOnlyRegister 7)
  | 8 => .next { s with hpad := some (v.setWidth 32) }
  | 9 => .refused (.readOnlyRegister 9)
  | 10 => .next { s with bcrc := some (v.setWidth 32) }
  | 11 => .next { s with bidx := some (v.setWidth 32) }
  | 12 => .next { s with bunk := some (v.setWidth 32) }
  | 13 => .next { s with bpad := some (v.setWidth 32) }
  | 14 => .refused (.readOnlyRegister 14)
  | 15 => .refused (.readOnlyRegister 15)
  | n => .refused (.noSuchRegister n)

/-- A host read that gives a value, or is refused (R128 to R130). -/
def deliver (x : Except Refusal Dword) (s : State) : Host.Outcome State Fault Refusal :=
  match x with
  | .ok v => .next (s.reply v)
  | .error r => .refused r

/-- A host write that is allowed under a condition, or is refused (R128 to R130). -/
def permit (c : Except Refusal Unit) (t : State) : Host.Outcome State Fault Refusal :=
  match c with
  | .ok _ => .next t
  | .error r => .refused r

/-- `BRD i`, R129. -/
def readBlockByte (i : Nat) (s : State) : Except Refusal Dword := do
  require (i < Config.plainLength) (.blockIndex i)
  let b ← operand .bdata (Memory.get .bdata s.bdata i)
  return b.setWidth 64

/-- `FRD a`, R130. -/
def readFrameByte (a : Nat) (s : State) : Except Refusal Dword := do
  require s.ph.keyed (.framePhase s.ph)
  require (a < s.flen) (.frameAddress a)
  return (s.frameByte a).setWidth 64

/-- What `FLOAD s` needs, R130. -/
def mayLoadFrame (bytes : List Byte) (s : State) : Except Refusal Unit := do
  require (s.ph == .idle) (.framePhase s.ph)
  require (bytes.length ≤ s.params.fcap) .noRoom

/-- What `FWR a, b` needs, R130. -/
def mayWriteFrame (a : Nat) (s : State) : Except Refusal Unit := do
  require (s.ph == .idle) (.framePhase s.ph)
  require (a < s.flen) (.frameAddress a)

/-- One move of the host. Refused moves have no next state (R146, 93_implementation_defined.md U7). -/
def perform (m : HostMove) (s : State) : Host.Outcome State Fault Refusal :=
  match m with
  | .reset => .next s.afterReset
  | .readReg reg => deliver (readRegister reg s) s
  | .writeReg reg v => writeRegister reg v s
  | .readBlock i => deliver (readBlockByte i s) s
  | .writeBlock i b =>
    permit (require (i < Config.plainLength) (.blockIndex i)) { s with bdata := Memory.put .bdata s.bdata i b }
  | .loadFrame bytes => permit (mayLoadFrame bytes s) (s.setFrame bytes)
  | .readFrame a => deliver (readFrameByte a s) s
  | .writeFrame a b => permit (mayWriteFrame a s) (s.memWrite a [b])

/-- The move that issues a command (R71: `<MNEMONIC>` is `WR CMD, <command word>`). -/
def commandMove (i : Instr) : HostMove := .writeReg 0 ((encode i).setWidth 64)

/-- The engine's turn: the host's next move, and with none it "simply waits" (R150, log 5). -/
def turn (s : State) : Host.Outcome State Fault Refusal :=
  match s.nextMove with
  | none => .next s
  | some (m, t) => perform m t

/-- The host's move that writes the command word made of the `nbits` low bits of `w`. -/
def fetchMove (nbits w : Nat) : HostMove := .writeReg 0 (BitVec.ofNat 64 (w % 2 ^ nbits))

end Sys2Proof.Machine
end

