-- ==== Sys2Proof/Machine/Step.lean ====
section
/-! DEFINITION. The step: one move of the host, which for `WR CMD` is one whole command (44_key_and_host.md R131). -/
namespace Sys2Proof.Machine

/-- One step. Its three outcomes are R13's ok and error (both `next`) and refused; there is no fault. -/
def step (s : State) : Host.Outcome State Fault Refusal := turn s

/-- `s` with the command word `w` as the host's very next move (log 4). -/
def State.withFetchWord (s : State) (nbits w : Nat) : State :=
  { s with inbox := fetchMove nbits w :: s.inbox }

end Sys2Proof.Machine
end

