-- ==== Sys2Proof/Machine/Macros.lean ====
section
/-! DEFINITION. The assembler shorthands of 30_encoding.md R71 and the macros of R72. They have no opcode: each is a
sequence of host moves, and `DECODE_ALL` is one whose next move depends on what the host reads. -/
namespace Sys2Proof.Machine

/-- Go on from a next state; a refusal ends the sequence. -/
def andThen {α β : Type} (x : Host.Outcome α Fault Refusal) (f : α → Host.Outcome β Fault Refusal) :
    Host.Outcome β Fault Refusal :=
  match x with
  | .next a => f a
  | .fault r => .fault r
  | .refused r => .refused r

/-- Moves performed one after another, until one is refused. -/
def performAll : List HostMove → State → Host.Outcome State Fault Refusal
  | [], s => .next s
  | m :: rest, s => andThen (perform m s) (performAll rest)

/-- `BWR i..j, bytes`, R71. -/
def blockWrites (i : Nat) : List Byte → List HostMove
  | [] => []
  | b :: rest => .writeBlock i b :: blockWrites (i + 1) rest

/-- `CRC A, N`, `SWZB A, N`, `USWZB A, N`, R71: the operands, then the command. -/
def rangeCommand (i : Instr) (a n : Dword) : List HostMove := [.writeReg 1 a, .writeReg 2 n, commandMove i]

/-- `SWZ w`, `USWZ w`, R71. -/
def wordCommand (i : Instr) (w : Word) : List HostMove := [.writeReg 4 (w.setWidth 64), commandMove i]

/-- `LDBLK k`, R71. -/
def loadBlockMoves (k : Nat) : List HostMove := [.writeReg 1 (BitVec.ofNat 64 k), commandMove .ldblk]

/-- What the surrounding tool hands to the encode path (R4 b, R72). -/
structure BlockTuple where
  flashAddress : Word
  payload : List Byte
  index : Word
  unknown : Word
  pad : Word
  deriving DecidableEq, Repr

/-- `ENCODE_BLOCK fa, payload, idx, unk, pad`, R72. -/
def encodeBlockMoves (t : BlockTuple) : List HostMove :=
  [.writeReg 11 (t.index.setWidth 64), .writeReg 12 (t.unknown.setWidth 64), .writeReg 13 (t.pad.setWidth 64)]
    ++ blockWrites 0 (bytesLe32 t.flashAddress) ++ blockWrites 4 t.payload
    ++ [commandMove .enc, commandMove .append]

/-- `ENCODE_ALL minor, major, magic, hpad, [tuples]`, R72. -/
def encodeAllMoves (minor major : Byte) (magic : Half) (hpad : Word) (tuples : List BlockTuple) :
    List HostMove :=
  [.writeReg 6 ((versionWord minor major magic).setWidth 64), .writeReg 8 (hpad.setWidth 64), commandMove .begin]
    ++ tuples.flatMap encodeBlockMoves ++ [commandMove .encc]

/-- What a run of `DECODE_ALL` leaves the host with: the tuples it emitted, and the blocks that failed. -/
structure DecodeReport where
  state : State
  emitted : List BlockTuple
  failed : List Nat
  deriving DecidableEq, Repr

/-- The host moves of "emit (FADDR, PAYLOAD, BIDX, BUNK, BPAD) by RD/BRD", R72: `FADDR` and `PAYLOAD` are the bytes 0 to
259 of `BDATA`, read in that order as P2 of 95_test_vectors.md does; then registers 11, 12 and 13. -/
def emitMoves : List HostMove :=
  (List.range Config.plainLength).map .readBlock ++ [.readReg 11, .readReg 12, .readReg 13]

/-- What those moves give the host of a tuple, oldest first. -/
def tupleReads (b : BlockTuple) : List Dword :=
  (asmPlain b.flashAddress b.payload).map (·.setWidth 64)
    ++ [b.index.setWidth 64, b.unknown.setWidth 64, b.pad.setWidth 64]

/-- The tuple the host makes of the values those moves gave it, oldest first. -/
def tupleOfReads (values : List Dword) : BlockTuple :=
  let plain := parsePlain ((values.take Config.plainLength).map (·.setWidth 8))
  let register (i : Nat) : Word := (values.getD (Config.plainLength + i) 0#64).setWidth 32
  { flashAddress := plain.1, payload := plain.2, index := register 0, unknown := register 1, pad := register 2 }

/-- The report after one tuple has been read out: the state with the values read, and the tuple made of them. -/
def emitTuple (r : DecodeReport) : Host.Outcome DecodeReport Fault Refusal :=
  andThen (performAll emitMoves r.state) fun t =>
    .next { r with
      state := t, emitted := r.emitted ++ [tupleOfReads (t.replies.take emitMoves.length).reverse] }

/-- The loop of `DECODE_ALL` and its last line: `left` blocks from number `k` on, then `CLOSE`. `goOn k` is the host's
choice if block `k` fails: record it and continue, or stop (R72, R140; log 14). -/
def decodeBlocks (goOn : Nat → Bool) : Nat → Nat → DecodeReport → Host.Outcome DecodeReport Fault Refusal
  | 0, _, r => andThen (perform (commandMove .close) r.state) fun t => .next { r with state := t }
  | left + 1, k, r =>
    andThen (performAll (loadBlockMoves k ++ [commandMove .dec]) r.state) fun t =>
      if t.err = 0#3 then andThen (emitTuple { r with state := t }) (decodeBlocks goOn left (k + 1))
      else
        let failed := { r with state := t, failed := r.failed ++ [k] }
        if goOn k then decodeBlocks goOn left (k + 1) failed else .next failed

/-- How many blocks a `DECC` that has just run offers: `HNBLK`, and none where it ended in an error. -/
def openedBlocks (s : State) : Option Nat := if s.err = 0#3 then s.hnblk.map BitVec.toNat else none

/-- `DECODE_ALL`, R72: `DECC`; stop on an error; otherwise the blocks in increasing order, and `CLOSE`. -/
def decodeAll (goOn : Nat → Bool) (s : State) : Host.Outcome DecodeReport Fault Refusal :=
  andThen (perform (commandMove .decc) s) fun t =>
    match openedBlocks t with
    | none => .next { state := t, emitted := [], failed := [] }
    | some n => decodeBlocks goOn n 0 { state := t, emitted := [], failed := [] }

end Sys2Proof.Machine
end

