-- ==== Sys2Proof/Safety.lean ====
section
/-! DEFINITION. The terms claims are stated in: the byte views of a state, the invariant of XBCC, and what a
well-behaved host move is. -/
namespace Sys2Proof.Machine

/-- `BDATA[i]`; `none` is `undef` (R25). -/
def State.blockByte (s : State) (i : Nat) : Option Byte := Memory.get .bdata s.bdata i

/-- `KEY[i]`; `none` is `undef` (R20). -/
def State.keyByte (s : State) (i : Nat) : Option Byte := Memory.get .key s.key i

/-- The whole frame, `FRAME[0..FLEN)` (R21). -/
def State.frameBytes (s : State) : List Byte := s.memRead 0 s.flen

/-- The three byte spaces are in canonical form and inside their sizes (R21, R38, R40, R41). -/
structure State.SpacesOk (s : State) : Prop where
  /-- `FRAME` is written down in its one canonical form. -/
  frame_wf : Memory.wf .frame s.frame = true
  /-- "there is no byte beyond `FLEN`", R21. -/
  frame_below : Memory.below s.frame s.flen = true
  /-- `FLEN <= FCAP` always, R21. -/
  frame_fits : s.flen ≤ s.params.fcap
  /-- `FCAP >= 16`, R7. -/
  capacity : Config.headerLength ≤ s.params.fcap
  /-- `KEY` is written down in its one canonical form. -/
  key_wf : Memory.wf .key s.key = true
  /-- `KEY` has 516 bytes, R40. -/
  key_below : Memory.below s.key Config.keyLength = true
  /-- `BDATA` is written down in its one canonical form. -/
  bdata_wf : Memory.wf .bdata s.bdata = true
  /-- `BDATA` has 260 bytes, R41. -/
  bdata_below : Memory.below s.bdata Config.plainLength = true

/-- What holds in every state the machine can reach (R151: "from the reset state or from a state reached from it
by host moves and accepted commands"). -/
structure State.Inv (s : State) : Prop where
  /-- The byte spaces. -/
  spaces : s.SpacesOk
  /-- `KEY` is "fully defined whenever `PH` is `IDLE`, `OPEN` or `BUILD`", R20. -/
  key_defined : s.ph.keyed = true → ∃ key, s.keyBytes = some key
  /-- `KEY` is `undef` "whenever `PH` is `NOKEY` or `DEAD`", R20; no frame move and no `BEGIN` is possible there
  (R34, R124). -/
  unkeyed : s.ph.keyed = false → s.key = [] ∧ s.frame = [] ∧ s.flen = 0 ∧ s.ecnt = 0#32
  /-- "Invariant while `PH = BUILD`: `FLEN = 16 + 276*ECNT`", R116. -/
  building_length : s.ph = .building → s.flen = recordAddress s.ecnt.toNat
  /-- "While `PH = BUILD` a read of addresses 0 to 15 returns the placeholder zeros", R130. -/
  building_header : s.ph = .building → s.memRead 0 Config.headerLength = List.replicate Config.headerLength 0#8
  /-- In `OPEN` the header registers the host cannot write are the frame's own fields, every record `HNBLK`
  promises is in the frame, and the file checksum is right (R112, R113, R123). -/
  opened_valid : s.ph = .opened →
    s.hcrc = some (parseHeader (s.memRead 0 Config.headerLength)).crc32 ∧
    s.hnblk = some (parseHeader (s.memRead 0 Config.headerLength)).numBlocks ∧
    recordAddress (parseHeader (s.memRead 0 Config.headerLength)).numBlocks.toNat ≤ s.flen ∧
    checksum (s.memRead Config.headerLength (s.flen - Config.headerLength)) =
      (parseHeader (s.memRead 0 Config.headerLength)).crc32
  /-- `ERR`: "Values 6 and 7 are never produced", R18. -/
  err_code : s.err.toNat ≤ 5
  /-- The last error is also in the log (R139). -/
  err_logged : s.err ≠ 0#3 → s.elog.getLsbD (s.err.toNat - 1) = true
  /-- `DEAD` is entered by `InvalidKeyLength` and by nothing else (R145), and no command is accepted there. -/
  dead_iff : s.ph = .dead ↔ s.elog.getLsbD 4 = true
  /-- In `DEAD`, `ERR = 5`, R145. -/
  dead_err : s.ph = .dead → s.err = 5#3
  /-- In `NOKEY` nothing has been accepted since reset (R124), so the status is that of reset. -/
  fresh : s.ph = .noKey → s.err = 0#3 ∧ s.elog = 0#5
  /-- The three elements behind `HVER` are written together (R22, R32, R112). -/
  version_together : s.hminor.isSome = s.hmajor.isSome ∧ s.hmajor.isSome = s.hmagic.isSome
  /-- `HCRC` and `HNBLK` are written together (R23, R112, R117). -/
  derived_together : s.hcrc.isSome = s.hnblk.isSome

/-- A host move that issues a command (R131). -/
def HostMove.isCommand : HostMove → Bool
  | .writeReg reg _ => reg == 0
  | .reset => false
  | .readReg _ => false
  | .readBlock _ => false
  | .writeBlock _ _ => false
  | .loadFrame _ => false
  | .readFrame _ => false
  | .writeFrame _ _ => false

/-- A host move that only reads (R48). -/
def HostMove.isRead : HostMove → Bool
  | .readReg _ => true
  | .readBlock _ => true
  | .readFrame _ => true
  | .reset => false
  | .writeReg _ _ => false
  | .writeBlock _ _ => false
  | .loadFrame _ => false
  | .writeFrame _ _ => false

/-- The acceptance table of R124, row by row and written out apart from `acceptedIn`, so that the two can be
compared. -/
def commandTable : List (Instr × Phase) :=
  [(.ldkey, .noKey),
   (.crc, .idle), (.crc, .opened), (.crc, .building),
   (.swz, .idle), (.swz, .opened), (.swz, .building),
   (.uswz, .idle), (.uswz, .opened), (.uswz, .building),
   (.swzb, .idle),
   (.uswzb, .idle),
   (.dec, .idle), (.dec, .opened), (.dec, .building),
   (.enc, .idle), (.enc, .opened), (.enc, .building),
   (.decc, .idle),
   (.ldblk, .opened),
   (.close, .opened),
   (.begin, .idle),
   (.append, .building),
   (.encc, .building)]

/-- The errors a command can raise, by code: the "raised by command" column of R132. -/
def errorTable : List (Instr × Nat) :=
  [(.decc, 1), (.decc, 2), (.dec, 3), (.swzb, 4), (.uswzb, 4), (.ldkey, 5)]

/-- Bit `j` of a byte sequence as the CRC generator takes them: the least significant bit of a byte first (R73). -/
def bitAt (s : List Byte) (j : Nat) : Bool := (s.getD (j / 8) 0#8).getLsbD (j % 8)

/-- The outcome with a function applied to its next state. -/
def mapNext (f : State → State) : Host.Outcome State Fault Refusal → Host.Outcome State Fault Refusal
  | .next s => .next (f s)
  | .fault r => .fault r
  | .refused r => .refused r

/-- A safe run: `n` steps none of which is refused, which is what R151 lets claims be made about. -/
def State.runsSafely (s : State) (n : Nat) : Prop := ∃ t, Host.Core.run Sys2Proof.core n s = .next t

end Sys2Proof.Machine
end

