-- ==== Sys2Proof/Certificates/Slice0/Obligations.lean ====
section
/-! DEFINITION. The statements, from the numbered rules of spec/. A statement of the form "`exec i s` is `.next t` for
this `t`" says every element of the state: what its record update does not name is unchanged. The frame is read
through `State.frameByte` and `State.memRead`, BDATA through `State.blockByte` and `State.blockBytes`, KEY through
`State.keyByte`. -/

open Sys2Proof Sys2Proof.Machine

/-! ### Encodings -/

/-- R59, R66: the word of a command decodes to that command, and every command is well formed. -/
def Obligations.CommandWordsRoundTrip : Prop :=
  ∀ i : Instr, i.wellFormed = true ∧ decode (encode i) = .ok i

/-- R66: "`match` is the whole 32-bit word; `mask` is 0xFFFFFFFF for every command": each command has exactly its
one word. -/
def Obligations.OpcodeMapIsExact : Prop :=
  ∀ w : Word,
    (decode w = .ok .ldkey ↔ w = 0x00000001#32) ∧ (decode w = .ok .crc ↔ w = 0x00000002#32) ∧
    (decode w = .ok .swz ↔ w = 0x00000003#32) ∧ (decode w = .ok .uswz ↔ w = 0x00000004#32) ∧
    (decode w = .ok .swzb ↔ w = 0x00000005#32) ∧ (decode w = .ok .uswzb ↔ w = 0x00000006#32) ∧
    (decode w = .ok .dec ↔ w = 0x00000007#32) ∧ (decode w = .ok .enc ↔ w = 0x00000008#32) ∧
    (decode w = .ok .decc ↔ w = 0x00000009#32) ∧ (decode w = .ok .ldblk ↔ w = 0x0000000A#32) ∧
    (decode w = .ok .close ↔ w = 0x0000000B#32) ∧ (decode w = .ok .begin ↔ w = 0x0000000C#32) ∧
    (decode w = .ok .append ↔ w = 0x0000000D#32) ∧ (decode w = .ok .encc ↔ w = 0x0000000E#32)

/-- A few words of R66, one for each family of the table, written out from their encodings. -/
def Obligations.FamilyWordsDecode : Prop :=
  decode 0b00000000000000000000000000000001#32 = .ok .ldkey ∧
  decode 0b00000000000000000000000000000010#32 = .ok .crc ∧
  decode 0b00000000000000000000000000000110#32 = .ok .uswzb ∧
  decode 0b00000000000000000000000000000111#32 = .ok .dec ∧
  decode 0b00000000000000000000000000001110#32 = .ok .encc

/-- R67 and R68: "Every command word is either one of the fourteen of rule R66 or reserved", the check of
`WellFormed.lean`, written from R59 and R67 alone, tells the two apart as the decoder does, and a reserved word
issued to `CMD` is refused in every state, whatever it is reserved for. -/
def Obligations.EveryWordIsACommandOrReserved : Prop :=
  (∀ w : Word,
    ((∃ i, w = encode i ∧ decode w = .ok i ∧ commandWordWellFormed w = true) ∨
      ((∀ i, w ≠ encode i) ∧ (∃ e, decode w = .error e) ∧ commandWordWellFormed w = false))) ∧
  (∀ (s : State) (w : Word),
    w.toNat % 256 = 0 ∨ 15 ≤ w.toNat % 256 ∨ 256 ≤ w.toNat →
    ∃ e, perform (.writeReg 0 (w.setWidth 64)) s = .refused (.reservedWord e))

/-- R131 in the model's terms (logs 4, 5): a step takes the host's next move; where it writes a command word to
`CMD`, the step is the command; where no move waits, nothing changes; and `withFetchWord` puts a command first. -/
def Obligations.StepRunsTheIssuedCommand : Prop :=
  (∀ (s : State) (v : Dword) (i : Instr) (rest : List HostMove),
    s.inbox = .writeReg 0 v :: rest → v.toNat < 2 ^ 32 → decode (v.setWidth 32) = .ok i →
    i.wellFormed = true ∧ step s = exec i { s with inbox := rest }) ∧
  (∀ (s : State) (m : HostMove) (rest : List HostMove),
    s.inbox = m :: rest → step s = perform m { s with inbox := rest }) ∧
  (∀ s : State, s.inbox = [] → step s = .next s) ∧
  (∀ (s : State) (i : Instr), step (s.withFetchWord 32 (encode i).toNat) = exec i s)

/-- R10: the little-endian readings of two and of four bytes, and `bytes_le16`, `bytes_le32` as their inverses. -/
def Obligations.LittleEndianReadings : Prop :=
  (∀ a b : Byte, (le16 [a, b]).toNat = a.toNat + 256 * b.toNat ∧ bytesLe16 (le16 [a, b]) = [a, b]) ∧
  (∀ a b c d : Byte,
    (le32 [a, b, c, d]).toNat = a.toNat + 2 ^ 8 * b.toNat + 2 ^ 16 * c.toNat + 2 ^ 24 * d.toNat ∧
    bytesLe32 (le32 [a, b, c, d]) = [a, b, c, d]) ∧
  (∀ v : Half, le16 (bytesLe16 v) = v) ∧ (∀ v : Word, le32 (bytesLe32 v) = v)

/-- R62: the header's sixteen bytes, and that parsing and serializing are inverse to each other. The round trip is the
spec's own inference (R62, "[derived: from rule R55]"). -/
def Obligations.HeaderFormatRoundTrips : Prop :=
  (∀ h : FileHeader,
    serHeader h = [h.minor] ++ [h.major] ++ bytesLe16 h.magic ++ bytesLe32 h.crc32 ++ bytesLe32 h.pad ++
      bytesLe32 h.numBlocks ∧
    (serHeader h).length = 16 ∧ parseHeader (serHeader h) = h) ∧
  (∀ s : List Byte, s.length = 16 → serHeader (parseHeader s) = s)

/-- R64: the record's 276 bytes, and that parsing and serializing are inverse to each other. The inverse law is the
spec's own inference (R64, "[derived: from rule R56]"). -/
def Obligations.BlockFormatRoundTrips : Prop :=
  (∀ b : BlockRecord, b.cipherData.length = 260 →
    serBlock b = bytesLe32 b.crc32 ++ bytesLe32 b.index ++ bytesLe32 b.unknown ++ bytesLe32 b.pad ++
      b.cipherData ∧
    (serBlock b).length = 276 ∧ parseBlock (serBlock b) = b) ∧
  (∀ r : List Byte, r.length = 276 → (parseBlock r).cipherData.length = 260 ∧ serBlock (parseBlock r) = r)

/-- R65: the plaintext's 260 bytes, parsing and assembling inverse to each other, and the two views of `BDATA`. -/
def Obligations.PlaintextFormatRoundTrips : Prop :=
  (∀ (fa : Word) (p : List Byte), p.length = 256 →
    asmPlain fa p = bytesLe32 fa ++ p ∧ (asmPlain fa p).length = 260 ∧ parsePlain (asmPlain fa p) = (fa, p)) ∧
  (∀ p : List Byte, p.length = 260 →
    (parsePlain p).2.length = 256 ∧ asmPlain (parsePlain p).1 (parsePlain p).2 = p) ∧
  (∀ (s : State) (p : List Byte), s.blockBytes = some p →
    s.faddr = some (parsePlain p).1 ∧ s.payload = some (parsePlain p).2)

/-! ### Checksum -/

/-- R75 and R77: the worked byte step, the empty input, the check string. The byte step is R75's, which the spec marks
"[from general knowledge, not in source]" and makes normative (log 12); the check value is the spec's own inference
(R77, "[derived: from rules R74 to R76]"). -/
def Obligations.ChecksumConvention : Prop :=
  crcByte 0xFFFFFFFF#32 0x00#8 = 0x2DFD1072#32 ∧
  checksum [] = 0xFFFFFFFF#32 ∧
  checksum [0x31#8, 0x32#8, 0x33#8, 0x34#8, 0x35#8, 0x36#8, 0x37#8, 0x38#8, 0x39#8] = 0x340BC6D9#32

/-- R78: the register after a prefix is the checksum of the prefix. The spec's own inference (R78, "[derived: from
rule R76]"). -/
def Obligations.ChecksumRunsInPieces : Prop :=
  ∀ a b : List Byte, checksum (a ++ b) = checksumFrom (checksum a) b

/-- R80: "two sequences of equal length that differ in a burst of at most 32 consecutive bits have different
checksums". The spec's own inference (R80, "[from general knowledge, not in source]"). -/
def Obligations.BurstChangesChecksum : Prop :=
  ∀ (s t : List Byte) (p : Nat), s.length = t.length → s ≠ t →
    (∀ j, j < p ∨ p + 32 ≤ j → bitAt s j = bitAt t j) → checksum s ≠ checksum t

/-- R79, the command `CRC`: where it is accepted, what it writes, where it is refused. The sum of the two operands
is compared without wrap (R46). -/
def Obligations.CrcCommand : Prop :=
  encode .crc = 0x00000002#32 ∧
  (∀ (s : State) (a n : Dword),
    s.ph = .idle ∨ s.ph = .opened ∨ s.ph = .building → s.arg0 = some a → s.arg1 = some n →
    a.toNat + n.toNat ≤ s.flen →
    exec .crc s = .next { s with crcr := some (checksum (s.memRead a.toNat n.toNat)), err := 0#3 } ∧
    (n.toNat = 0 → exec .crc s = .next { s with crcr := some 0xFFFFFFFF#32, err := 0#3 })) ∧
  (∀ (s : State) (a n : Dword), s.arg0 = some a → s.arg1 = some n → s.flen < a.toNat + n.toNat →
    ∃ r, exec .crc s = .refused r) ∧
  (∀ s : State, s.ph = .noKey ∨ s.ph = .dead ∨ s.arg0 = none ∨ s.arg1 = none →
    ∃ r, exec .crc s = .refused r)

/-! ### Permutation -/

/-- R81: the byte-lane rotations and that they are inverse to each other. -/
def Obligations.ByteLaneRotations : Prop :=
  ∀ b : Byte,
    ror3 b = ((b &&& 0x07#8) <<< 5) ||| ((b &&& 0xF8#8) >>> 3) ∧
    rol3 b = ((b &&& 0xE0#8) >>> 5) ||| ((b &&& 0x1F#8) <<< 3) ∧
    ror3 b = b.rotateRight 3 ∧ rol3 b = b.rotateLeft 3 ∧ rol3 (ror3 b) = b ∧ ror3 (rol3 b) = b

/-- R85: the wiring table of both permutations, bit by bit. The spec's own inference (R85, "[derived: from rules R82
and R83]"). -/
def Obligations.SwizzleWiringTable : Prop :=
  ∀ (w : Word) (j b : Nat), j < 4 → b < 8 →
    (swizzle w).getLsbD (8 * j + (b + 5) % 8) = w.getLsbD (8 * j + b) ∧
    (unswizzle w).getLsbD (8 * j + (b + 3) % 8) = w.getLsbD (8 * j + b)

/-- R84: the inverse law, both bijections, both linear over exclusive or, the two fixed points. The linearity is the
spec's own inference (R84, "[derived: from rule R85]"). -/
def Obligations.SwizzleInverseLaw : Prop :=
  (∀ w : Word, unswizzle (swizzle w) = w ∧ swizzle (unswizzle w) = w) ∧
  Function.Bijective swizzle ∧ Function.Bijective unswizzle ∧
  (∀ a b : Word, swizzle (a ^^^ b) = swizzle a ^^^ swizzle b ∧
    unswizzle (a ^^^ b) = unswizzle a ^^^ unswizzle b) ∧
  swizzle 0x00000000#32 = 0x00000000#32 ∧ swizzle 0xFFFFFFFF#32 = 0xFFFFFFFF#32

/-- R86 and R87: the buffer forms act byte by byte and undo each other on every length that is a multiple of 4, group
by group as R86 writes it, the empty buffer included; every other length "fails with `MalformedLength`". The byte-wise
form is the spec's own inference (R87, "[derived: from rules R82, R83 and R86]"). -/
def Obligations.BufferFormsActByteWise : Prop :=
  (∀ s : List Byte, s.length % 4 = 0 →
    (∃ out, swizzleBuffer s = .ok out ∧ out.length = s.length ∧ unswizzleBuffer out = .ok s ∧
      (∀ m, m < s.length / 4 → slice out (4 * m) 4 = bytesLe32 (swizzle (le32 (slice s (4 * m) 4)))) ∧
      ∀ i, i < s.length → out[i]? = (s[i]?).map ror3) ∧
    (∃ out, unswizzleBuffer s = .ok out ∧ out.length = s.length ∧ swizzleBuffer out = .ok s ∧
      (∀ m, m < s.length / 4 → slice out (4 * m) 4 = bytesLe32 (unswizzle (le32 (slice s (4 * m) 4)))) ∧
      ∀ i, i < s.length → out[i]? = (s[i]?).map rol3)) ∧
  (∀ s : List Byte, s.length % 4 ≠ 0 →
    swizzleBuffer s = .error .malformedLength ∧ unswizzleBuffer s = .error .malformedLength) ∧
  swizzleBuffer [] = .ok [] ∧ unswizzleBuffer [] = .ok []

/-- R88, the command `SWZ`. -/
def Obligations.SwzCommand : Prop :=
  encode .swz = 0x00000003#32 ∧
  (∀ (s : State) (v : Word), s.ph = .idle ∨ s.ph = .opened ∨ s.ph = .building → s.w = some v →
    exec .swz s = .next { s with w := some (swizzle v), err := 0#3 }) ∧
  (∀ s : State, s.ph = .noKey ∨ s.ph = .dead ∨ s.w = none → ∃ r, exec .swz s = .refused r) ∧
  swizzle 0x12345678#32 = 0x4286CA0F#32 ∧ swizzle 0#32 = 0#32 ∧ swizzle 0xFFFFFFFF#32 = 0xFFFFFFFF#32

/-- R89, the command `USWZ`, and that `SWZ` and `USWZ` undo each other. -/
def Obligations.UswzCommand : Prop :=
  encode .uswz = 0x00000004#32 ∧
  (∀ (s : State) (v : Word), s.ph = .idle ∨ s.ph = .opened ∨ s.ph = .building → s.w = some v →
    exec .uswz s = .next { s with w := some (unswizzle v), err := 0#3 } ∧
    (∃ t, exec .swz s = .next t ∧ exec .uswz t = .next { s with err := 0#3 }) ∧
    (∃ t, exec .uswz s = .next t ∧ exec .swz t = .next { s with err := 0#3 })) ∧
  (∀ s : State, s.ph = .noKey ∨ s.ph = .dead ∨ s.w = none → ∃ r, exec .uswz s = .refused r) ∧
  unswizzle 0x4286CA0F#32 = 0x12345678#32 ∧ unswizzle 0x12345678#32 = 0x90A1B2C3#32

/-- R90, the command `SWZB`: the range becomes its swizzled image, every byte outside it and `FLEN` stay; a length
that is no multiple of 4 raises `MalformedLength` and leaves the frame alone; where it is refused. -/
def Obligations.SwzbCommand : Prop :=
  encode .swzb = 0x00000005#32 ∧
  (∀ (s : State) (a n : Dword), s.ph = .idle → s.arg0 = some a → s.arg1 = some n →
    a.toNat + n.toNat ≤ s.flen →
    (n.toNat % 4 = 0 → ∃ t, exec .swzb s = .next t ∧
      swizzleBuffer (s.memRead a.toNat n.toNat) = .ok (t.memRead a.toNat n.toNat) ∧
      (∀ x, x < a.toNat ∨ a.toNat + n.toNat ≤ x → t.frameByte x = s.frameByte x) ∧
      t = { s with frame := t.frame, err := 0#3 }) ∧
    (n.toNat % 4 ≠ 0 → exec .swzb s = .next { s with err := 4#3, elog := s.elog ||| 0b01000#5 })) ∧
  (∀ (s : State) (a n : Dword), s.arg0 = some a → s.arg1 = some n → s.flen < a.toNat + n.toNat →
    ∃ r, exec .swzb s = .refused r) ∧
  (∀ s : State, s.ph ≠ .idle ∨ s.arg0 = none ∨ s.arg1 = none → ∃ r, exec .swzb s = .refused r) ∧
  swizzleBuffer [0x01#8, 0x02#8, 0x03#8, 0x04#8, 0x05#8, 0x06#8, 0x07#8, 0x08#8] =
    .ok [0x20#8, 0x40#8, 0x60#8, 0x80#8, 0xA0#8, 0xC0#8, 0xE0#8, 0x01#8]

/-- R91, the command `USWZB`, as `SWZB`; and its corner case, "`USWZB A, N` after `SWZB A, N` restores the range, and
the reverse". There the frame is in canonical form, and the whole state is restored, but for `ERR`. -/
def Obligations.UswzbCommand : Prop :=
  encode .uswzb = 0x00000006#32 ∧
  (∀ (s : State) (a n : Dword), s.ph = .idle → s.arg0 = some a → s.arg1 = some n →
    a.toNat + n.toNat ≤ s.flen →
    (n.toNat % 4 = 0 → ∃ t, exec .uswzb s = .next t ∧
      unswizzleBuffer (s.memRead a.toNat n.toNat) = .ok (t.memRead a.toNat n.toNat) ∧
      (∀ x, x < a.toNat ∨ a.toNat + n.toNat ≤ x → t.frameByte x = s.frameByte x) ∧
      t = { s with frame := t.frame, err := 0#3 }) ∧
    (n.toNat % 4 ≠ 0 → exec .uswzb s = .next { s with err := 4#3, elog := s.elog ||| 0b01000#5 })) ∧
  (∀ (s : State) (a n : Dword), s.arg0 = some a → s.arg1 = some n → s.flen < a.toNat + n.toNat →
    ∃ r, exec .uswzb s = .refused r) ∧
  (∀ s : State, s.ph ≠ .idle ∨ s.arg0 = none ∨ s.arg1 = none → ∃ r, exec .uswzb s = .refused r) ∧
  unswizzleBuffer [0x01#8, 0x02#8, 0x03#8, 0x04#8, 0x05#8, 0x06#8, 0x07#8, 0x08#8] =
    .ok [0x08#8, 0x10#8, 0x18#8, 0x20#8, 0x28#8, 0x30#8, 0x38#8, 0x40#8] ∧
  (∀ (s : State) (a n : Dword), s.ph = .idle → s.arg0 = some a → s.arg1 = some n →
    a.toNat + n.toNat ≤ s.flen → n.toNat % 4 = 0 → Memory.wf .frame s.frame = true →
    (∃ t, exec .swzb s = .next t ∧ exec .uswzb t = .next { s with err := 0#3 }) ∧
    (∃ t, exec .uswzb s = .next t ∧ exec .swzb t = .next { s with err := 0#3 }))

/-! ### Block transform -/

/-- R92 and R103: the key start offset, that only the low 16 bits of the index matter, its range, its examples; and
"`(i + k) mod 516 = i + k` always", so byte 515 of the key is never read. That only 16 bits matter and that no wrap
happens are the spec's own inferences (R92 "[derived]", R103 "[derived: from rules R92 and R94]"). -/
def Obligations.KeyStartOffset : Prop :=
  (∀ index : Word,
    kso index = ((index >>> 8) + (index &&& 0xFF#32)) &&& 0xFF#32 ∧
    (kso index).toNat = (index.toNat / 256 % 256 + index.toNat % 256) % 256 ∧ (kso index).toNat ≤ 255) ∧
  (∀ (index : Word) (i : Nat), i ≤ 259 →
    (i + (kso index).toNat) % 516 = i + (kso index).toNat ∧ i + (kso index).toNat ≤ 514) ∧
  kso 0x12345678#32 = 0xCE#32 ∧ kso 0x000000FF#32 = 0xFF#32 ∧ kso 0x000001FF#32 = 0x00#32 ∧
  kso 0xFFFFFFFF#32 = 0xFE#32 ∧ kso 0#32 = 0#32

/-- R93: the static key, and its bytes lane by lane. The lane form is the spec's own inference (R93, "[derived]"). -/
def Obligations.StaticKeyLanes : Prop :=
  (∀ index : Word, hk index = bytesLe32 (swizzle index) ∧
    hk index = [ror3 (index.extractLsb' 0 8), ror3 (index.extractLsb' 8 8), ror3 (index.extractLsb' 16 8),
      ror3 (index.extractLsb' 24 8)]) ∧
  hk 0x12345678#32 = [0x0F#8, 0xCA#8, 0x86#8, 0x42#8]

/-- R99: the orders of the stages (K, H, P and P, H, K), that the two XOR stages commute, and that stage P commutes
with neither. The clauses on commutation are the spec's own inference (R99, "[derived: from rules R94, R95 and
41_swizzle.md rule R84]"). -/
def Obligations.StageOrder : Prop :=
  (∀ (key : List Byte) (index : Word) (s : List Byte),
    decipher key index s = mapWords unswizzle (xorHk (xorKey key s (kso index).toNat) (hk index)) ∧
    encipher key index s = xorKey key (xorHk (mapWords swizzle s) (hk index)) (kso index).toNat) ∧
  (∀ (key s h : List Byte) (k : Nat), xorHk (xorKey key s k) h = xorKey key (xorHk s h) k) ∧
  (∃ (key s : List Byte) (k : Nat), mapWords swizzle (xorKey key s k) ≠ xorKey key (mapWords swizzle s) k) ∧
  (∃ s h : List Byte, mapWords swizzle (xorHk s h) ≠ xorHk (mapWords swizzle s) h)

/-- R102: the closed form of both directions, byte by byte; `x_j` is byte `j` of the index. The spec's own inference
(R102, "[derived: from rules R93 to R98 ..."). -/
def Obligations.TransformClosedForm : Prop :=
  (∀ index : Word, unswizzle (le32 (hk index)) = index) ∧
  (∀ (key : List Byte) (index : Word) (s : List Byte) (i : Nat), s.length = 260 → key.length = 516 → i < 260 →
    (decipher key index s)[i]? = some
      (rol3 (s.getD i 0#8 ^^^ key.getD (i + (kso index).toNat) 0#8) ^^^ index.extractLsb' (8 * (i % 4)) 8) ∧
    (encipher key index s)[i]? = some
      (ror3 (s.getD i 0#8 ^^^ index.extractLsb' (8 * (i % 4)) 8) ^^^ key.getD (i + (kso index).toNat) 0#8))

/-- R101: decrypt undoes encrypt under the same key, and encrypt rebuilds every block decrypt accepts. The converse is
the spec's own inference (R101, "[derived: from rules R94 to R98 ..."). -/
def Obligations.BlockRoundTrip : Prop :=
  (∀ (key : List Byte) (fa : Word) (p : List Byte) (index unknown pad : Word), p.length = 256 →
    decrypt key (encrypt key fa p index unknown pad).crc32 index (encrypt key fa p index unknown pad).cipherData
      = .ok (fa, p)) ∧
  (∀ (key : List Byte) (crc index : Word) (ct : List Byte) (fa : Word) (p : List Byte) (u pd : Word),
    ct.length = 260 → decrypt key crc index ct = .ok (fa, p) →
    (encrypt key fa p index u pd).crc32 = crc ∧ (encrypt key fa p index u pd).cipherData = ct)

/-- R104, the command `DEC`: the plaintext where the checksum agrees, `BlockChecksumMismatch` and nothing else
changed where it does not, and where it is refused. -/
def Obligations.DecCommand : Prop :=
  encode .dec = 0x00000007#32 ∧
  (∀ (s : State) (crc index : Word) (ct key : List Byte),
    s.ph = .idle ∨ s.ph = .opened ∨ s.ph = .building → s.bcrc = some crc → s.bidx = some index →
    s.blockBytes = some ct → s.keyBytes = some key →
    (checksum (mapWords unswizzle (xorHk (xorKey key ct (kso index).toNat) (hk index))) = crc →
      ∃ t, exec .dec s = .next t ∧
        t.blockBytes = some (mapWords unswizzle (xorHk (xorKey key ct (kso index).toNat) (hk index))) ∧
        t = { s with bdata := t.bdata, err := 0#3 }) ∧
    (checksum (mapWords unswizzle (xorHk (xorKey key ct (kso index).toNat) (hk index))) ≠ crc →
      exec .dec s = .next { s with err := 3#3, elog := s.elog ||| 0b00100#5 })) ∧
  (∀ s : State, s.ph = .noKey ∨ s.ph = .dead ∨ s.bcrc = none ∨ s.bidx = none ∨
      (∃ i, i < 260 ∧ s.blockByte i = none) → ∃ r, exec .dec s = .refused r)

/-- R105, the command `ENC`: checksum of the plaintext, then the three stages; `BCRC`, `BUNK`, `BPAD` are not
read; where it is refused; and its corner cases: "`ENC` then `DEC` restores `BDATA` and ends ok", and the transform
is not an involution. -/
def Obligations.EncCommand : Prop :=
  encode .enc = 0x00000008#32 ∧
  (∀ (s : State) (index : Word) (pt key : List Byte),
    s.ph = .idle ∨ s.ph = .opened ∨ s.ph = .building → s.bidx = some index →
    s.blockBytes = some pt → s.keyBytes = some key →
    ∃ t, exec .enc s = .next t ∧
      t.blockBytes = some (xorKey key (xorHk (mapWords swizzle pt) (hk index)) (kso index).toNat) ∧
      t = { s with bcrc := some (checksum pt), bdata := t.bdata, err := 0#3 }) ∧
  (∀ s : State, s.ph = .noKey ∨ s.ph = .dead ∨ s.bidx = none ∨ (∃ i, i < 260 ∧ s.blockByte i = none) →
    ∃ r, exec .enc s = .refused r) ∧
  (∀ (s : State) (index : Word) (pt key : List Byte),
    s.ph = .idle ∨ s.ph = .opened ∨ s.ph = .building → s.bidx = some index →
    s.blockBytes = some pt → s.keyBytes = some key →
    ∃ t u, exec .enc s = .next t ∧ exec .dec t = .next u ∧ u.blockBytes = some pt ∧
      u = { s with bcrc := some (checksum pt), bdata := u.bdata, err := 0#3 }) ∧
  (∃ (key : List Byte) (index : Word) (pt : List Byte), key.length = 516 ∧ pt.length = 260 ∧
    encipher key index (encipher key index pt) ≠ pt)

/-- R106: a flipped bit of `cipherData` flips exactly one bit of the plaintext and makes `DEC` end in
`BlockChecksumMismatch`; so does a flipped bit of the stored checksum. `ct` and `crc` are the values before the flip,
of a block that passes. All but the first clause's error is the spec's own inference (R106, "[derived: from rule R102
..."). -/
def Obligations.SingleBitFlipIsDetected : Prop :=
  (∀ (s : State) (crc index : Word) (ct key : List Byte) (i b : Nat),
    s.ph = .idle ∨ s.ph = .opened ∨ s.ph = .building → s.bcrc = some crc → s.bidx = some index →
    s.keyBytes = some key → ct.length = 260 → checksum (decipher key index ct) = crc → i < 260 → b < 8 →
    s.blockBytes = some (ct.set i (ct.getD i 0#8 ^^^ (1#8 <<< b))) →
    decipher key index (ct.set i (ct.getD i 0#8 ^^^ (1#8 <<< b))) =
      (decipher key index ct).set i ((decipher key index ct).getD i 0#8 ^^^ (1#8 <<< ((b + 3) % 8))) ∧
    exec .dec s = .next { s with err := 3#3, elog := s.elog ||| 0b00100#5 }) ∧
  (∀ (s : State) (crc index : Word) (ct key : List Byte) (b : Nat),
    s.ph = .idle ∨ s.ph = .opened ∨ s.ph = .building → s.bcrc = some (crc ^^^ (1#32 <<< b)) →
    s.bidx = some index → s.keyBytes = some key → s.blockBytes = some ct →
    checksum (decipher key index ct) = crc → b < 32 →
    exec .dec s = .next { s with err := 3#3, elog := s.elog ||| 0b00100#5 })

/-! ### Container -/

/-- R109: decoding an encoded container gives back its blocks and header, and encoding a decoded container without
trailing bytes gives back its bytes. The other direction is the spec's own inference (R109, "[derived: from rules
R107, R108 ..."). -/
def Obligations.ContainerRoundTrip : Prop :=
  (∀ (h : FileHeader) (blocks : List BlockRecord), blocks.length < 2 ^ 32 →
    (∀ b ∈ blocks, b.cipherData.length = 260) →
    decodeContainer (encodeContainer h blocks) =
      .ok ({ h with crc32 := checksum (blocks.flatMap serBlock), numBlocks := BitVec.ofNat 32 blocks.length },
        blocks)) ∧
  (∀ (bytes : List Byte) (h : FileHeader) (blocks : List BlockRecord),
    decodeContainer bytes = .ok (h, blocks) → bytes.length = 16 + 276 * h.numBlocks.toNat →
    encodeContainer h blocks = bytes)

/-- R110: one changed byte of the block region of a container that decodes gives `FileChecksumMismatch`; and what a
change inside the header of an encoded container gives. The header clauses are the spec's own inference (R110,
"[derived: from rule R107]"). -/
def Obligations.FileCorruptionIsDetected : Prop :=
  (∀ (bytes : List Byte) (h : FileHeader) (blocks : List BlockRecord) (i : Nat) (b : Byte),
    decodeContainer bytes = .ok (h, blocks) → 16 ≤ i → i < bytes.length → bytes.getD i 0#8 ≠ b →
    decodeContainer (bytes.set i b) = .error .fileChecksumMismatch) ∧
  (∀ (h : FileHeader) (blocks : List BlockRecord), blocks.length < 2 ^ 32 →
    (∀ b ∈ blocks, b.cipherData.length = 260) →
    (blocks.length < h.numBlocks.toNat →
      decodeContainer (serHeader h ++ blocks.flatMap serBlock) = .error .truncatedInput) ∧
    (h.numBlocks.toNat ≤ blocks.length → h.crc32 ≠ checksum (blocks.flatMap serBlock) →
      decodeContainer (serHeader h ++ blocks.flatMap serBlock) = .error .fileChecksumMismatch) ∧
    (h.numBlocks.toNat ≤ blocks.length → h.crc32 = checksum (blocks.flatMap serBlock) →
      decodeContainer (serHeader h ++ blocks.flatMap serBlock) = .ok (h, blocks.take h.numBlocks.toNat)))

/-- R112, the command `DECC`: the two length tests, the checksum test, in that order, and the ok outcome. -/
def Obligations.DeccCommand : Prop :=
  encode .decc = 0x00000009#32 ∧
  (∀ s : State, s.ph = .idle →
    (s.flen < 16 → exec .decc s = .next { s with err := 1#3, elog := s.elog ||| 0b00001#5 }) ∧
    (16 ≤ s.flen → s.flen < 16 + 276 * (le32 (s.memRead 12 4)).toNat →
      exec .decc s = .next { s with err := 1#3, elog := s.elog ||| 0b00001#5 }) ∧
    (16 ≤ s.flen → 16 + 276 * (le32 (s.memRead 12 4)).toNat ≤ s.flen →
      checksum (s.memRead 16 (s.flen - 16)) ≠ le32 (s.memRead 4 4) →
      exec .decc s = .next { s with err := 2#3, elog := s.elog ||| 0b00010#5 }) ∧
    (16 ≤ s.flen → 16 + 276 * (le32 (s.memRead 12 4)).toNat ≤ s.flen →
      checksum (s.memRead 16 (s.flen - 16)) = le32 (s.memRead 4 4) →
      exec .decc s = .next { s with
        hminor := some (s.frameByte 0), hmajor := some (s.frameByte 1), hmagic := some (le16 (s.memRead 2 2)),
        hcrc := some (le32 (s.memRead 4 4)), hpad := some (le32 (s.memRead 8 4)),
        hnblk := some (le32 (s.memRead 12 4)), ph := .opened, err := 0#3 })) ∧
  (∀ s : State, s.ph ≠ .idle → ∃ r, exec .decc s = .refused r)

/-- R118 with R107: `DECC` on the frame is `decodeContainer` on its bytes, error for error, and after it `LDBLK`
gives record by record the blocks that function returns. -/
def Obligations.DeccAndLdblkAreDecodeContainer : Prop :=
  ∀ s : State, s.ph = .idle →
    (∀ e, decodeContainer s.frameBytes = .error e → exec .decc s = .next (s.raise e)) ∧
    (∀ (h : FileHeader) (blocks : List BlockRecord), decodeContainer s.frameBytes = .ok (h, blocks) →
      blocks.length = h.numBlocks.toNat ∧
      ∃ t, exec .decc s = .next t ∧ t.ph = .opened ∧ t.err = 0#3 ∧ t.hminor = some h.minor ∧
        t.hmajor = some h.major ∧ t.hmagic = some h.magic ∧ t.hcrc = some h.crc32 ∧ t.hpad = some h.pad ∧
        t.hnblk = some h.numBlocks ∧
        ∀ (k : Dword) (b : BlockRecord), blocks[k.toNat]? = some b →
          ∃ u, exec .ldblk { t with arg0 := some k } = .next u ∧ u.bcrc = some b.crc32 ∧
            u.bidx = some b.index ∧ u.bunk = some b.unknown ∧ u.bpad = some b.pad ∧
            u.blockBytes = some b.cipherData)

/-- R113, the command `LDBLK`: the record's fields and its 260 bytes, the frame unchanged, where it is refused. The
record lies in the frame in every reachable state (`State.Inv.opened_valid`); here that is a hypothesis. -/
def Obligations.LdblkCommand : Prop :=
  encode .ldblk = 0x0000000A#32 ∧
  (∀ (s : State) (k : Dword) (n : Word), s.ph = .opened → s.arg0 = some k → s.hnblk = some n →
    k.toNat < n.toNat → 16 + 276 * (k.toNat + 1) ≤ s.flen →
    ∃ t, exec .ldblk s = .next t ∧
      (∀ i, i < 260 → t.blockByte i = some (s.frameByte (16 + 276 * k.toNat + 16 + i))) ∧
      t = { s with
        bcrc := some (le32 (s.memRead (16 + 276 * k.toNat) 4)),
        bidx := some (le32 (s.memRead (16 + 276 * k.toNat + 4) 4)),
        bunk := some (le32 (s.memRead (16 + 276 * k.toNat + 8) 4)),
        bpad := some (le32 (s.memRead (16 + 276 * k.toNat + 12) 4)),
        bdata := t.bdata, err := 0#3 }) ∧
  (∀ s : State, s.ph ≠ .opened ∨ s.arg0 = none ∨
      (∃ k n, s.arg0 = some k ∧ s.hnblk = some n ∧ n.toNat ≤ k.toNat) → ∃ r, exec .ldblk s = .refused r)

/-- R114, the command `CLOSE`. -/
def Obligations.CloseCommand : Prop :=
  encode .close = 0x0000000B#32 ∧
  (∀ s : State, s.ph = .opened → exec .close s = .next { s with ph := .idle, err := 0#3 }) ∧
  (∀ s : State, s.ph ≠ .opened → ∃ r, exec .close s = .refused r)

/-- R115, the command `BEGIN`: the frame is the sixteen placeholder bytes. -/
def Obligations.BeginCommand : Prop :=
  encode .begin = 0x0000000C#32 ∧
  (∀ s : State, s.ph = .idle →
    ∃ t, exec .begin s = .next t ∧ t.frameBytes = List.replicate 16 0x00#8 ∧
      t = { s with frame := t.frame, flen := 16, ecnt := 0#32, ph := .building, err := 0#3 }) ∧
  (∀ s : State, s.ph ≠ .idle → ∃ r, exec .begin s = .refused r)

/-- R116, the command `APPEND`: the record at `16 + 276*ECNT`, the old end of the frame; every earlier byte stays;
where it is refused. `FLEN = 16 + 276*ECNT` is the rule's own invariant while `PH = BUILD`. -/
def Obligations.AppendCommand : Prop :=
  encode .append = 0x0000000D#32 ∧
  (∀ (s : State) (crc index unknown pad : Word) (data : List Byte), s.ph = .building → s.bcrc = some crc →
    s.bidx = some index → s.bunk = some unknown → s.bpad = some pad → s.blockBytes = some data →
    s.ecnt.toNat ≠ 2 ^ 32 - 1 → 16 + 276 * (s.ecnt.toNat + 1) ≤ s.params.fcap →
    s.flen = 16 + 276 * s.ecnt.toNat →
    ∃ t, exec .append s = .next t ∧
      t.memRead (16 + 276 * s.ecnt.toNat) 276 =
        bytesLe32 crc ++ bytesLe32 index ++ bytesLe32 unknown ++ bytesLe32 pad ++ data ∧
      (∀ a, a < 16 + 276 * s.ecnt.toNat → t.frameByte a = s.frameByte a) ∧
      t.flen = 16 + 276 * t.ecnt.toNat ∧
      t = { s with frame := t.frame, flen := s.flen + 276, ecnt := s.ecnt + 1#32, err := 0#3 }) ∧
  (∀ s : State, s.ph ≠ .building ∨ s.bcrc = none ∨ s.bidx = none ∨ s.bunk = none ∨ s.bpad = none ∨
      (∃ i, i < 260 ∧ s.blockByte i = none) ∨ s.ecnt.toNat = 2 ^ 32 - 1 ∨
      s.params.fcap < 16 + 276 * (s.ecnt.toNat + 1) → ∃ r, exec .append s = .refused r)

/-- R117, the command `ENCC`: the header over the first 16 bytes, every other byte as it was, that "a `DECC` on it
succeeds" where `FLEN-16 = 276*ECNT`, as it is while building (R116), and where it is refused. The frame holds its header bytes in
every reachable state (`State.Inv.building_length`); here that is a hypothesis. -/
def Obligations.EnccCommand : Prop :=
  encode .encc = 0x0000000E#32 ∧
  (∀ (s : State) (minor major : Byte) (magic : Half) (pad : Word), s.ph = .building →
    s.hminor = some minor → s.hmajor = some major → s.hmagic = some magic → s.hpad = some pad →
    16 ≤ s.flen →
    ∃ t, exec .encc s = .next t ∧
      t.memRead 0 16 = [minor] ++ [major] ++ bytesLe16 magic ++ bytesLe32 (checksum (s.memRead 16 (s.flen - 16))) ++
        bytesLe32 pad ++ bytesLe32 s.ecnt ∧
      (∀ a, 16 ≤ a → t.frameByte a = s.frameByte a) ∧
      t = { s with
        frame := t.frame, hcrc := some (checksum (s.memRead 16 (s.flen - 16))), hnblk := some s.ecnt,
        ph := .idle, err := 0#3 } ∧
      (s.flen = 16 + 276 * s.ecnt.toNat → exec .decc t = .next { t with ph := .opened })) ∧
  (∀ s : State, s.ph ≠ .building ∨ s.hminor = none ∨ s.hmajor = none ∨ s.hmagic = none ∨ s.hpad = none →
    ∃ r, exec .encc s = .refused r)

/-- R119 with R108: the container `ENCC` leaves in the frame is `encodeContainer` of the header registers and the
records appended, and (R117) "a `DECC` on it succeeds", with the same header. -/
def Obligations.EnccWritesEncodeContainer : Prop :=
  ∀ (s : State) (minor major : Byte) (magic : Half) (pad : Word), s.Inv → s.ph = .building →
    s.hminor = some minor → s.hmajor = some major → s.hmagic = some magic → s.hpad = some pad →
    ∃ t u, exec .encc s = .next t ∧
      t.frameBytes = encodeContainer ⟨minor, major, magic, 0#32, pad, 0#32⟩
        ((List.range s.ecnt.toNat).map fun k => parseBlock (s.memRead (16 + 276 * k) 276)) ∧
      exec .decc t = .next u ∧ u = { t with ph := .opened }

/-- R118 and R119 with R72: the macro `ENCODE_ALL`, run in `IDLE` with room in the frame, leaves in it the container
`encodeContainer` makes of the blocks `encrypt` makes of the tuples, and `DECODE_ALL` on that frame then emits the
same tuples in the same order, fails at no block and leaves the frame and the error log alone. What the host has read
is then the tuples' bytes and words in order; that they are kept in `replies` is the model's choice (log 6), and
`goOn` is the host's choice at a failed block (log 14). -/
def Obligations.EncodeAllThenDecodeAllRestores : Prop :=
  ∀ (s : State) (key : List Byte) (minor major : Byte) (magic : Half) (hpad : Word) (tuples : List BlockTuple)
    (goOn : Nat → Bool), s.Inv → s.ph = .idle → s.keyBytes = some key → tuples.length < 2 ^ 32 →
    (∀ b ∈ tuples, b.payload.length = 256) → 16 + 276 * tuples.length ≤ s.params.fcap →
    ∃ t r, performAll (encodeAllMoves minor major magic hpad tuples) s = .next t ∧ t.ph = .idle ∧ t.err = 0#3 ∧
      t.frameBytes = encodeContainer ⟨minor, major, magic, 0#32, hpad, 0#32⟩
        (tuples.map fun b => encrypt key b.flashAddress b.payload b.index b.unknown b.pad) ∧
      decodeAll goOn t = .next r ∧ r.emitted = tuples ∧ r.failed = [] ∧ r.state.ph = .idle ∧
      r.state.frameBytes = t.frameBytes ∧ r.state.elog = s.elog ∧
      r.state.replies = (tuples.flatMap tupleReads).reverse ++ s.replies

/-! ### Key load and host moves -/

/-- R125, the command `LDKEY`: the 516 bytes of `KS`, or `InvalidKeyLength` and `DEAD`. -/
def Obligations.LdkeyCommand : Prop :=
  encode .ldkey = 0x00000001#32 ∧
  (∀ s : State, s.ph = .noKey →
    (s.params.ks.length = 516 →
      ∃ t, exec .ldkey s = .next t ∧ (∀ i, i < 516 → t.keyByte i = s.params.ks[i]?) ∧
        t.keyBytes = some s.params.ks ∧ t = { s with key := t.key, ph := .idle, err := 0#3 }) ∧
    (s.params.ks.length ≠ 516 →
      exec .ldkey s = .next { s with err := 5#3, elog := s.elog ||| 0b10000#5, ph := .dead })) ∧
  (∀ s : State, s.ph ≠ .noKey → ∃ r, exec .ldkey s = .refused r)

/-- R126: only `LDKEY` in `NOKEY` and `RESET` write `KEY`, `LDKEY` always leaves `NOKEY`, and only `RESET` leads
back to it. -/
def Obligations.KeyIsLoadedOnce : Prop :=
  (∀ s t : State, step s = .next t →
    t.key = s.key ∨ (∃ rest, s.inbox = .reset :: rest) ∨
      (s.ph = .noKey ∧ t.ph = .idle ∧
        ∃ v rest, s.inbox = .writeReg 0 v :: rest ∧ decode (v.setWidth 32) = .ok .ldkey)) ∧
  (∀ s t : State, exec .ldkey s = .next t → s.ph = .noKey ∧ t.ph ≠ .noKey) ∧
  (∀ s t : State, step s = .next t → s.ph ≠ .noKey →
    t.ph ≠ .noKey ∨ ∃ rest, s.inbox = .reset :: rest)

/-- R127 and R37: the reset move is allowed in every phase and leaves every element at its reset value. That it leaves
`inbox` and `replies` alone is the model's choice (logs 4, 6). -/
def Obligations.ResetMove : Prop :=
  ∀ s : State, ∃ t, perform .reset s = .next t ∧
    t.ph = .noKey ∧ t.err = 0#3 ∧ t.elog = 0b00000#5 ∧ t.ecnt = 0#32 ∧ t.flen = 0 ∧ t.frameBytes = [] ∧
    (∀ i, t.keyByte i = none) ∧ (∀ i, t.blockByte i = none) ∧
    t.hminor = none ∧ t.hmajor = none ∧ t.hmagic = none ∧ t.hpad = none ∧ t.hcrc = none ∧ t.hnblk = none ∧
    t.bcrc = none ∧ t.bidx = none ∧ t.bunk = none ∧ t.bpad = none ∧
    t.w = none ∧ t.crcr = none ∧ t.arg0 = none ∧ t.arg1 = none ∧
    t.status = 0x00000000#32 ∧ t.params = s.params ∧ t.inbox = s.inbox ∧ t.replies = s.replies

/-- R33 and R128, the writing side: each `RW` register takes the value truncated to its width, `HVER` sets its three
elements (R32), `RO` registers and numbers above 15 are refused. -/
def Obligations.RegisterWrites : Prop :=
  ∀ (s : State) (v : Dword),
    perform (.writeReg 1 v) s = .next { s with arg0 := some v } ∧
    perform (.writeReg 2 v) s = .next { s with arg1 := some v } ∧
    perform (.writeReg 4 v) s = .next { s with w := some (v.setWidth 32) } ∧
    perform (.writeReg 6 v) s = .next { s with
      hminor := some (v.extractLsb' 0 8), hmajor := some (v.extractLsb' 8 8),
      hmagic := some (v.extractLsb' 16 16) } ∧
    perform (.writeReg 8 v) s = .next { s with hpad := some (v.setWidth 32) } ∧
    perform (.writeReg 10 v) s = .next { s with bcrc := some (v.setWidth 32) } ∧
    perform (.writeReg 11 v) s = .next { s with bidx := some (v.setWidth 32) } ∧
    perform (.writeReg 12 v) s = .next { s with bunk := some (v.setWidth 32) } ∧
    perform (.writeReg 13 v) s = .next { s with bpad := some (v.setWidth 32) } ∧
    (∀ n, n ∈ [3, 5, 7, 9, 14, 15] ∨ 16 ≤ n → ∃ r, perform (.writeReg n v) s = .refused r)

/-- R33 and R128, the reading side: a register's value where it has one, refused where it is `undef`, `WO` or no
register. A length that does not fit 64 bits is left open (log 8). That the value read goes to `replies`,
zero-extended and newest first, is the model's choice (log 6). -/
def Obligations.RegisterReads : Prop :=
  ∀ s : State,
    (∀ n x, (n, x) ∈ [(4, s.w), (5, s.crcr), (7, s.hcrc), (8, s.hpad), (9, s.hnblk), (10, s.bcrc), (11, s.bidx),
        (12, s.bunk), (13, s.bpad)] →
      (x = none → ∃ r, perform (.readReg n) s = .refused r) ∧
      (∀ v, x = some v → perform (.readReg n) s = .next { s with replies := v.setWidth 64 :: s.replies })) ∧
    (∀ n x, (n, x) ∈ [(1, s.arg0), (2, s.arg1)] →
      (x = none → ∃ r, perform (.readReg n) s = .refused r) ∧
      (∀ v, x = some v → perform (.readReg n) s = .next { s with replies := v :: s.replies })) ∧
    (∀ minor major magic, s.hminor = some minor → s.hmajor = some major → s.hmagic = some magic →
      (versionWord minor major magic).extractLsb' 0 8 = minor ∧
      (versionWord minor major magic).extractLsb' 8 8 = major ∧
      (versionWord minor major magic).extractLsb' 16 16 = magic ∧
      perform (.readReg 6) s = .next { s with replies := (versionWord minor major magic).setWidth 64 :: s.replies }) ∧
    (s.hminor = none ∨ s.hmajor = none ∨ s.hmagic = none → ∃ r, perform (.readReg 6) s = .refused r) ∧
    perform (.readReg 3) s = .next { s with replies := s.status.setWidth 64 :: s.replies } ∧
    perform (.readReg 14) s = .next { s with replies := s.ecnt.setWidth 64 :: s.replies } ∧
    (s.flen < 2 ^ 64 →
      perform (.readReg 15) s = .next { s with replies := BitVec.ofNat 64 s.flen :: s.replies }) ∧
    (∀ n, n = 0 ∨ 16 ≤ n → ∃ r, perform (.readReg n) s = .refused r)

/-- R31: the fields of `STATUS`, its zero bits, that it can always be read, and its value after reset. That the value
read goes to `replies`, zero-extended and newest first, is the model's choice (log 6). -/
def Obligations.StatusView : Prop :=
  ∀ s : State,
    s.status.extractLsb' 0 3 = s.ph.code ∧ s.status.getLsbD 3 = false ∧ s.status.extractLsb' 4 3 = s.err ∧
    s.status.getLsbD 7 = false ∧ s.status.extractLsb' 8 5 = s.elog ∧ s.status.extractLsb' 13 19 = 0#19 ∧
    perform (.readReg 3) s = .next { s with replies := s.status.setWidth 64 :: s.replies } ∧
    s.afterReset.status = 0x00000000#32

/-- R129: the block-buffer moves, in every phase. That the byte read goes to `replies`, zero-extended and newest
first, is the model's choice (log 6). -/
def Obligations.BlockBufferMoves : Prop :=
  ∀ (s : State) (i : Nat),
    (∀ b, i < 260 → ∃ t, perform (.writeBlock i b) s = .next t ∧ t.blockByte i = some b ∧
      (∀ j, j ≠ i → t.blockByte j = s.blockByte j) ∧ t = { s with bdata := t.bdata }) ∧
    (∀ b, i < 260 → s.blockByte i = some b →
      perform (.readBlock i) s = .next { s with replies := b.setWidth 64 :: s.replies }) ∧
    (i < 260 → s.blockByte i = none → ∃ r, perform (.readBlock i) s = .refused r) ∧
    (260 ≤ i → (∃ r, perform (.readBlock i) s = .refused r) ∧
      ∀ b, ∃ r, perform (.writeBlock i b) s = .refused r)

/-- R130: the frame moves, where each is allowed, what it does, that it is refused elsewhere, and (in the states the
machine can reach) the placeholder zeros read while building. That the byte read goes to `replies`, zero-extended and
newest first, is the model's choice (log 6). -/
def Obligations.FrameMoves : Prop :=
  ∀ s : State,
    (∀ bytes, s.ph = .idle → bytes.length ≤ s.params.fcap →
      ∃ t, perform (.loadFrame bytes) s = .next t ∧ t.frameBytes = bytes ∧
        t = { s with frame := t.frame, flen := bytes.length }) ∧
    (∀ bytes, s.ph ≠ .idle ∨ s.params.fcap < bytes.length →
      ∃ r, perform (.loadFrame bytes) s = .refused r) ∧
    (∀ a b, s.ph = .idle → a < s.flen →
      ∃ t, perform (.writeFrame a b) s = .next t ∧ t.frameByte a = b ∧
        (∀ x, x ≠ a → t.frameByte x = s.frameByte x) ∧ t = { s with frame := t.frame }) ∧
    (∀ a b, s.ph ≠ .idle ∨ s.flen ≤ a → ∃ r, perform (.writeFrame a b) s = .refused r) ∧
    (∀ a, s.ph = .idle ∨ s.ph = .opened ∨ s.ph = .building → a < s.flen →
      perform (.readFrame a) s = .next { s with replies := (s.frameByte a).setWidth 64 :: s.replies }) ∧
    (∀ a, s.ph = .noKey ∨ s.ph = .dead ∨ s.flen ≤ a → ∃ r, perform (.readFrame a) s = .refused r) ∧
    (∀ a, s.Inv → s.ph = .building → a < 16 →
      perform (.readFrame a) s = .next { s with replies := 0#64 :: s.replies })

/-- R20, R147: "The host can neither read nor write" the key: every host move but a command and `RESET` goes the
same way whatever `KEY` and the key store hold, and leaves both alone. -/
def Obligations.HostCannotReachTheKey : Prop :=
  ∀ (s : State) (key : Memory) (ks : List Byte) (m : HostMove), m.isCommand = false → m ≠ .reset →
    perform m { s with key := key, params := { s.params with ks := ks } } =
      mapNext (fun t => { t with key := key, params := { t.params with ks := ks } }) (perform m s)

/-- R48: a host read changes nothing but what the host has read. The record of it, `replies`, is the model's choice
(log 6). -/
def Obligations.HostReadsChangeNothing : Prop :=
  ∀ (s t : State) (m : HostMove), m.isRead = true → perform m s = .next t →
    ∃ v, t = { s with replies := v :: s.replies }

/-! ### Errors, phases, whole-machine rules -/

/-- R132 and R139: a command that ends in an error raises one of its own errors of the table, and nothing else of
the state before it changes. -/
def Obligations.ErrorEntryIsPrecise : Prop :=
  ∀ (i : Instr) (s t : State), exec i s = .next t → t.err ≠ 0#3 →
    ∃ c, (i, c) ∈ errorTable ∧
      t = { s with
        err := BitVec.ofNat 3 c, elog := s.elog ||| (1#5 <<< (c - 1)),
        ph := if c = 5 then .dead else s.ph }

/-- R18, R19: every accepted command overwrites `ERR`; an ok one leaves `ELOG` alone and an error sets its bit; no
step but `RESET` clears a bit of it; no other host move writes either; both are 0 after reset and read-only. -/
def Obligations.ErrorLogIsSticky : Prop :=
  (∀ (i : Instr) (s t : State), exec i s = .next t →
    (t.err = 0#3 ∧ t.elog = s.elog) ∨
    (1 ≤ t.err.toNat ∧ t.err.toNat ≤ 5 ∧ t.elog = s.elog ||| (1#5 <<< (t.err.toNat - 1)))) ∧
  (∀ (m : HostMove) (s t : State), m.isCommand = false → m ≠ .reset → perform m s = .next t →
    t.err = s.err ∧ t.elog = s.elog) ∧
  (∀ s t : State, step s = .next t →
    (∃ rest, s.inbox = .reset :: rest) ∨ ∀ b, s.elog.getLsbD b = true → t.elog.getLsbD b = true) ∧
  (∀ s : State, ∃ t, perform .reset s = .next t ∧ t.err = 0#3 ∧ t.elog = 0b00000#5) ∧
  (∀ (s : State) (v : Dword), ∃ r, perform (.writeReg 3 v) s = .refused r)

/-- R124: which phase accepts which command, where each accepted command leaves `PH`, and that no other move but
`RESET` changes it. That a command in a wrong phase is refused under that name, whatever else it would be refused for,
is the model's choice (log 9). -/
def Obligations.PhaseTable : Prop :=
  (∀ (i : Instr) (s : State), exec i s = .refused (.wrongPhase s.ph) ↔ (i, s.ph) ∉ commandTable) ∧
  (∀ (i : Instr) (s t : State), exec i s = .next t →
    (i, s.ph) ∈ commandTable ∧
    t.ph = match i with
      | .ldkey => if t.err = 0#3 then .idle else .dead
      | .decc => if t.err = 0#3 then .opened else .idle
      | .close => .idle
      | .begin => .building
      | .encc => .idle
      | .crc => s.ph
      | .swz => s.ph
      | .uswz => s.ph
      | .swzb => s.ph
      | .uswzb => s.ph
      | .dec => s.ph
      | .enc => s.ph
      | .ldblk => s.ph
      | .append => s.ph) ∧
  (∀ (m : HostMove) (s t : State), perform m s = .next t →
    (m = .reset ∧ t.ph = .noKey) ∨ m.isCommand = true ∨ t.ph = s.ph)

/-- R123: while a container is open no step but `RESET` changes the frame; while one is built, no byte already there
changes but the 16 header bytes, and those only when the building ends; and what changes the frame then is `APPEND`,
beyond the old end, or `ENCC`, inside the 16 header bytes. -/
def Obligations.ContainersAreImmutable : Prop :=
  ∀ s t : State, step s = .next t →
    (∃ rest, s.inbox = .reset :: rest) ∨
    ((s.ph = .opened → t.flen = s.flen ∧ ∀ a, t.frameByte a = s.frameByte a) ∧
     (s.ph = .building → s.flen ≤ t.flen ∧
        (∀ a, 16 ≤ a → a < s.flen → t.frameByte a = s.frameByte a) ∧
        (t.ph = .building → ∀ a, a < s.flen → t.frameByte a = s.frameByte a) ∧
        ((t.flen ≠ s.flen ∨ ∃ a, t.frameByte a ≠ s.frameByte a) →
          ∃ v rest, s.inbox = .writeReg 0 v :: rest ∧
            ((decode (v.setWidth 32) = .ok .append ∧ ∀ a, a < s.flen → t.frameByte a = s.frameByte a) ∨
             (decode (v.setWidth 32) = .ok .encc ∧ t.flen = s.flen ∧
               ∀ a, 16 ≤ a → t.frameByte a = s.frameByte a)))))

/-- R7, R127: `KS` and `FCAP` are "fixed for a whole run": no step changes them, `RESET` included. -/
def Obligations.ParametersNeverChange : Prop :=
  ∀ s t : State, step s = .next t → t.params = s.params

/-! ### Invariants -/

/-- The invariant holds at reset, for every key store and every capacity R7 allows. -/
def Obligations.ResetMeetsTheInvariant : Prop :=
  (∀ p : Params, 16 ≤ p.fcap → (State.resetWith p).Inv) ∧ State.reset.Inv

/-- Every step keeps the invariant: the canonical byte spaces, the key exactly in the phases that have one, the frame
of a container being built and of an open container, the status codes. The canonical form is the model's choice (log
10). -/
def Obligations.StepKeepsTheInvariant : Prop :=
  ∀ s t : State, s.Inv → step s = .next t → t.Inv

/-- The canonical form and the sizes of the byte spaces are, together with "`FLEN = 16 + 276*ECNT`" while building
(R116), an invariant of their own. The canonical form is the model's choice (log 10). -/
def Obligations.StepKeepsTheByteSpaces : Prop :=
  ∀ s t : State, s.SpacesOk → (s.ph = .building → s.flen = recordAddress s.ecnt.toNat) →
    step s = .next t → t.SpacesOk ∧ (t.ph = .building → t.flen = recordAddress t.ecnt.toNat)
end

