-- ==== Sys2Proof/Laws/Memory.lean ====
section
/-! SUPPORT. What the byte spaces' operations do: reading after writing, and the canonical form, which every one of
them keeps. -/
namespace Sys2Proof.Machine

/-! ### One byte -/

@[simp] theorem Memory.lookup_nil (a : Nat) : Memory.lookup [] a = none := rfl

theorem Memory.lookup_cons (k : Nat) (b : Byte) (m : Memory) (a : Nat) :
    Memory.lookup ((k, b) :: m) a = if k = a then some b else Memory.lookup m a := rfl

theorem Memory.lookup_insert (m : Memory) (a : Nat) (v : Byte) (x : Nat) :
    Memory.lookup (Memory.insert m a v) x = if x = a then some v else Memory.lookup m x := by
  induction m with
  | nil => simp [Memory.insert, Memory.lookup, eq_comm]
  | cons c rest ih =>
    obtain ⟨k, b⟩ := c
    simp only [Memory.insert]
    split
    · simp [Memory.lookup_cons, eq_comm]
    · split
      · subst_vars
        simp only [Memory.lookup_cons]
        by_cases h : x = k
        · simp [h]
        · simp [h, Ne.symm h]
      · simp only [Memory.lookup_cons, ih]
        split <;> split <;> simp_all

theorem Memory.lookup_erase (m : Memory) (a x : Nat) :
    Memory.lookup (Memory.erase m a) x = if x = a then none else Memory.lookup m x := by
  induction m with
  | nil => simp [Memory.erase]
  | cons c rest ih =>
    obtain ⟨k, b⟩ := c
    simp only [Memory.erase, List.filter_cons] at ih ⊢
    by_cases hk : k = a
    · subst hk
      simp only [bne_self_eq_false, Bool.false_eq_true, if_false, ih, Memory.lookup_cons]
      split <;> simp_all [eq_comm]
    · simp only [bne_iff_ne, ne_eq, hk, not_false_eq_true, if_true, Memory.lookup_cons, ih]
      split <;> simp_all

/-- A write is seen at its address and nowhere else (R48), in every space and every memory. -/
@[simp] theorem Memory.get_put (sp : Space) (m : Memory) (a : Nat) (b : Byte) (x : Nat) :
    Memory.get sp (Memory.put sp m a b) x = if x = a then some b else Memory.get sp m x := by
  unfold Memory.put
  split
  · simp only [Memory.get, Memory.lookup_erase]
    by_cases h : x = a <;> simp_all
  · simp only [Memory.get, Memory.lookup_insert]
    by_cases h : x = a <;> simp_all

@[simp] theorem Memory.get_nil (sp : Space) (a : Nat) : Memory.get sp [] a = unlisted sp := rfl

/-! ### Byte sequences -/

theorem Memory.get_putBytes (sp : Space) (bs : List Byte) (m : Memory) (a x : Nat) :
    Memory.get sp (Memory.putBytes sp m a bs) x =
      if a ≤ x ∧ x < a + bs.length then bs[x - a]? else Memory.get sp m x := by
  induction bs generalizing m a with
  | nil => simp [Memory.putBytes]
  | cons b rest ih =>
    simp only [Memory.putBytes, ih, Memory.get_put, List.length_cons]
    by_cases h : x = a
    · subst h
      simp
    · by_cases h' : a ≤ x
      · have : x - a = (x - (a + 1)) + 1 := by omega
        simp only [h, if_false, this, List.getElem?_cons_succ]
        congr 1
        simp only [eq_iff_iff]
        omega
      · simp [h, h']
        omega

theorem Memory.get_ofBytes (sp : Space) (bs : List Byte) (a x : Nat) :
    Memory.get sp (Memory.ofBytes sp a bs) x =
      if a ≤ x ∧ x < a + bs.length then bs[x - a]? else unlisted sp := by
  induction bs generalizing a with
  | nil => simp [Memory.ofBytes]
  | cons b rest ih =>
    simp only [Memory.ofBytes, List.length_cons]
    have step : ∀ x, a < x → x - a = (x - (a + 1)) + 1 := by omega
    split
    · rw [ih]
      by_cases h : x = a
      · subst h; simp_all
      · by_cases h' : a ≤ x
        · rw [step x (by omega), List.getElem?_cons_succ]
          congr 1
          simp only [eq_iff_iff]
          omega
        · simp [h']; omega
    · by_cases h : x = a
      · subst h; simp [Memory.get, Memory.lookup_cons]
      · have : Memory.get sp ((a, b) :: Memory.ofBytes sp (a + 1) rest) x =
            Memory.get sp (Memory.ofBytes sp (a + 1) rest) x := by
          simp [Memory.get, Memory.lookup_cons, Ne.symm h]
        rw [this, ih]
        by_cases h' : a ≤ x
        · rw [step x (by omega), List.getElem?_cons_succ]
          congr 1
          simp only [eq_iff_iff]
          omega
        · simp [h']; omega

/-- What `collect` answers, said once: the bytes read, none of them `undef`. -/
theorem Memory.collect_eq_some_iff (sp : Space) (m : Memory) (a n : Nat) (l : List Byte) :
    Memory.collect sp m a n = some l ↔ l.length = n ∧ ∀ i, i < n → Memory.get sp m (a + i) = l[i]? := by
  induction n generalizing a l with
  | zero =>
    simp only [Memory.collect, Option.some.injEq]
    constructor
    · rintro rfl; simp
    · rintro ⟨h, -⟩; exact (List.eq_nil_of_length_eq_zero h).symm
  | succ n ih =>
    simp only [Memory.collect]
    constructor
    · intro h
      split at h
      · rename_i b rest hb hr
        cases h
        obtain ⟨hl, hg⟩ := (ih (a + 1) rest).1 hr
        refine ⟨by simp [hl], fun i hi => ?_⟩
        cases i with
        | zero => simpa using hb
        | succ j =>
          have := hg j (by omega)
          rw [List.getElem?_cons_succ, ← this]
          congr 1
          omega
      · cases h
    · rintro ⟨hl, hg⟩
      cases l with
      | nil => simp at hl
      | cons b rest =>
        have hb : Memory.get sp m a = some b := by simpa using hg 0 (by omega)
        have hr : Memory.collect sp m (a + 1) n = some rest := by
          refine (ih (a + 1) rest).2 ⟨by simpa using hl, fun i hi => ?_⟩
          have := hg (i + 1) (by omega)
          rw [List.getElem?_cons_succ] at this
          rw [← this]
          congr 1
          omega
        simp [hb, hr]

theorem Memory.collect_length {sp : Space} {m : Memory} {a n : Nat} {l : List Byte}
    (h : Memory.collect sp m a n = some l) : l.length = n :=
  ((Memory.collect_eq_some_iff sp m a n l).1 h).1

/-- A space filled with a byte sequence gives it back. -/
@[simp] theorem Memory.collect_ofBytes (sp : Space) (bs : List Byte) (n : Nat) (h : bs.length = n) :
    Memory.collect sp (Memory.ofBytes sp 0 bs) 0 n = some bs := by
  refine (Memory.collect_eq_some_iff ..).2 ⟨h, fun i hi => ?_⟩
  rw [Memory.get_ofBytes, if_pos (by omega)]
  simp

/-! ### The canonical form -/

theorem Memory.rising_iff (m : Memory) :
    Memory.rising m = true ↔ m.Pairwise fun c d => c.1 < d.1 := by
  induction m with
  | nil => simp [Memory.rising]
  | cons c rest ih =>
    obtain ⟨k, b⟩ := c
    simp [Memory.rising, ih]

theorem Memory.wf_iff (sp : Space) (m : Memory) :
    Memory.wf sp m = true ↔
      (m.Pairwise fun c d => c.1 < d.1) ∧ ∀ c ∈ m, unlisted sp ≠ some c.2 := by
  simp [Memory.wf, Memory.rising_iff]

theorem Memory.below_iff (m : Memory) (n : Nat) :
    Memory.below m n = true ↔ ∀ c ∈ m, c.1 < n := by
  simp [Memory.below]

theorem Memory.mem_insert {m : Memory} {a : Nat} {v : Byte} {c : Host.Cell}
    (h : c ∈ Memory.insert m a v) : c = (a, v) ∨ c ∈ m := by
  induction m with
  | nil => simpa [Memory.insert] using h
  | cons d rest ih =>
    obtain ⟨k, b⟩ := d
    simp only [Memory.insert] at h
    split at h
    · simpa using h
    · split at h
      · rcases List.mem_cons.1 h with h | h
        · exact .inl h
        · exact .inr (List.mem_cons_of_mem _ h)
      · rcases List.mem_cons.1 h with h | h
        · exact .inr (h ▸ List.mem_cons_self)
        · exact (ih h).imp id (List.mem_cons_of_mem _)

theorem Memory.insert_pairwise {m : Memory} {a : Nat} {v : Byte}
    (h : m.Pairwise fun c d => c.1 < d.1) :
    (Memory.insert m a v).Pairwise fun c d => c.1 < d.1 := by
  induction m with
  | nil => simp [Memory.insert]
  | cons c rest ih =>
    obtain ⟨k, b⟩ := c
    obtain ⟨hk, hr⟩ := List.pairwise_cons.1 h
    simp only [Memory.insert]
    split
    · rename_i hlt
      refine List.pairwise_cons.2 ⟨fun d hd => ?_, h⟩
      rcases List.mem_cons.1 hd with rfl | hd
      · exact hlt
      · exact Nat.lt_trans hlt (hk d hd)
    · split
      · subst_vars
        exact List.pairwise_cons.2 ⟨hk, hr⟩
      · refine List.pairwise_cons.2 ⟨fun d hd => ?_, ih hr⟩
        rcases Memory.mem_insert hd with rfl | hd
        · simp; omega
        · exact hk d hd

/-- A write keeps the canonical form. -/
theorem Memory.wf_put {sp : Space} {m : Memory} (a : Nat) (b : Byte) (h : Memory.wf sp m = true) :
    Memory.wf sp (Memory.put sp m a b) = true := by
  rw [Memory.wf_iff] at h ⊢
  unfold Memory.put
  split
  · exact ⟨h.1.sublist List.filter_sublist, fun c hc => h.2 c (List.mem_filter.1 hc).1⟩
  · rename_i hb
    refine ⟨Memory.insert_pairwise h.1, fun c hc => ?_⟩
    rcases Memory.mem_insert hc with rfl | hc
    · exact hb
    · exact h.2 c hc

theorem Memory.below_put {sp : Space} {m : Memory} {a n : Nat} {b : Byte} (ha : a < n)
    (h : Memory.below m n = true) : Memory.below (Memory.put sp m a b) n = true := by
  rw [Memory.below_iff] at h ⊢
  intro c hc
  unfold Memory.put at hc
  split at hc
  · exact h c (List.mem_filter.1 hc).1
  · rcases Memory.mem_insert hc with rfl | hc
    · exact ha
    · exact h c hc

theorem Memory.below_mono {m : Memory} {n k : Nat} (hnk : n ≤ k) (h : Memory.below m n = true) :
    Memory.below m k = true := by
  rw [Memory.below_iff] at h ⊢
  exact fun c hc => Nat.lt_of_lt_of_le (h c hc) hnk

/-- Writing a byte sequence keeps the canonical form. -/
theorem Memory.wf_putBytes {sp : Space} (bs : List Byte) {m : Memory} (a : Nat) (h : Memory.wf sp m = true) :
    Memory.wf sp (Memory.putBytes sp m a bs) = true := by
  induction bs generalizing m a with
  | nil => exact h
  | cons b rest ih => exact ih _ (Memory.wf_put a b h)

theorem Memory.below_putBytes {sp : Space} (bs : List Byte) {m : Memory} {a n : Nat}
    (ha : a + bs.length ≤ n) (h : Memory.below m n = true) :
    Memory.below (Memory.putBytes sp m a bs) n = true := by
  induction bs generalizing m a with
  | nil => exact h
  | cons b rest ih =>
    simp only [List.length_cons] at ha
    exact ih (by omega) (Memory.below_put (by omega) h)

theorem Memory.mem_ofBytes {sp : Space} {bs : List Byte} {a : Nat} {c : Host.Cell}
    (h : c ∈ Memory.ofBytes sp a bs) : a ≤ c.1 ∧ c.1 < a + bs.length ∧ unlisted sp ≠ some c.2 := by
  induction bs generalizing a with
  | nil => simp [Memory.ofBytes] at h
  | cons b rest ih =>
    simp only [Memory.ofBytes] at h
    simp only [List.length_cons]
    split at h
    · obtain ⟨h1, h2, h3⟩ := ih h
      exact ⟨by omega, by omega, h3⟩
    · rename_i hb
      rcases List.mem_cons.1 h with rfl | h
      · exact ⟨Nat.le_refl _, by simp, hb⟩
      · obtain ⟨h1, h2, h3⟩ := ih h
        exact ⟨by omega, by omega, h3⟩

/-- A space filled with a byte sequence is in canonical form. -/
theorem Memory.wf_ofBytes (sp : Space) (bs : List Byte) (a : Nat) :
    Memory.wf sp (Memory.ofBytes sp a bs) = true := by
  refine (Memory.wf_iff ..).2 ⟨?_, fun c hc => (Memory.mem_ofBytes hc).2.2⟩
  induction bs generalizing a with
  | nil => simp [Memory.ofBytes]
  | cons b rest ih =>
    simp only [Memory.ofBytes]
    split
    · exact ih (a + 1)
    · refine List.pairwise_cons.2 ⟨fun d hd => ?_, ih (a + 1)⟩
      have := (Memory.mem_ofBytes hd).1
      simp only
      omega

theorem Memory.below_ofBytes {sp : Space} {bs : List Byte} {a n : Nat} (h : a + bs.length ≤ n) :
    Memory.below (Memory.ofBytes sp a bs) n = true := by
  rw [Memory.below_iff]
  intro c hc
  have := (Memory.mem_ofBytes hc).2.1
  omega

@[simp] theorem Memory.wf_nil (sp : Space) : Memory.wf sp [] = true := rfl

@[simp] theorem Memory.below_nil (n : Nat) : Memory.below [] n = true := rfl

theorem Memory.lookup_mem {m : Memory} {a : Nat} {b : Byte} (h : Memory.lookup m a = some b) : (a, b) ∈ m := by
  induction m with
  | nil => cases h
  | cons c rest ih =>
    obtain ⟨k, v⟩ := c
    rw [Memory.lookup_cons] at h
    split at h
    · cases h; subst_vars; exact List.mem_cons_self
    · exact List.mem_cons_of_mem _ (ih h)

theorem Memory.lookup_none_of_lt {m : Memory} {a : Nat} (h : ∀ c ∈ m, a < c.1) : Memory.lookup m a = none := by
  rcases hl : Memory.lookup m a with _ | b
  · rfl
  · exact absurd (h _ (Memory.lookup_mem hl)) (Nat.lt_irrefl _)

theorem Memory.eq_of_lookup {m m' : Memory} (h : m.Pairwise fun c d => c.1 < d.1)
    (h' : m'.Pairwise fun c d => c.1 < d.1) (hl : ∀ a, Memory.lookup m a = Memory.lookup m' a) : m = m' := by
  induction m generalizing m' with
  | nil =>
    cases m' with
    | nil => rfl
    | cons c rest => have := hl c.1; simp [Memory.lookup] at this
  | cons c rest ih =>
    obtain ⟨k, b⟩ := c
    obtain ⟨hk, hr⟩ := List.pairwise_cons.1 h
    cases m' with
    | nil => have := hl k; simp [Memory.lookup] at this
    | cons c' rest' =>
      obtain ⟨k', b'⟩ := c'
      obtain ⟨hk', hr'⟩ := List.pairwise_cons.1 h'
      have hkk : k = k' := by
        rcases Nat.lt_trichotomy k k' with hlt | heq | hlt
        · have := hl k
          rw [Memory.lookup_none_of_lt (m := (k', b') :: rest')
            (fun d hd => by
              rcases List.mem_cons.1 hd with rfl | hd
              · exact hlt
              · exact Nat.lt_trans hlt (hk' d hd))] at this
          simp [Memory.lookup] at this
        · exact heq
        · have := hl k'
          rw [Memory.lookup_none_of_lt (m := (k, b) :: rest)
            (fun d hd => by
              rcases List.mem_cons.1 hd with rfl | hd
              · exact hlt
              · exact Nat.lt_trans hlt (hk d hd))] at this
          simp [Memory.lookup] at this
      subst hkk
      have hb : b = b' := by simpa [Memory.lookup] using hl k
      subst hb
      refine congrArg _ (ih hr hr' fun a => ?_)
      by_cases ha : k = a
      · subst ha
        rw [Memory.lookup_none_of_lt hk, Memory.lookup_none_of_lt hk']
      · have := hl a
        rwa [Memory.lookup_cons, Memory.lookup_cons, if_neg ha, if_neg ha] at this

/-- Two memories in canonical form that read alike are the same data. -/
theorem Memory.eq_of_get {sp : Space} {m m' : Memory} (h : Memory.wf sp m = true) (h' : Memory.wf sp m' = true)
    (hg : ∀ a, Memory.get sp m a = Memory.get sp m' a) : m = m' := by
  rw [Memory.wf_iff] at h h'
  refine Memory.eq_of_lookup h.1 h'.1 fun a => ?_
  have ha := hg a
  unfold Memory.get at ha
  rcases hl : Memory.lookup m a with _ | b <;> rcases hl' : Memory.lookup m' a with _ | b' <;>
    rw [hl, hl'] at ha
  · exact absurd ha (h'.2 _ (Memory.lookup_mem hl'))
  · exact absurd ha.symm (h.2 _ (Memory.lookup_mem hl))
  · exact ha

/-! ### The frame -/

theorem Memory.get_frame (m : Memory) (a : Nat) : ∃ b, Memory.get .frame m a = some b := by
  unfold Memory.get
  split
  · exact ⟨_, rfl⟩
  · exact ⟨_, rfl⟩

theorem State.get_frame_eq (s : State) (a : Nat) : Memory.get .frame s.frame a = some (s.frameByte a) := by
  obtain ⟨b, hb⟩ := Memory.get_frame s.frame a
  simp [State.frameByte, hb]

@[simp] theorem State.memRead_length (s : State) (a n : Nat) : (s.memRead a n).length = n := by
  simp [State.memRead]

@[simp] theorem State.memRead_zero (s : State) (a : Nat) : s.memRead a 0 = [] := rfl

@[simp] theorem State.memRead_getElem (s : State) (a n i : Nat) (h : i < (s.memRead a n).length) :
    (s.memRead a n)[i] = s.frameByte (a + i) := by
  simp [State.memRead]

@[simp] theorem State.memRead_getElem? (s : State) (a n i : Nat) :
    (s.memRead a n)[i]? = if i < n then some (s.frameByte (a + i)) else none := by
  by_cases h : i < n
  · simp [State.memRead, h]
  · simp [State.memRead, h]

/-- Two range reads agree when the bytes do. -/
theorem State.memRead_congr {s t : State} {a b n : Nat}
    (h : ∀ i, i < n → s.frameByte (a + i) = t.frameByte (b + i)) : s.memRead a n = t.memRead b n := by
  refine List.ext_getElem? fun i => ?_
  by_cases hi : i < n <;> simp [hi, h]

/-- Part of a range read is a range read. -/
theorem State.slice_memRead (s : State) (a n i k : Nat) (h : i + k ≤ n) :
    slice (s.memRead a n) i k = s.memRead (a + i) k := by
  refine List.ext_getElem? fun j => ?_
  by_cases hj : j < k
  · have h1 : i + j < n := by omega
    simp [slice, hj, h1, Nat.add_assoc]
  · simp [slice, hj]

theorem State.drop_memRead (s : State) (a n i : Nat) : (s.memRead a n).drop i = s.memRead (a + i) (n - i) := by
  refine List.ext_getElem? fun j => ?_
  by_cases hj : j < n - i
  · have h1 : i + j < n := by omega
    simp [hj, Nat.add_assoc]
  · simp [hj]

/-- A write to the frame, read back byte by byte. -/
theorem State.frameByte_memWrite (s : State) (a : Nat) (bs : List Byte) (x : Nat) :
    (s.memWrite a bs).frameByte x =
      if a ≤ x ∧ x < a + bs.length then bs.getD (x - a) 0#8 else s.frameByte x := by
  simp only [State.memWrite, State.frameByte, Memory.get_putBytes]
  split <;> simp [List.getD]

theorem State.frameByte_setFrame (s : State) (bs : List Byte) (x : Nat) :
    (s.setFrame bs).frameByte x = bs.getD x 0#8 := by
  simp only [State.setFrame, State.frameByte, Memory.get_ofBytes, List.getD]
  by_cases h : x < bs.length
  · simp [h]
  · simp [h, unlisted]

theorem State.frameByte_growFrame (s : State) (bs : List Byte) (x : Nat) :
    (s.growFrame bs).frameByte x =
      if s.flen ≤ x ∧ x < s.flen + bs.length then bs.getD (x - s.flen) 0#8 else s.frameByte x := by
  simp only [State.growFrame, State.frameByte, Memory.get_putBytes]
  split <;> simp [List.getD]

/-- A range written is read back. -/
theorem State.memRead_memWrite (s : State) (a : Nat) (bs : List Byte) :
    (s.memWrite a bs).memRead a bs.length = bs := by
  refine List.ext_getElem? fun i => ?_
  by_cases h : i < bs.length
  · simp [h, State.frameByte_memWrite, List.getD]
  · simp [h]

/-- A frame loaded is read back. -/
theorem State.memRead_setFrame (s : State) (bs : List Byte) :
    (s.setFrame bs).memRead 0 bs.length = bs := by
  refine List.ext_getElem? fun i => ?_
  by_cases h : i < bs.length
  · simp [h, State.frameByte_setFrame, List.getD]
  · simp [h]

/-- A read outside a written range is not affected by the write. -/
theorem State.memRead_memWrite_of_disjoint (s : State) (a : Nat) (bs : List Byte) (b n : Nat)
    (h : b + n ≤ a ∨ a + bs.length ≤ b) : (s.memWrite a bs).memRead b n = s.memRead b n := by
  refine State.memRead_congr fun i hi => ?_
  rw [State.frameByte_memWrite, if_neg (by omega)]

/-- A byte beyond every listed address reads as an unlisted one. -/
theorem Memory.get_of_below {sp : Space} {m : Memory} {n a : Nat} (h : Memory.below m n = true) (ha : n ≤ a) :
    Memory.get sp m a = unlisted sp := by
  rw [Memory.below_iff] at h
  unfold Memory.get
  rcases hl : Memory.lookup m a with _ | b
  · rfl
  · have := h _ (Memory.lookup_mem hl)
    simp only at this
    omega

end Sys2Proof.Machine
end

