-- ==== Sys2Proof/Laws/Formats.lean ====
section
/-! SUPPORT. What the byte-sequence operations and the record formats do: parts of sequences, bytes of values, lengths. -/
namespace Sys2Proof.Machine

/-! ### Parts of a sequence -/

theorem slice_length (s : List Byte) (a n : Nat) (h : a + n ≤ s.length) : (slice s a n).length = n := by
  simp [slice]; omega

theorem slice_whole (s : List Byte) (n : Nat) (h : s.length = n) : slice s 0 n = s := by
  simp [slice, h]

/-- A part is the part before a point and the part after it. -/
theorem slice_add (s : List Byte) (a n m : Nat) : slice s a (n + m) = slice s a n ++ slice s (a + n) m := by
  simp only [slice, List.take_add, List.drop_drop]

theorem slice_append_left (a b : List Byte) (n : Nat) (h : a.length = n) : slice (a ++ b) 0 n = a := by
  subst h; simp [slice]

theorem slice_append_right (a b : List Byte) (k i n : Nat) (h : a.length = k) :
    slice (a ++ b) (k + i) n = slice b i n := by
  subst h
  simp only [slice, List.drop_append]
  rw [List.drop_eq_nil_of_le (by omega), List.nil_append]
  congr 2
  omega

/-- Part of what `collect` answers is what `collect` answers for the part. -/
theorem Memory.collect_slice {sp : Space} {m : Memory} {a i k n : Nat} {l : List Byte}
    (h : Memory.collect sp m a n = some l) (hk : i + k ≤ n) :
    Memory.collect sp m (a + i) k = some (slice l i k) := by
  rw [Memory.collect_eq_some_iff] at h ⊢
  refine ⟨slice_length _ _ _ (by omega), fun j hj => ?_⟩
  rw [Nat.add_assoc, h.2 _ (by omega)]
  simp [slice, hj]

/-! ### Bytes of a value -/

/-- Byte `j` of a value as a number (R8). -/
theorem byteOf_toNat {n : Nat} (v : BitVec n) (j : Nat) : (byteOf v j).toNat = v.toNat / 2 ^ (8 * j) % 256 := by
  simp [byteOf, BitVec.extractLsb'_toNat, Nat.shiftRight_eq_div_pow]

/-- Bit `i` of byte `j` is bit `8j + i` (R8). -/
theorem byteOf_getLsbD (w : Word) (j i : Nat) :
    (byteOf w j).getLsbD i = (decide (i < 8) && w.getLsbD (8 * j + i)) := by
  simp [byteOf]

@[simp] theorem bytesLe16_length (v : Half) : (bytesLe16 v).length = 2 := rfl

@[simp] theorem bytesLe32_length (v : Word) : (bytesLe32 v).length = 4 := rfl

/-! ### Records -/

@[simp] theorem serHeader_length (h : FileHeader) : (serHeader h).length = 16 := rfl

theorem serBlock_length (b : BlockRecord) : (serBlock b).length = 16 + b.cipherData.length := by
  simp [serBlock]; omega

theorem asmPlain_length (fa : Word) (p : List Byte) : (asmPlain fa p).length = 4 + p.length := by
  simp [asmPlain]

/-- The records lie one after another (R49). -/
theorem recordAddress_succ (k : Nat) : recordAddress (k + 1) = recordAddress k + 276 := by
  simp only [recordAddress]
  rw [Nat.mul_add, Nat.mul_one, ← Nat.add_assoc]

/-- Every record before the `n`-th ends at or before the end of the `n`-th (R49). -/
theorem recordAddress_succ_le {k n : Nat} (h : k < n) : recordAddress (k + 1) ≤ recordAddress n := by
  simp only [recordAddress, Config.headerLength, Config.blockLength]; omega

theorem blockCountWord_of_lt {n : Nat} (h : n < 2 ^ 32) : blockCountWord n = BitVec.ofNat 32 n := if_pos h

/-- A count that came from a `u32` is that `u32`. -/
@[simp] theorem blockCountWord_toNat (w : Word) : blockCountWord w.toNat = w := by
  rw [blockCountWord_of_lt w.isLt, BitVec.ofNat_toNat, BitVec.setWidth_eq]

end Sys2Proof.Machine
end

