-- ==== Sys2Proof/Laws/State.lean ====
section
/-! SUPPORT. One lemma per field per shared update of the state, so that no later proof unfolds an update. -/
namespace Sys2Proof.Machine

/-! ### `State.setBdata` -/

@[simp] theorem State.setBdata_params (s : State) (bs : List Byte) : (s.setBdata bs).params = s.params := rfl
@[simp] theorem State.setBdata_ph (s : State) (bs : List Byte) : (s.setBdata bs).ph = s.ph := rfl
@[simp] theorem State.setBdata_err (s : State) (bs : List Byte) : (s.setBdata bs).err = s.err := rfl
@[simp] theorem State.setBdata_elog (s : State) (bs : List Byte) : (s.setBdata bs).elog = s.elog := rfl
@[simp] theorem State.setBdata_key (s : State) (bs : List Byte) : (s.setBdata bs).key = s.key := rfl
@[simp] theorem State.setBdata_frame (s : State) (bs : List Byte) : (s.setBdata bs).frame = s.frame := rfl
@[simp] theorem State.setBdata_flen (s : State) (bs : List Byte) : (s.setBdata bs).flen = s.flen := rfl
@[simp] theorem State.setBdata_hminor (s : State) (bs : List Byte) : (s.setBdata bs).hminor = s.hminor := rfl
@[simp] theorem State.setBdata_hmajor (s : State) (bs : List Byte) : (s.setBdata bs).hmajor = s.hmajor := rfl
@[simp] theorem State.setBdata_hmagic (s : State) (bs : List Byte) : (s.setBdata bs).hmagic = s.hmagic := rfl
@[simp] theorem State.setBdata_hpad (s : State) (bs : List Byte) : (s.setBdata bs).hpad = s.hpad := rfl
@[simp] theorem State.setBdata_hcrc (s : State) (bs : List Byte) : (s.setBdata bs).hcrc = s.hcrc := rfl
@[simp] theorem State.setBdata_hnblk (s : State) (bs : List Byte) : (s.setBdata bs).hnblk = s.hnblk := rfl
@[simp] theorem State.setBdata_bcrc (s : State) (bs : List Byte) : (s.setBdata bs).bcrc = s.bcrc := rfl
@[simp] theorem State.setBdata_bidx (s : State) (bs : List Byte) : (s.setBdata bs).bidx = s.bidx := rfl
@[simp] theorem State.setBdata_bunk (s : State) (bs : List Byte) : (s.setBdata bs).bunk = s.bunk := rfl
@[simp] theorem State.setBdata_bpad (s : State) (bs : List Byte) : (s.setBdata bs).bpad = s.bpad := rfl
@[simp] theorem State.setBdata_bdata (s : State) (bs : List Byte) : (s.setBdata bs).bdata = Memory.ofBytes .bdata 0 bs := rfl
@[simp] theorem State.setBdata_w (s : State) (bs : List Byte) : (s.setBdata bs).w = s.w := rfl
@[simp] theorem State.setBdata_crcr (s : State) (bs : List Byte) : (s.setBdata bs).crcr = s.crcr := rfl
@[simp] theorem State.setBdata_arg0 (s : State) (bs : List Byte) : (s.setBdata bs).arg0 = s.arg0 := rfl
@[simp] theorem State.setBdata_arg1 (s : State) (bs : List Byte) : (s.setBdata bs).arg1 = s.arg1 := rfl
@[simp] theorem State.setBdata_ecnt (s : State) (bs : List Byte) : (s.setBdata bs).ecnt = s.ecnt := rfl
@[simp] theorem State.setBdata_inbox (s : State) (bs : List Byte) : (s.setBdata bs).inbox = s.inbox := rfl
@[simp] theorem State.setBdata_replies (s : State) (bs : List Byte) : (s.setBdata bs).replies = s.replies := rfl

/-! ### `State.memWrite` -/

@[simp] theorem State.memWrite_params (s : State) (a : Nat) (bs : List Byte) : (s.memWrite a bs).params = s.params := rfl
@[simp] theorem State.memWrite_ph (s : State) (a : Nat) (bs : List Byte) : (s.memWrite a bs).ph = s.ph := rfl
@[simp] theorem State.memWrite_err (s : State) (a : Nat) (bs : List Byte) : (s.memWrite a bs).err = s.err := rfl
@[simp] theorem State.memWrite_elog (s : State) (a : Nat) (bs : List Byte) : (s.memWrite a bs).elog = s.elog := rfl
@[simp] theorem State.memWrite_key (s : State) (a : Nat) (bs : List Byte) : (s.memWrite a bs).key = s.key := rfl
@[simp] theorem State.memWrite_frame (s : State) (a : Nat) (bs : List Byte) : (s.memWrite a bs).frame = Memory.putBytes .frame s.frame a bs := rfl
@[simp] theorem State.memWrite_flen (s : State) (a : Nat) (bs : List Byte) : (s.memWrite a bs).flen = s.flen := rfl
@[simp] theorem State.memWrite_hminor (s : State) (a : Nat) (bs : List Byte) : (s.memWrite a bs).hminor = s.hminor := rfl
@[simp] theorem State.memWrite_hmajor (s : State) (a : Nat) (bs : List Byte) : (s.memWrite a bs).hmajor = s.hmajor := rfl
@[simp] theorem State.memWrite_hmagic (s : State) (a : Nat) (bs : List Byte) : (s.memWrite a bs).hmagic = s.hmagic := rfl
@[simp] theorem State.memWrite_hpad (s : State) (a : Nat) (bs : List Byte) : (s.memWrite a bs).hpad = s.hpad := rfl
@[simp] theorem State.memWrite_hcrc (s : State) (a : Nat) (bs : List Byte) : (s.memWrite a bs).hcrc = s.hcrc := rfl
@[simp] theorem State.memWrite_hnblk (s : State) (a : Nat) (bs : List Byte) : (s.memWrite a bs).hnblk = s.hnblk := rfl
@[simp] theorem State.memWrite_bcrc (s : State) (a : Nat) (bs : List Byte) : (s.memWrite a bs).bcrc = s.bcrc := rfl
@[simp] theorem State.memWrite_bidx (s : State) (a : Nat) (bs : List Byte) : (s.memWrite a bs).bidx = s.bidx := rfl
@[simp] theorem State.memWrite_bunk (s : State) (a : Nat) (bs : List Byte) : (s.memWrite a bs).bunk = s.bunk := rfl
@[simp] theorem State.memWrite_bpad (s : State) (a : Nat) (bs : List Byte) : (s.memWrite a bs).bpad = s.bpad := rfl
@[simp] theorem State.memWrite_bdata (s : State) (a : Nat) (bs : List Byte) : (s.memWrite a bs).bdata = s.bdata := rfl
@[simp] theorem State.memWrite_w (s : State) (a : Nat) (bs : List Byte) : (s.memWrite a bs).w = s.w := rfl
@[simp] theorem State.memWrite_crcr (s : State) (a : Nat) (bs : List Byte) : (s.memWrite a bs).crcr = s.crcr := rfl
@[simp] theorem State.memWrite_arg0 (s : State) (a : Nat) (bs : List Byte) : (s.memWrite a bs).arg0 = s.arg0 := rfl
@[simp] theorem State.memWrite_arg1 (s : State) (a : Nat) (bs : List Byte) : (s.memWrite a bs).arg1 = s.arg1 := rfl
@[simp] theorem State.memWrite_ecnt (s : State) (a : Nat) (bs : List Byte) : (s.memWrite a bs).ecnt = s.ecnt := rfl
@[simp] theorem State.memWrite_inbox (s : State) (a : Nat) (bs : List Byte) : (s.memWrite a bs).inbox = s.inbox := rfl
@[simp] theorem State.memWrite_replies (s : State) (a : Nat) (bs : List Byte) : (s.memWrite a bs).replies = s.replies := rfl

/-! ### `State.setFrame` -/

@[simp] theorem State.setFrame_params (s : State) (bs : List Byte) : (s.setFrame bs).params = s.params := rfl
@[simp] theorem State.setFrame_ph (s : State) (bs : List Byte) : (s.setFrame bs).ph = s.ph := rfl
@[simp] theorem State.setFrame_err (s : State) (bs : List Byte) : (s.setFrame bs).err = s.err := rfl
@[simp] theorem State.setFrame_elog (s : State) (bs : List Byte) : (s.setFrame bs).elog = s.elog := rfl
@[simp] theorem State.setFrame_key (s : State) (bs : List Byte) : (s.setFrame bs).key = s.key := rfl
@[simp] theorem State.setFrame_frame (s : State) (bs : List Byte) : (s.setFrame bs).frame = Memory.ofBytes .frame 0 bs := rfl
@[simp] theorem State.setFrame_flen (s : State) (bs : List Byte) : (s.setFrame bs).flen = bs.length := rfl
@[simp] theorem State.setFrame_hminor (s : State) (bs : List Byte) : (s.setFrame bs).hminor = s.hminor := rfl
@[simp] theorem State.setFrame_hmajor (s : State) (bs : List Byte) : (s.setFrame bs).hmajor = s.hmajor := rfl
@[simp] theorem State.setFrame_hmagic (s : State) (bs : List Byte) : (s.setFrame bs).hmagic = s.hmagic := rfl
@[simp] theorem State.setFrame_hpad (s : State) (bs : List Byte) : (s.setFrame bs).hpad = s.hpad := rfl
@[simp] theorem State.setFrame_hcrc (s : State) (bs : List Byte) : (s.setFrame bs).hcrc = s.hcrc := rfl
@[simp] theorem State.setFrame_hnblk (s : State) (bs : List Byte) : (s.setFrame bs).hnblk = s.hnblk := rfl
@[simp] theorem State.setFrame_bcrc (s : State) (bs : List Byte) : (s.setFrame bs).bcrc = s.bcrc := rfl
@[simp] theorem State.setFrame_bidx (s : State) (bs : List Byte) : (s.setFrame bs).bidx = s.bidx := rfl
@[simp] theorem State.setFrame_bunk (s : State) (bs : List Byte) : (s.setFrame bs).bunk = s.bunk := rfl
@[simp] theorem State.setFrame_bpad (s : State) (bs : List Byte) : (s.setFrame bs).bpad = s.bpad := rfl
@[simp] theorem State.setFrame_bdata (s : State) (bs : List Byte) : (s.setFrame bs).bdata = s.bdata := rfl
@[simp] theorem State.setFrame_w (s : State) (bs : List Byte) : (s.setFrame bs).w = s.w := rfl
@[simp] theorem State.setFrame_crcr (s : State) (bs : List Byte) : (s.setFrame bs).crcr = s.crcr := rfl
@[simp] theorem State.setFrame_arg0 (s : State) (bs : List Byte) : (s.setFrame bs).arg0 = s.arg0 := rfl
@[simp] theorem State.setFrame_arg1 (s : State) (bs : List Byte) : (s.setFrame bs).arg1 = s.arg1 := rfl
@[simp] theorem State.setFrame_ecnt (s : State) (bs : List Byte) : (s.setFrame bs).ecnt = s.ecnt := rfl
@[simp] theorem State.setFrame_inbox (s : State) (bs : List Byte) : (s.setFrame bs).inbox = s.inbox := rfl
@[simp] theorem State.setFrame_replies (s : State) (bs : List Byte) : (s.setFrame bs).replies = s.replies := rfl

/-! ### `State.growFrame` -/

@[simp] theorem State.growFrame_params (s : State) (bs : List Byte) : (s.growFrame bs).params = s.params := rfl
@[simp] theorem State.growFrame_ph (s : State) (bs : List Byte) : (s.growFrame bs).ph = s.ph := rfl
@[simp] theorem State.growFrame_err (s : State) (bs : List Byte) : (s.growFrame bs).err = s.err := rfl
@[simp] theorem State.growFrame_elog (s : State) (bs : List Byte) : (s.growFrame bs).elog = s.elog := rfl
@[simp] theorem State.growFrame_key (s : State) (bs : List Byte) : (s.growFrame bs).key = s.key := rfl
@[simp] theorem State.growFrame_frame (s : State) (bs : List Byte) : (s.growFrame bs).frame = Memory.putBytes .frame s.frame s.flen bs := rfl
@[simp] theorem State.growFrame_flen (s : State) (bs : List Byte) : (s.growFrame bs).flen = s.flen + bs.length := rfl
@[simp] theorem State.growFrame_hminor (s : State) (bs : List Byte) : (s.growFrame bs).hminor = s.hminor := rfl
@[simp] theorem State.growFrame_hmajor (s : State) (bs : List Byte) : (s.growFrame bs).hmajor = s.hmajor := rfl
@[simp] theorem State.growFrame_hmagic (s : State) (bs : List Byte) : (s.growFrame bs).hmagic = s.hmagic := rfl
@[simp] theorem State.growFrame_hpad (s : State) (bs : List Byte) : (s.growFrame bs).hpad = s.hpad := rfl
@[simp] theorem State.growFrame_hcrc (s : State) (bs : List Byte) : (s.growFrame bs).hcrc = s.hcrc := rfl
@[simp] theorem State.growFrame_hnblk (s : State) (bs : List Byte) : (s.growFrame bs).hnblk = s.hnblk := rfl
@[simp] theorem State.growFrame_bcrc (s : State) (bs : List Byte) : (s.growFrame bs).bcrc = s.bcrc := rfl
@[simp] theorem State.growFrame_bidx (s : State) (bs : List Byte) : (s.growFrame bs).bidx = s.bidx := rfl
@[simp] theorem State.growFrame_bunk (s : State) (bs : List Byte) : (s.growFrame bs).bunk = s.bunk := rfl
@[simp] theorem State.growFrame_bpad (s : State) (bs : List Byte) : (s.growFrame bs).bpad = s.bpad := rfl
@[simp] theorem State.growFrame_bdata (s : State) (bs : List Byte) : (s.growFrame bs).bdata = s.bdata := rfl
@[simp] theorem State.growFrame_w (s : State) (bs : List Byte) : (s.growFrame bs).w = s.w := rfl
@[simp] theorem State.growFrame_crcr (s : State) (bs : List Byte) : (s.growFrame bs).crcr = s.crcr := rfl
@[simp] theorem State.growFrame_arg0 (s : State) (bs : List Byte) : (s.growFrame bs).arg0 = s.arg0 := rfl
@[simp] theorem State.growFrame_arg1 (s : State) (bs : List Byte) : (s.growFrame bs).arg1 = s.arg1 := rfl
@[simp] theorem State.growFrame_ecnt (s : State) (bs : List Byte) : (s.growFrame bs).ecnt = s.ecnt := rfl
@[simp] theorem State.growFrame_inbox (s : State) (bs : List Byte) : (s.growFrame bs).inbox = s.inbox := rfl
@[simp] theorem State.growFrame_replies (s : State) (bs : List Byte) : (s.growFrame bs).replies = s.replies := rfl

/-! ### `State.raise` -/

@[simp] theorem State.raise_params (s : State) (e : ErrorKind) : (s.raise e).params = s.params := rfl
@[simp] theorem State.raise_ph (s : State) (e : ErrorKind) : (s.raise e).ph = e.phaseAfter s.ph := rfl
@[simp] theorem State.raise_err (s : State) (e : ErrorKind) : (s.raise e).err = e.code := rfl
@[simp] theorem State.raise_elog (s : State) (e : ErrorKind) : (s.raise e).elog = s.elog ||| e.logBit := rfl
@[simp] theorem State.raise_key (s : State) (e : ErrorKind) : (s.raise e).key = s.key := rfl
@[simp] theorem State.raise_frame (s : State) (e : ErrorKind) : (s.raise e).frame = s.frame := rfl
@[simp] theorem State.raise_flen (s : State) (e : ErrorKind) : (s.raise e).flen = s.flen := rfl
@[simp] theorem State.raise_hminor (s : State) (e : ErrorKind) : (s.raise e).hminor = s.hminor := rfl
@[simp] theorem State.raise_hmajor (s : State) (e : ErrorKind) : (s.raise e).hmajor = s.hmajor := rfl
@[simp] theorem State.raise_hmagic (s : State) (e : ErrorKind) : (s.raise e).hmagic = s.hmagic := rfl
@[simp] theorem State.raise_hpad (s : State) (e : ErrorKind) : (s.raise e).hpad = s.hpad := rfl
@[simp] theorem State.raise_hcrc (s : State) (e : ErrorKind) : (s.raise e).hcrc = s.hcrc := rfl
@[simp] theorem State.raise_hnblk (s : State) (e : ErrorKind) : (s.raise e).hnblk = s.hnblk := rfl
@[simp] theorem State.raise_bcrc (s : State) (e : ErrorKind) : (s.raise e).bcrc = s.bcrc := rfl
@[simp] theorem State.raise_bidx (s : State) (e : ErrorKind) : (s.raise e).bidx = s.bidx := rfl
@[simp] theorem State.raise_bunk (s : State) (e : ErrorKind) : (s.raise e).bunk = s.bunk := rfl
@[simp] theorem State.raise_bpad (s : State) (e : ErrorKind) : (s.raise e).bpad = s.bpad := rfl
@[simp] theorem State.raise_bdata (s : State) (e : ErrorKind) : (s.raise e).bdata = s.bdata := rfl
@[simp] theorem State.raise_w (s : State) (e : ErrorKind) : (s.raise e).w = s.w := rfl
@[simp] theorem State.raise_crcr (s : State) (e : ErrorKind) : (s.raise e).crcr = s.crcr := rfl
@[simp] theorem State.raise_arg0 (s : State) (e : ErrorKind) : (s.raise e).arg0 = s.arg0 := rfl
@[simp] theorem State.raise_arg1 (s : State) (e : ErrorKind) : (s.raise e).arg1 = s.arg1 := rfl
@[simp] theorem State.raise_ecnt (s : State) (e : ErrorKind) : (s.raise e).ecnt = s.ecnt := rfl
@[simp] theorem State.raise_inbox (s : State) (e : ErrorKind) : (s.raise e).inbox = s.inbox := rfl
@[simp] theorem State.raise_replies (s : State) (e : ErrorKind) : (s.raise e).replies = s.replies := rfl

/-! ### `State.finish` -/

@[simp] theorem State.finish_params (s : State) : (s.finish).params = s.params := rfl
@[simp] theorem State.finish_ph (s : State) : (s.finish).ph = s.ph := rfl
@[simp] theorem State.finish_err (s : State) : (s.finish).err = 0#3 := rfl
@[simp] theorem State.finish_elog (s : State) : (s.finish).elog = s.elog := rfl
@[simp] theorem State.finish_key (s : State) : (s.finish).key = s.key := rfl
@[simp] theorem State.finish_frame (s : State) : (s.finish).frame = s.frame := rfl
@[simp] theorem State.finish_flen (s : State) : (s.finish).flen = s.flen := rfl
@[simp] theorem State.finish_hminor (s : State) : (s.finish).hminor = s.hminor := rfl
@[simp] theorem State.finish_hmajor (s : State) : (s.finish).hmajor = s.hmajor := rfl
@[simp] theorem State.finish_hmagic (s : State) : (s.finish).hmagic = s.hmagic := rfl
@[simp] theorem State.finish_hpad (s : State) : (s.finish).hpad = s.hpad := rfl
@[simp] theorem State.finish_hcrc (s : State) : (s.finish).hcrc = s.hcrc := rfl
@[simp] theorem State.finish_hnblk (s : State) : (s.finish).hnblk = s.hnblk := rfl
@[simp] theorem State.finish_bcrc (s : State) : (s.finish).bcrc = s.bcrc := rfl
@[simp] theorem State.finish_bidx (s : State) : (s.finish).bidx = s.bidx := rfl
@[simp] theorem State.finish_bunk (s : State) : (s.finish).bunk = s.bunk := rfl
@[simp] theorem State.finish_bpad (s : State) : (s.finish).bpad = s.bpad := rfl
@[simp] theorem State.finish_bdata (s : State) : (s.finish).bdata = s.bdata := rfl
@[simp] theorem State.finish_w (s : State) : (s.finish).w = s.w := rfl
@[simp] theorem State.finish_crcr (s : State) : (s.finish).crcr = s.crcr := rfl
@[simp] theorem State.finish_arg0 (s : State) : (s.finish).arg0 = s.arg0 := rfl
@[simp] theorem State.finish_arg1 (s : State) : (s.finish).arg1 = s.arg1 := rfl
@[simp] theorem State.finish_ecnt (s : State) : (s.finish).ecnt = s.ecnt := rfl
@[simp] theorem State.finish_inbox (s : State) : (s.finish).inbox = s.inbox := rfl
@[simp] theorem State.finish_replies (s : State) : (s.finish).replies = s.replies := rfl

/-! ### `State.reply` -/

@[simp] theorem State.reply_params (s : State) (v : Dword) : (s.reply v).params = s.params := rfl
@[simp] theorem State.reply_ph (s : State) (v : Dword) : (s.reply v).ph = s.ph := rfl
@[simp] theorem State.reply_err (s : State) (v : Dword) : (s.reply v).err = s.err := rfl
@[simp] theorem State.reply_elog (s : State) (v : Dword) : (s.reply v).elog = s.elog := rfl
@[simp] theorem State.reply_key (s : State) (v : Dword) : (s.reply v).key = s.key := rfl
@[simp] theorem State.reply_frame (s : State) (v : Dword) : (s.reply v).frame = s.frame := rfl
@[simp] theorem State.reply_flen (s : State) (v : Dword) : (s.reply v).flen = s.flen := rfl
@[simp] theorem State.reply_hminor (s : State) (v : Dword) : (s.reply v).hminor = s.hminor := rfl
@[simp] theorem State.reply_hmajor (s : State) (v : Dword) : (s.reply v).hmajor = s.hmajor := rfl
@[simp] theorem State.reply_hmagic (s : State) (v : Dword) : (s.reply v).hmagic = s.hmagic := rfl
@[simp] theorem State.reply_hpad (s : State) (v : Dword) : (s.reply v).hpad = s.hpad := rfl
@[simp] theorem State.reply_hcrc (s : State) (v : Dword) : (s.reply v).hcrc = s.hcrc := rfl
@[simp] theorem State.reply_hnblk (s : State) (v : Dword) : (s.reply v).hnblk = s.hnblk := rfl
@[simp] theorem State.reply_bcrc (s : State) (v : Dword) : (s.reply v).bcrc = s.bcrc := rfl
@[simp] theorem State.reply_bidx (s : State) (v : Dword) : (s.reply v).bidx = s.bidx := rfl
@[simp] theorem State.reply_bunk (s : State) (v : Dword) : (s.reply v).bunk = s.bunk := rfl
@[simp] theorem State.reply_bpad (s : State) (v : Dword) : (s.reply v).bpad = s.bpad := rfl
@[simp] theorem State.reply_bdata (s : State) (v : Dword) : (s.reply v).bdata = s.bdata := rfl
@[simp] theorem State.reply_w (s : State) (v : Dword) : (s.reply v).w = s.w := rfl
@[simp] theorem State.reply_crcr (s : State) (v : Dword) : (s.reply v).crcr = s.crcr := rfl
@[simp] theorem State.reply_arg0 (s : State) (v : Dword) : (s.reply v).arg0 = s.arg0 := rfl
@[simp] theorem State.reply_arg1 (s : State) (v : Dword) : (s.reply v).arg1 = s.arg1 := rfl
@[simp] theorem State.reply_ecnt (s : State) (v : Dword) : (s.reply v).ecnt = s.ecnt := rfl
@[simp] theorem State.reply_inbox (s : State) (v : Dword) : (s.reply v).inbox = s.inbox := rfl
@[simp] theorem State.reply_replies (s : State) (v : Dword) : (s.reply v).replies = v :: s.replies := rfl

/-! ### `State.afterReset` -/

@[simp] theorem State.afterReset_params (s : State) : (s.afterReset).params = s.params := rfl
@[simp] theorem State.afterReset_ph (s : State) : (s.afterReset).ph = Phase.noKey := rfl
@[simp] theorem State.afterReset_err (s : State) : (s.afterReset).err = 0#3 := rfl
@[simp] theorem State.afterReset_elog (s : State) : (s.afterReset).elog = 0#5 := rfl
@[simp] theorem State.afterReset_key (s : State) : (s.afterReset).key = [] := rfl
@[simp] theorem State.afterReset_frame (s : State) : (s.afterReset).frame = [] := rfl
@[simp] theorem State.afterReset_flen (s : State) : (s.afterReset).flen = 0 := rfl
@[simp] theorem State.afterReset_hminor (s : State) : (s.afterReset).hminor = none := rfl
@[simp] theorem State.afterReset_hmajor (s : State) : (s.afterReset).hmajor = none := rfl
@[simp] theorem State.afterReset_hmagic (s : State) : (s.afterReset).hmagic = none := rfl
@[simp] theorem State.afterReset_hpad (s : State) : (s.afterReset).hpad = none := rfl
@[simp] theorem State.afterReset_hcrc (s : State) : (s.afterReset).hcrc = none := rfl
@[simp] theorem State.afterReset_hnblk (s : State) : (s.afterReset).hnblk = none := rfl
@[simp] theorem State.afterReset_bcrc (s : State) : (s.afterReset).bcrc = none := rfl
@[simp] theorem State.afterReset_bidx (s : State) : (s.afterReset).bidx = none := rfl
@[simp] theorem State.afterReset_bunk (s : State) : (s.afterReset).bunk = none := rfl
@[simp] theorem State.afterReset_bpad (s : State) : (s.afterReset).bpad = none := rfl
@[simp] theorem State.afterReset_bdata (s : State) : (s.afterReset).bdata = [] := rfl
@[simp] theorem State.afterReset_w (s : State) : (s.afterReset).w = none := rfl
@[simp] theorem State.afterReset_crcr (s : State) : (s.afterReset).crcr = none := rfl
@[simp] theorem State.afterReset_arg0 (s : State) : (s.afterReset).arg0 = none := rfl
@[simp] theorem State.afterReset_arg1 (s : State) : (s.afterReset).arg1 = none := rfl
@[simp] theorem State.afterReset_ecnt (s : State) : (s.afterReset).ecnt = 0#32 := rfl
@[simp] theorem State.afterReset_inbox (s : State) : (s.afterReset).inbox = s.inbox := rfl
@[simp] theorem State.afterReset_replies (s : State) : (s.afterReset).replies = s.replies := rfl

end Sys2Proof.Machine
end

