-- ==== Sys2Proof/Laws/Run.lean ====
section
/-! SUPPORT. How a command runs, said once: what each test answers, what each operand reader answers, and for every
command exactly when it has a next state and which. -/
namespace Sys2Proof.Machine

/-! ### Tests and operands -/

theorem bind_ok_iff {α β : Type} {x : Except Refusal α} {f : α → Except Refusal β} {b : β} :
    (x >>= f) = .ok b ↔ ∃ a, x = .ok a ∧ f a = .ok b := by
  cases x <;> simp [bind, Except.bind]

theorem bind_error_iff {α β : Type} {x : Except Refusal α} {f : α → Except Refusal β} {r : Refusal} :
    (x >>= f) = .error r ↔ x = .error r ∨ ∃ a, x = .ok a ∧ f a = .error r := by
  cases x <;> simp [bind, Except.bind]

@[simp] theorem pure_ok_iff {α : Type} {a b : α} : (pure a : Except Refusal α) = .ok b ↔ a = b := by
  simp [pure, Except.pure]

@[simp] theorem pure_error_iff {α : Type} {a : α} {r : Refusal} :
    (pure a : Except Refusal α) = .error r ↔ False := by
  simp [pure, Except.pure]

@[simp] theorem require_ok_iff {c : Bool} {r : Refusal} {u : Unit} : require c r = .ok u ↔ c = true := by
  cases c <;> simp [require]

@[simp] theorem require_error_iff {c : Bool} {r q : Refusal} : require c r = .error q ↔ c = false ∧ r = q := by
  cases c <;> simp [require]

@[simp] theorem requirePhase_ok_iff {i : Instr} {s : State} {u : Unit} :
    requirePhase i s = .ok u ↔ acceptedIn i s.ph = true := require_ok_iff

@[simp] theorem requirePhase_error_iff {i : Instr} {s : State} {r : Refusal} :
    requirePhase i s = .error r ↔ acceptedIn i s.ph = false ∧ .wrongPhase s.ph = r := require_error_iff

@[simp] theorem operand_ok_iff {α : Type} {e : Element} {x : Option α} {v : α} :
    operand e x = .ok v ↔ x = some v := by
  cases x <;> simp [operand]

@[simp] theorem operand_error_iff {α : Type} {e : Element} {x : Option α} {r : Refusal} :
    operand e x = .error r ↔ x = none ∧ .undefOperand e = r := by
  cases x <;> simp [operand]

@[simp] theorem frameRange_ok_iff {s : State} {p : Nat × Nat} :
    frameRange s = .ok p ↔
      ∃ a n, s.arg0 = some a ∧ s.arg1 = some n ∧ a.toNat + n.toNat ≤ s.flen ∧ p = (a.toNat, n.toNat) := by
  simp only [frameRange, bind_ok_iff, operand_ok_iff, require_ok_iff, decide_eq_true_eq, pure_ok_iff]
  constructor
  · rintro ⟨a, ha, n, hn, -, h, rfl⟩; exact ⟨a, n, ha, hn, h, rfl⟩
  · rintro ⟨a, n, ha, hn, h, rfl⟩; exact ⟨a, ha, n, hn, (), h, rfl⟩

/-! ### Running -/

theorem accept_next_iff {α : Type} {ops : Except Refusal α} {eff : α → Except ErrorKind State} {s t : State} :
    accept ops eff s = .next t ↔ ∃ a, ops = .ok a ∧ t = conclude s (eff a) := by
  cases ops <;> simp [accept, eq_comm]

theorem accept_refused_iff {α : Type} {ops : Except Refusal α} {eff : α → Except ErrorKind State} {s : State}
    {r : Refusal} : accept ops eff s = .refused r ↔ ops = .error r := by
  cases ops <;> simp [accept]

/-- A command never faults. -/
theorem accept_not_fault {α : Type} {ops : Except Refusal α} {eff : α → Except ErrorKind State} {s : State}
    {f : Fault} : accept ops eff s ≠ .fault f := by
  cases f

@[simp] theorem conclude_ok (s t : State) : conclude s (.ok t) = t.finish := rfl

@[simp] theorem conclude_error (s : State) (e : ErrorKind) : conclude s (.error e) = s.raise e := rfl

/-! ### Every command: exactly when it has a next state, and which -/

theorem execLdkey_next_iff {s t : State} :
    execLdkey s = .next t ↔ s.ph = .noKey ∧
      t = if s.params.ks.length ≠ Config.keyLength then s.raise .invalidKeyLength
        else State.finish { s with key := Memory.ofBytes .key 0 s.params.ks, ph := .idle } := by
  simp only [execLdkey, accept_next_iff, requirePhase_ok_iff, acceptedIn, beq_iff_eq]
  constructor
  · rintro ⟨-, h, rfl⟩; refine ⟨h, ?_⟩; split <;> rfl
  · rintro ⟨h, rfl⟩; refine ⟨(), h, ?_⟩; split <;> rfl

theorem execCrc_next_iff {s t : State} :
    execCrc s = .next t ↔ s.ph.keyed = true ∧ ∃ a n, s.arg0 = some a ∧ s.arg1 = some n ∧
      a.toNat + n.toNat ≤ s.flen ∧
      t = State.finish { s with crcr := some (checksum (s.memRead a.toNat n.toNat)) } := by
  simp only [execCrc, accept_next_iff, bind_ok_iff, requirePhase_ok_iff, frameRange_ok_iff, acceptedIn]
  constructor
  · rintro ⟨_, ⟨-, h, a, n, ha, hn, hr, rfl⟩, rfl⟩; exact ⟨h, a, n, ha, hn, hr, rfl⟩
  · rintro ⟨h, a, n, ha, hn, hr, rfl⟩; exact ⟨_, ⟨(), h, a, n, ha, hn, hr, rfl⟩, rfl⟩

theorem permuteW_next_iff {f : Word → Word} {i : Instr} {s t : State} :
    permuteW f i s = .next t ↔ acceptedIn i s.ph = true ∧ ∃ v, s.w = some v ∧
      t = State.finish { s with w := some (f v) } := by
  simp only [permuteW, accept_next_iff, bind_ok_iff, requirePhase_ok_iff, operand_ok_iff]
  constructor
  · rintro ⟨v, ⟨-, h, hv⟩, rfl⟩; exact ⟨h, v, hv, rfl⟩
  · rintro ⟨h, v, hv, rfl⟩; exact ⟨v, ⟨(), h, hv⟩, rfl⟩

theorem permuteRange_next_iff {f : List Byte → Except ErrorKind (List Byte)} {i : Instr} {s t : State} :
    permuteRange f i s = .next t ↔ acceptedIn i s.ph = true ∧ ∃ a n, s.arg0 = some a ∧ s.arg1 = some n ∧
      a.toNat + n.toNat ≤ s.flen ∧
      t = conclude s ((f (s.memRead a.toNat n.toNat)).map fun out => s.memWrite a.toNat out) := by
  simp only [permuteRange, accept_next_iff, bind_ok_iff, requirePhase_ok_iff, frameRange_ok_iff]
  constructor
  · rintro ⟨_, ⟨-, h, a, n, ha, hn, hr, rfl⟩, rfl⟩; exact ⟨h, a, n, ha, hn, hr, rfl⟩
  · rintro ⟨h, a, n, ha, hn, hr, rfl⟩; exact ⟨_, ⟨(), h, a, n, ha, hn, hr, rfl⟩, rfl⟩

theorem execDec_next_iff {s t : State} :
    execDec s = .next t ↔ s.ph.keyed = true ∧ ∃ crc index ct key, s.bcrc = some crc ∧ s.bidx = some index ∧
      s.blockBytes = some ct ∧ s.keyBytes = some key ∧
      t = conclude s ((decryptPlain key crc index ct).map fun pt => s.setBdata pt) := by
  simp only [execDec, accept_next_iff, bind_ok_iff, requirePhase_ok_iff, operand_ok_iff, pure_ok_iff, acceptedIn]
  constructor
  · rintro ⟨_, ⟨-, h, c, hc, i, hi, d, hd, k, hk, rfl⟩, rfl⟩; exact ⟨h, c, i, d, k, hc, hi, hd, hk, rfl⟩
  · rintro ⟨h, c, i, d, k, hc, hi, hd, hk, rfl⟩; exact ⟨_, ⟨(), h, c, hc, i, hi, d, hd, k, hk, rfl⟩, rfl⟩

theorem execEnc_next_iff {s t : State} :
    execEnc s = .next t ↔ s.ph.keyed = true ∧ ∃ index pt key, s.bidx = some index ∧
      s.blockBytes = some pt ∧ s.keyBytes = some key ∧
      t = State.finish { s.setBdata (encipher key index pt) with bcrc := some (checksum pt) } := by
  simp only [execEnc, accept_next_iff, bind_ok_iff, requirePhase_ok_iff, operand_ok_iff, pure_ok_iff, acceptedIn]
  constructor
  · rintro ⟨_, ⟨-, h, i, hi, d, hd, k, hk, rfl⟩, rfl⟩; exact ⟨h, i, d, k, hi, hd, hk, rfl⟩
  · rintro ⟨h, i, d, k, hi, hd, hk, rfl⟩; exact ⟨_, ⟨(), h, i, hi, d, hd, k, hk, rfl⟩, rfl⟩

/-- What `DECC` does, by the three tests of R141 in their order. -/
theorem execDecc_next_iff {s t : State} :
    execDecc s = .next t ↔ s.ph = .idle ∧
      t = if s.flen < Config.headerLength ∨
            s.flen < recordAddress (parseHeader (s.memRead 0 Config.headerLength)).numBlocks.toNat then
          s.raise .truncatedInput
        else if checksum (s.memRead Config.headerLength (s.flen - Config.headerLength)) ≠
            (parseHeader (s.memRead 0 Config.headerLength)).crc32 then
          s.raise .fileChecksumMismatch
        else State.finish { s with
          hminor := some (parseHeader (s.memRead 0 Config.headerLength)).minor
          hmajor := some (parseHeader (s.memRead 0 Config.headerLength)).major
          hmagic := some (parseHeader (s.memRead 0 Config.headerLength)).magic
          hcrc := some (parseHeader (s.memRead 0 Config.headerLength)).crc32
          hpad := some (parseHeader (s.memRead 0 Config.headerLength)).pad
          hnblk := some (parseHeader (s.memRead 0 Config.headerLength)).numBlocks
          ph := .opened } := by
  simp only [execDecc, accept_next_iff, requirePhase_ok_iff, acceptedIn, beq_iff_eq]
  constructor
  · rintro ⟨-, h, rfl⟩
    refine ⟨h, ?_⟩
    split
    · rw [if_pos (.inl ‹_›)]; rfl
    · split
      · rw [if_pos (.inr ‹_›)]; rfl
      · rw [if_neg (not_or.2 ⟨‹_›, ‹_›⟩)]; split <;> rfl
  · rintro ⟨h, rfl⟩
    refine ⟨(), h, ?_⟩
    split
    · split
      · rfl
      · split
        · rfl
        · exact absurd (Or.resolve_left ‹_ ∨ _› ‹_›) ‹_›
    · rename_i hn
      rw [if_neg (not_or.1 hn).1, if_neg (not_or.1 hn).2]
      split <;> rfl

theorem execLdblk_next_iff {s t : State} :
    execLdblk s = .next t ↔ s.ph = .opened ∧ ∃ k n, s.arg0 = some k ∧ s.hnblk = some n ∧ k.toNat < n.toNat ∧
      recordAddress (k.toNat + 1) ≤ s.flen ∧
      t = State.finish
        { s.setBdata (parseBlock (s.memRead (recordAddress k.toNat) Config.blockLength)).cipherData with
          bcrc := some (parseBlock (s.memRead (recordAddress k.toNat) Config.blockLength)).crc32
          bidx := some (parseBlock (s.memRead (recordAddress k.toNat) Config.blockLength)).index
          bunk := some (parseBlock (s.memRead (recordAddress k.toNat) Config.blockLength)).unknown
          bpad := some (parseBlock (s.memRead (recordAddress k.toNat) Config.blockLength)).pad } := by
  simp only [execLdblk, accept_next_iff, bind_ok_iff, requirePhase_ok_iff, operand_ok_iff, require_ok_iff,
    pure_ok_iff, acceptedIn, beq_iff_eq, decide_eq_true_eq]
  constructor
  · rintro ⟨_, ⟨-, h, k, hk, n, hn, -, h1, -, h2, rfl⟩, rfl⟩; exact ⟨h, k, n, hk, hn, h1, h2, rfl⟩
  · rintro ⟨h, k, n, hk, hn, h1, h2, rfl⟩; exact ⟨_, ⟨(), h, k, hk, n, hn, (), h1, (), h2, rfl⟩, rfl⟩

theorem execClose_next_iff {s t : State} :
    execClose s = .next t ↔ s.ph = .opened ∧ t = State.finish { s with ph := .idle } := by
  simp only [execClose, accept_next_iff, requirePhase_ok_iff, acceptedIn, beq_iff_eq]
  exact ⟨fun ⟨_, h, e⟩ => ⟨h, e⟩, fun ⟨h, e⟩ => ⟨(), h, e⟩⟩

theorem execBegin_next_iff {s t : State} :
    execBegin s = .next t ↔ s.ph = .idle ∧
      t = State.finish
        { s.setFrame (List.replicate Config.headerLength 0#8) with ecnt := 0#32, ph := .building } := by
  simp only [execBegin, accept_next_iff, requirePhase_ok_iff, acceptedIn, beq_iff_eq]
  exact ⟨fun ⟨_, h, e⟩ => ⟨h, e⟩, fun ⟨h, e⟩ => ⟨(), h, e⟩⟩

theorem execAppend_next_iff {s t : State} :
    execAppend s = .next t ↔ s.ph = .building ∧ ∃ crc index unknown pad data, s.bcrc = some crc ∧
      s.bidx = some index ∧ s.bunk = some unknown ∧ s.bpad = some pad ∧ s.blockBytes = some data ∧
      s.ecnt.toNat ≠ 2 ^ 32 - 1 ∧ recordAddress (s.ecnt.toNat + 1) ≤ s.params.fcap ∧
      t = State.finish { s.growFrame (serBlock ⟨crc, index, unknown, pad, data⟩) with ecnt := s.ecnt + 1 } := by
  simp only [execAppend, accept_next_iff, bind_ok_iff, requirePhase_ok_iff, operand_ok_iff, require_ok_iff,
    pure_ok_iff, acceptedIn, beq_iff_eq, decide_eq_true_eq]
  constructor
  · rintro ⟨_, ⟨-, h, c, hc, i, hi, u, hu, p, hp, d, hd, -, h1, -, h2, rfl⟩, rfl⟩
    exact ⟨h, c, i, u, p, d, hc, hi, hu, hp, hd, h1, h2, rfl⟩
  · rintro ⟨h, c, i, u, p, d, hc, hi, hu, hp, hd, h1, h2, rfl⟩
    exact ⟨_, ⟨(), h, c, hc, i, hi, u, hu, p, hp, d, hd, (), h1, (), h2, rfl⟩, rfl⟩

theorem execEncc_next_iff {s t : State} :
    execEncc s = .next t ↔ s.ph = .building ∧ ∃ minor major magic pad, s.hminor = some minor ∧
      s.hmajor = some major ∧ s.hmagic = some magic ∧ s.hpad = some pad ∧ Config.headerLength ≤ s.flen ∧
      t = State.finish
        { s.memWrite 0 (serHeader ⟨minor, major, magic,
            checksum (s.memRead Config.headerLength (s.flen - Config.headerLength)), pad, s.ecnt⟩) with
          hcrc := some (checksum (s.memRead Config.headerLength (s.flen - Config.headerLength)))
          hnblk := some s.ecnt, ph := .idle } := by
  simp only [execEncc, accept_next_iff, bind_ok_iff, requirePhase_ok_iff, operand_ok_iff, require_ok_iff,
    pure_ok_iff, acceptedIn, beq_iff_eq, decide_eq_true_eq]
  constructor
  · rintro ⟨_, ⟨-, h, a, ha, b, hb, c, hc, d, hd, -, h1, rfl⟩, rfl⟩
    exact ⟨h, a, b, c, d, ha, hb, hc, hd, h1, rfl⟩
  · rintro ⟨h, a, b, c, d, ha, hb, hc, hd, h1, rfl⟩
    exact ⟨_, ⟨(), h, a, ha, b, hb, c, hc, d, hd, (), h1, rfl⟩, rfl⟩

/-! ### Host moves -/

theorem deliver_next_iff {x : Except Refusal Dword} {s t : State} :
    deliver x s = .next t ↔ ∃ v, x = .ok v ∧ t = s.reply v := by
  cases x <;> simp [deliver, eq_comm]

theorem permit_next_iff {c : Except Refusal Unit} {s t : State} :
    permit c s = .next t ↔ c = .ok () ∧ t = s := by
  cases c <;> simp [permit, eq_comm]

theorem issue_next_iff {v : Dword} {s t : State} :
    issue v s = .next t ↔ v.extractLsb' 32 32 = 0#32 ∧ ∃ i, decode (v.extractLsb' 0 32) = .ok i ∧ exec i s = .next t := by
  unfold issue
  split
  · split
    · rename_i i hi; simp_all
    · rename_i e he; simp_all
  · simp_all

theorem mayLoadFrame_ok_iff {bs : List Byte} {s : State} :
    mayLoadFrame bs s = .ok () ↔ s.ph = .idle ∧ bs.length ≤ s.params.fcap := by
  simp [mayLoadFrame, bind_ok_iff]

theorem mayWriteFrame_ok_iff {a : Nat} {s : State} :
    mayWriteFrame a s = .ok () ↔ s.ph = .idle ∧ a < s.flen := by
  simp [mayWriteFrame, bind_ok_iff]

theorem readFrameByte_ok_iff {a : Nat} {s : State} {v : Dword} :
    readFrameByte a s = .ok v ↔ s.ph.keyed = true ∧ a < s.flen ∧ v = (s.frameByte a).setWidth 64 := by
  simp only [readFrameByte, bind_ok_iff, require_ok_iff, pure_ok_iff, decide_eq_true_eq]
  exact ⟨fun ⟨_, h, _, h', e⟩ => ⟨h, h', e.symm⟩, fun ⟨h, h', e⟩ => ⟨(), h, (), h', e.symm⟩⟩

theorem readBlockByte_ok_iff {i : Nat} {s : State} {v : Dword} :
    readBlockByte i s = .ok v ↔ i < Config.plainLength ∧ ∃ b, Memory.get .bdata s.bdata i = some b ∧
      v = b.setWidth 64 := by
  simp only [readBlockByte, bind_ok_iff, require_ok_iff, operand_ok_iff, pure_ok_iff, decide_eq_true_eq]
  exact ⟨fun ⟨_, h, b, hb, e⟩ => ⟨h, b, hb, e.symm⟩, fun ⟨h, b, hb, e⟩ => ⟨(), h, b, hb, e.symm⟩⟩

/-- A step is one host move, or nothing. -/
theorem step_next_iff {s t : State} :
    step s = .next t ↔ (s.inbox = [] ∧ t = s) ∨
      ∃ m rest, s.inbox = m :: rest ∧ perform m { s with inbox := rest } = .next t := by
  unfold step turn State.nextMove
  rcases h : s.inbox with _ | ⟨m, rest⟩
  · simp [eq_comm]
  · simp

end Sys2Proof.Machine
end

