-- ==== Sys2Proof/Laws/Moves.lean ====
section
/-! SUPPORT. What one host move, one step and a sequence of moves can do, said once. -/
namespace Sys2Proof.Machine

/-! ### Commands -/

/-- A command is accepted in its phases only, and ends ok or in an error (R13). -/
theorem exec_ends {i : Instr} {s t : State} (h : exec i s = .next t) :
    acceptedIn i s.ph = true ∧ ∃ x : Except ErrorKind State, t = conclude s x := by
  cases i with
  | ldkey =>
    obtain ⟨hp, rfl⟩ := execLdkey_next_iff.1 h
    refine ⟨by simp [acceptedIn, hp], ?_⟩
    split
    · exact ⟨.error _, rfl⟩
    · exact ⟨.ok _, rfl⟩
  | crc => obtain ⟨hp, _, _, -, -, -, rfl⟩ := execCrc_next_iff.1 h; exact ⟨hp, .ok _, rfl⟩
  | swz => obtain ⟨hp, _, -, rfl⟩ := permuteW_next_iff.1 h; exact ⟨hp, .ok _, rfl⟩
  | uswz => obtain ⟨hp, _, -, rfl⟩ := permuteW_next_iff.1 h; exact ⟨hp, .ok _, rfl⟩
  | swzb => obtain ⟨hp, _, _, -, -, -, rfl⟩ := permuteRange_next_iff.1 h; exact ⟨hp, _, rfl⟩
  | uswzb => obtain ⟨hp, _, _, -, -, -, rfl⟩ := permuteRange_next_iff.1 h; exact ⟨hp, _, rfl⟩
  | dec => obtain ⟨hp, _, _, _, _, -, -, -, -, rfl⟩ := execDec_next_iff.1 h; exact ⟨hp, _, rfl⟩
  | enc => obtain ⟨hp, _, _, _, -, -, -, rfl⟩ := execEnc_next_iff.1 h; exact ⟨hp, .ok _, rfl⟩
  | decc =>
    obtain ⟨hp, rfl⟩ := execDecc_next_iff.1 h
    refine ⟨by simp [acceptedIn, hp], ?_⟩
    split
    · exact ⟨.error _, rfl⟩
    · split
      · exact ⟨.error _, rfl⟩
      · exact ⟨.ok _, rfl⟩
  | ldblk =>
    obtain ⟨hp, _, _, -, -, -, -, rfl⟩ := execLdblk_next_iff.1 h; exact ⟨by simp [acceptedIn, hp], .ok _, rfl⟩
  | close => obtain ⟨hp, rfl⟩ := execClose_next_iff.1 h; exact ⟨by simp [acceptedIn, hp], .ok _, rfl⟩
  | begin => obtain ⟨hp, rfl⟩ := execBegin_next_iff.1 h; exact ⟨by simp [acceptedIn, hp], .ok _, rfl⟩
  | append =>
    obtain ⟨hp, _, _, _, _, _, -, -, -, -, -, -, -, rfl⟩ := execAppend_next_iff.1 h
    exact ⟨by simp [acceptedIn, hp], .ok _, rfl⟩
  | encc =>
    obtain ⟨hp, _, _, _, _, -, -, -, -, -, rfl⟩ := execEncc_next_iff.1 h
    exact ⟨by simp [acceptedIn, hp], .ok _, rfl⟩

/-- What is no next state is a refusal: there is no fault. -/
theorem refused_of_no_next {o : Host.Outcome State Fault Refusal} (h : ∀ t, o ≠ .next t) : ∃ r, o = .refused r := by
  rcases o with t | f | r
  · exact absurd rfl (h t)
  · cases f
  · exact ⟨r, rfl⟩

/-! ### Host moves -/

/-- What every host move but a command and `RESET` leaves alone; outside `IDLE` the frame too (R34). -/
theorem move_keeps {m : HostMove} {s t : State} (hm : m.isCommand = false) (hr : m ≠ .reset)
    (h : perform m s = .next t) :
    t.ph = s.ph ∧ t.key = s.key ∧ t.ecnt = s.ecnt ∧ t.hcrc = s.hcrc ∧ t.hnblk = s.hnblk ∧ t.inbox = s.inbox ∧
      (s.ph ≠ .idle → t.frame = s.frame ∧ t.flen = s.flen) := by
  cases m with
  | reset => exact absurd rfl hr
  | readReg n => obtain ⟨v, -, rfl⟩ := deliver_next_iff.1 h; exact ⟨rfl, rfl, rfl, rfl, rfl, rfl, fun _ => ⟨rfl, rfl⟩⟩
  | writeReg n v =>
    simp [HostMove.isCommand] at hm
    simp only [perform] at h
    unfold writeRegister at h
    split at h <;>
      first
      | (cases h; exact ⟨rfl, rfl, rfl, rfl, rfl, rfl, fun _ => ⟨rfl, rfl⟩⟩)
      | cases h
      | exact absurd rfl hm
  | readBlock i => obtain ⟨v, -, rfl⟩ := deliver_next_iff.1 h; exact ⟨rfl, rfl, rfl, rfl, rfl, rfl, fun _ => ⟨rfl, rfl⟩⟩
  | writeBlock i b => obtain ⟨-, rfl⟩ := permit_next_iff.1 h; exact ⟨rfl, rfl, rfl, rfl, rfl, rfl, fun _ => ⟨rfl, rfl⟩⟩
  | loadFrame bs =>
    obtain ⟨h1, rfl⟩ := permit_next_iff.1 h
    exact ⟨rfl, rfl, rfl, rfl, rfl, rfl, fun h => absurd (mayLoadFrame_ok_iff.1 h1).1 h⟩
  | readFrame a => obtain ⟨v, -, rfl⟩ := deliver_next_iff.1 h; exact ⟨rfl, rfl, rfl, rfl, rfl, rfl, fun _ => ⟨rfl, rfl⟩⟩
  | writeFrame a b =>
    obtain ⟨h1, rfl⟩ := permit_next_iff.1 h
    exact ⟨rfl, rfl, rfl, rfl, rfl, rfl, fun h => absurd (mayWriteFrame_ok_iff.1 h1).1 h⟩

/-- A command move that has a next state ran a decoded command (R131). -/
theorem command_move {m : HostMove} {s t : State} (hm : m.isCommand = true) (h : perform m s = .next t) :
    ∃ v i, m = .writeReg 0 v ∧ decode (v.setWidth 32) = .ok i ∧ exec i s = .next t := by
  cases m <;> simp [HostMove.isCommand] at hm
  subst hm
  rename_i v
  obtain ⟨-, i, hi, h⟩ := issue_next_iff.1 h
  refine ⟨v, i, rfl, ?_, h⟩
  rw [← hi]
  congr 1

/-! ### Steps and sequences of moves -/

/-- Everything a step can be: waiting, the reset move, a command, another host move. -/
theorem step_next_cases {s t : State} (h : step s = .next t) :
    t = s ∨ ∃ rest,
      (s.inbox = .reset :: rest ∧ t = State.afterReset { s with inbox := rest }) ∨
      (∃ v i, s.inbox = .writeReg 0 v :: rest ∧ decode (v.setWidth 32) = .ok i ∧
        exec i { s with inbox := rest } = .next t) ∨
      (∃ m, s.inbox = m :: rest ∧ m.isCommand = false ∧ m ≠ .reset ∧ perform m { s with inbox := rest } = .next t) := by
  rcases step_next_iff.1 h with ⟨-, rfl⟩ | ⟨m, rest, hi, hp⟩
  · exact .inl rfl
  · refine .inr ⟨rest, ?_⟩
    rcases hc : m.isCommand
    · by_cases hr : m = .reset
      · subst hr; cases hp; exact .inl ⟨hi, rfl⟩
      · exact .inr (.inr ⟨m, hi, hc, hr, hp⟩)
    · obtain ⟨v, i, rfl, hd, hx⟩ := command_move hc hp
      exact .inr (.inl ⟨v, i, hi, hd, hx⟩)

@[simp] theorem performAll_nil (s : State) : performAll [] s = .next s := rfl

theorem andThen_next_iff {α β : Type} {x : Host.Outcome α Fault Refusal} {f : α → Host.Outcome β Fault Refusal} {b : β} :
    andThen x f = .next b ↔ ∃ a, x = .next a ∧ f a = .next b := by
  cases x <;> simp [andThen]

@[simp] theorem andThen_next {α β : Type} (a : α) (f : α → Host.Outcome β Fault Refusal) :
    andThen (.next a) f = f a := rfl

theorem performAll_cons {m : HostMove} {ms : List HostMove} {s t : State} (h : perform m s = .next t) :
    performAll (m :: ms) s = performAll ms t := by
  simp only [performAll, h, andThen_next]

theorem performAll_append {a b : List HostMove} {s t : State} (h : performAll a s = .next t) :
    performAll (a ++ b) s = performAll b t := by
  induction a generalizing s with
  | nil => cases h; rfl
  | cons m a ih =>
    obtain ⟨u, hu, h⟩ := andThen_next_iff.1 h
    rw [List.cons_append, performAll_cons hu]
    exact ih h

/-- `BWR i..j, bytes`, R71: all the bytes written, and nothing else. -/
theorem performAll_blockWrites (bs : List Byte) (i : Nat) (s : State) (h : i + bs.length ≤ 260) :
    performAll (blockWrites i bs) s = .next { s with bdata := Memory.putBytes .bdata s.bdata i bs } := by
  induction bs generalizing i s with
  | nil => rfl
  | cons b bs ih =>
    simp only [List.length_cons] at h
    have hb : perform (.writeBlock i b) s = .next { s with bdata := Memory.put .bdata s.bdata i b } :=
      permit_next_iff.2 ⟨require_ok_iff.2 (by simp [Config.plainLength]; omega), rfl⟩
    rw [blockWrites, performAll_cons hb, ih _ _ (by omega)]
    rfl

/-! ### Reading a block out -/

/-- `BRD i`, `BRD i+1`, …: the bytes read, and nothing else changed. -/
theorem performAll_blockReads (bs : List Byte) (i : Nat) (s : State) (hi : i + bs.length ≤ Config.plainLength)
    (h : ∀ j, j < bs.length → s.blockByte (i + j) = bs[j]?) :
    performAll ((List.range' i bs.length).map .readBlock) s =
      .next { s with replies := (bs.map (·.setWidth 64)).reverse ++ s.replies } := by
  induction bs generalizing i s with
  | nil => rfl
  | cons b bs ih =>
    simp only [List.length_cons] at hi h
    have hb : perform (.readBlock i) s = .next { s with replies := b.setWidth 64 :: s.replies } :=
      deliver_next_iff.2 ⟨_, readBlockByte_ok_iff.2 ⟨by omega, b, h 0 (by omega), rfl⟩, rfl⟩
    rw [List.length_cons, List.range'_succ, List.map_cons, performAll_cons hb, ih (i + 1) _ (by omega)]
    · simp
    · intro j hj
      have := h (j + 1) (by omega)
      rwa [Nat.add_right_comm i 1 j]

/-- The moves that emit a tuple, where the block buffer and the three registers hold values: the host learns the 260 bytes
and then the three words, in that order, and nothing else changes. -/
theorem performAll_emitMoves {s : State} {p : List Byte} {index unknown pad : Word} (hp : s.blockBytes = some p)
    (hi : s.bidx = some index) (hu : s.bunk = some unknown) (hd : s.bpad = some pad) :
    performAll emitMoves s = .next { s with
      replies := (p.map (·.setWidth 64) ++ [index.setWidth 64, unknown.setWidth 64, pad.setWidth 64]).reverse
        ++ s.replies } := by
  obtain ⟨hl, hg⟩ := (Memory.collect_eq_some_iff ..).1 hp
  have hr := performAll_blockReads p 0 s (by omega) (fun j hj => by
    rw [Nat.zero_add]
    have := hg j (by omega)
    rwa [Nat.zero_add] at this)
  rw [hl] at hr
  have e11 : ∀ t : State, t.bidx = some index → perform (.readReg 11) t = .next (t.reply (index.setWidth 64)) :=
    fun t h => deliver_next_iff.2 ⟨_, by simp [readRegister, operand32, operand, h], rfl⟩
  have e12 : ∀ t : State, t.bunk = some unknown → perform (.readReg 12) t = .next (t.reply (unknown.setWidth 64)) :=
    fun t h => deliver_next_iff.2 ⟨_, by simp [readRegister, operand32, operand, h], rfl⟩
  have e13 : ∀ t : State, t.bpad = some pad → perform (.readReg 13) t = .next (t.reply (pad.setWidth 64)) :=
    fun t h => deliver_next_iff.2 ⟨_, by simp [readRegister, operand32, operand, h], rfl⟩
  rw [emitMoves, List.range_eq_range', performAll_append hr, performAll_cons (e11 _ (by exact hi)),
    performAll_cons (e12 _ (by exact hu)), performAll_cons (e13 _ (by exact hd))]
  simp [State.reply]

/-- The host's tuple is the parse of the 260 bytes it read, and the three words. -/
theorem tupleOfReads_eq (p : List Byte) (index unknown pad : Word) (h : p.length = Config.plainLength) :
    tupleOfReads (p.map (·.setWidth 64) ++ [index.setWidth 64, unknown.setWidth 64, pad.setWidth 64]) =
      ⟨(parsePlain p).1, (parsePlain p).2, index, unknown, pad⟩ := by
  have hl : (p.map (·.setWidth 64) : List Dword).length = Config.plainLength := by rw [List.length_map, h]
  have hp : (p.map (·.setWidth 64 : Byte → Dword)).map (·.setWidth 8) = p := by
    rw [List.map_map, List.map_congr_left (g := id) (fun x _ => by simp), List.map_id]
  simp only [tupleOfReads]
  rw [List.take_left' hl, hp]
  simp [List.getD_eq_getElem?_getD, h]

/-- Emitting a tuple: what the block buffer and the three registers hold, read out and nothing else changed. -/
theorem emitTuple_next {r : DecodeReport} {p : List Byte} {index unknown pad : Word}
    (hp : r.state.blockBytes = some p) (hi : r.state.bidx = some index) (hu : r.state.bunk = some unknown)
    (hd : r.state.bpad = some pad) :
    emitTuple r = .next { r with
      state := { r.state with
        replies := (p.map (·.setWidth 64) ++ [index.setWidth 64, unknown.setWidth 64, pad.setWidth 64]).reverse
          ++ r.state.replies }
      emitted := r.emitted ++ [⟨(parsePlain p).1, (parsePlain p).2, index, unknown, pad⟩] } := by
  have hl : p.length = Config.plainLength := Memory.collect_length hp
  have ht : (p.map (·.setWidth 64) ++ [index.setWidth 64, unknown.setWidth 64, pad.setWidth 64] : List Dword).reverse.length
      = emitMoves.length := by
    simp [emitMoves, hl]
  rw [emitTuple, performAll_emitMoves hp hi hu hd, andThen_next]
  simp only
  rw [List.take_left' ht, List.reverse_reverse, tupleOfReads_eq p _ _ _ hl]

/-- `DECODE_ALL` at a block that passes: the tuple is emitted and the loop goes on. -/
theorem decodeBlocks_passed {goOn : Nat → Bool} {left k : Nat} {r : DecodeReport} {t : State}
    (h : performAll (loadBlockMoves k ++ [commandMove .dec]) r.state = .next t) (he : t.err = 0#3) :
    decodeBlocks goOn (left + 1) k r = andThen (emitTuple { r with state := t }) (decodeBlocks goOn left (k + 1)) := by
  rw [decodeBlocks, h, andThen_next, if_pos he]

/-- `DECODE_ALL` at a block that fails: its number is recorded and the host goes on or stops. -/
theorem decodeBlocks_failed {goOn : Nat → Bool} {left k : Nat} {r : DecodeReport} {t : State}
    (h : performAll (loadBlockMoves k ++ [commandMove .dec]) r.state = .next t) (he : t.err ≠ 0#3) :
    decodeBlocks goOn (left + 1) k r =
      if goOn k then decodeBlocks goOn left (k + 1) { r with state := t, failed := r.failed ++ [k] }
      else .next { r with state := t, failed := r.failed ++ [k] } := by
  rw [decodeBlocks, h, andThen_next, if_neg he]

end Sys2Proof.Machine
end

