-- ==== Sys2Proof/Laws/PerInstr.lean ====
section
/-! SUPPORT. The family `EncodingShape`: what R59 and R67 say of the word of each command. -/
namespace Sys2Proof.Laws.EncodingShape

/-- R59, R67: the word of the command has its opcode in bits 7..0 and zeros above, the opcode is an assigned one,
and the word passes the check of `WellFormed.lean`. -/
def Statement (i : Instr) : Prop :=
  (encode i).extractLsb' 8 24 = 0#24 ∧ (encode i).extractLsb' 0 8 = opcode i ∧
    1 ≤ (opcode i).toNat ∧ (opcode i).toNat ≤ 14 ∧ commandWordWellFormed (encode i) = true

theorem ldkey : Statement .ldkey := by unfold Statement; decide
theorem crc : Statement .crc := by unfold Statement; decide
theorem swz : Statement .swz := by unfold Statement; decide
theorem uswz : Statement .uswz := by unfold Statement; decide
theorem swzb : Statement .swzb := by unfold Statement; decide
theorem uswzb : Statement .uswzb := by unfold Statement; decide
theorem dec : Statement .dec := by unfold Statement; decide
theorem enc : Statement .enc := by unfold Statement; decide
theorem decc : Statement .decc := by unfold Statement; decide
theorem ldblk : Statement .ldblk := by unfold Statement; decide
theorem close : Statement .close := by unfold Statement; decide
theorem begin : Statement .begin := by unfold Statement; decide
theorem append : Statement .append := by unfold Statement; decide
theorem encc : Statement .encc := by unfold Statement; decide

end Sys2Proof.Laws.EncodingShape
end

