-- ==== Sys2Proof/Laws/Transform.lean ====
section
/-! SUPPORT. What the CRC step, the XOR stages and the word map do, each said once. -/
namespace Sys2Proof.Machine

/-! ### The CRC bit step -/

theorem crcBit_eq (c : Word) : crcBit c = (c >>> 1) ^^^ (if c.getLsbD 0 then Config.poly else 0#32) := by
  unfold crcBit; split <;> simp

/-- The bit step is linear over exclusive or. -/
theorem crcBit_xor (a b : Word) : crcBit (a ^^^ b) = crcBit a ^^^ crcBit b := by
  simp only [crcBit_eq, BitVec.ushiftRight_xor_distrib, BitVec.getLsbD_xor]
  generalize a >>> 1 = x
  generalize b >>> 1 = y
  generalize Config.poly = p
  rcases a.getLsbD 0 <;> rcases b.getLsbD 0 <;>
    (ext i hi; simp; try (cases x[i] <;> cases y[i] <;> cases p[i] <;> rfl))

theorem crcByte_eq_iterate (c : Word) (b : Byte) : crcByte c b = crcBit^[8] (c ^^^ b.setWidth 32) := rfl

theorem checksumFrom_nil (c : Word) : checksumFrom c [] = c := rfl

theorem checksumFrom_cons (c : Word) (b : Byte) (s : List Byte) :
    checksumFrom c (b :: s) = checksumFrom (crcByte c b) s := rfl

/-! ### XOR with a pad -/

@[simp] theorem xorPad_length (pad : Nat → Byte) (i : Nat) (s : List Byte) : (xorPad pad i s).length = s.length := by
  induction s generalizing i with
  | nil => rfl
  | cons b s ih => simp [xorPad, ih]

/-- Every byte is XORed with the pad at its position. -/
theorem xorPad_getElem? (pad : Nat → Byte) (i : Nat) (s : List Byte) (j : Nat) :
    (xorPad pad i s)[j]? = (s[j]?).map (· ^^^ pad (i + j)) := by
  induction s generalizing i j with
  | nil => simp [xorPad]
  | cons b s ih =>
    cases j with
    | zero => simp [xorPad]
    | succ j => simp [xorPad, ih, Nat.add_assoc, Nat.add_comm 1]

/-- The same pad twice gives the bytes back. -/
theorem xorPad_xorPad (p : Nat → Byte) (s : List Byte) : xorPad p 0 (xorPad p 0 s) = s := by
  refine List.ext_getElem? fun j => ?_
  simp only [xorPad_getElem?, Option.map_map]
  cases s[j]? <;> simp

@[simp] theorem xorKey_length (key s : List Byte) (k : Nat) : (xorKey key s k).length = s.length := by
  simp [xorKey]

@[simp] theorem xorHk_length (s h : List Byte) : (xorHk s h).length = s.length := by
  simp [xorHk]

/-! ### The word map -/

/-- A word function that acts byte lane by byte lane acts on a buffer byte by byte. `inv` is that the four bytes of
a little-endian word are the bytes it was made of. -/
theorem mapWords_of_lanes {f : Word → Word} {g : Byte → Byte}
    (hf : ∀ w j, j < 4 → byteOf (f w) j = g (byteOf w j))
    (inv : ∀ a b c d : Byte, bytesLe32 (le32 [a, b, c, d]) = [a, b, c, d]) :
    ∀ s : List Byte, s.length % 4 = 0 → mapWords f s = s.map g
  | [], _ => rfl
  | [_], h => by simp at h
  | [_, _], h => by simp at h
  | [_, _, _], h => by simp at h
  | a :: b :: c :: d :: r, h => by
    have hr : r.length % 4 = 0 := by simp at h; omega
    have hb := inv a b c d
    simp only [bytesLe32, List.cons.injEq, and_true] at hb
    simp only [mapWords, bytesLe32, hf _ 0 (by omega), hf _ 1 (by omega), hf _ 2 (by omega), hf _ 3 (by omega), hb,
      mapWords_of_lanes hf inv r hr]
    rfl

theorem mapWords_length (f : Word → Word) : ∀ s : List Byte, s.length % 4 = 0 → (mapWords f s).length = s.length
  | [], _ => rfl
  | [_], h => by simp at h
  | [_, _], h => by simp at h
  | [_, _, _], h => by simp at h
  | a :: b :: c :: d :: r, h => by
    have hr : r.length % 4 = 0 := by simp at h; omega
    simp [mapWords, bytesLe32, mapWords_length f r hr]

/-- Both directions of the transform keep the length of a sequence of whole words (R96). -/
theorem decipher_length (key : List Byte) (index : Word) (s : List Byte) (h : s.length % 4 = 0) :
    (decipher key index s).length = s.length := by
  simp only [decipher]
  rw [mapWords_length _ _ (by simpa using h)]
  simp

theorem encipher_length (key : List Byte) (index : Word) (s : List Byte) (h : s.length % 4 = 0) :
    (encipher key index s).length = s.length := by
  simp [encipher, mapWords_length _ _ h]

end Sys2Proof.Machine
end

