-- ==== Sys2Proof/Tests/Slice0.lean ====
section
/-! SUPPORT. Tests: words written out bit by bit, ill-formed words, one step per command with the values of
95_test_vectors.md and of the rules' own examples, and for every statement that has hypotheses a state that meets
them (`witness_…`), clause by clause at the bounds. -/
namespace Sys2Proof.Tests
open Sys2Proof Sys2Proof.Machine

/-! ### Decoding: the words of R66 written out bit by bit -/

theorem test_decode_ldkey : decode 0b00000000000000000000000000000001#32 = .ok .ldkey := by decide
theorem test_decode_crc : decode 0b00000000000000000000000000000010#32 = .ok .crc := by decide
theorem test_decode_swz : decode 0b00000000000000000000000000000011#32 = .ok .swz := by decide
theorem test_decode_uswz : decode 0b00000000000000000000000000000100#32 = .ok .uswz := by decide
theorem test_decode_swzb : decode 0b00000000000000000000000000000101#32 = .ok .swzb := by decide
theorem test_decode_uswzb : decode 0b00000000000000000000000000000110#32 = .ok .uswzb := by decide
theorem test_decode_dec : decode 0b00000000000000000000000000000111#32 = .ok .dec := by decide
theorem test_decode_enc : decode 0b00000000000000000000000000001000#32 = .ok .enc := by decide
theorem test_decode_decc : decode 0b00000000000000000000000000001001#32 = .ok .decc := by decide
theorem test_decode_ldblk : decode 0b00000000000000000000000000001010#32 = .ok .ldblk := by decide
theorem test_decode_close : decode 0b00000000000000000000000000001011#32 = .ok .close := by decide
theorem test_decode_begin : decode 0b00000000000000000000000000001100#32 = .ok .begin := by decide
theorem test_decode_append : decode 0b00000000000000000000000000001101#32 = .ok .append := by decide
theorem test_decode_encc : decode 0b00000000000000000000000000001110#32 = .ok .encc := by decide

/-- R67: the two ends of the reserved opcodes, and a set bit above the opcode. -/
theorem test_decode_reserved :
    decode 0x00000000#32 = .error .reservedOpcode ∧ decode 0x0000000F#32 = .error .reservedOpcode ∧
    decode 0x000000FF#32 = .error .reservedOpcode ∧ decode 0x00000102#32 = .error .highBitsSet ∧
    decode 0x80000001#32 = .error .highBitsSet := by decide

theorem test_table_word :
    decodeTableWord 32 0x0E = some .encc ∧ decodeTableWord 8 0x09 = some .decc ∧ decodeTableWord 32 0x0F = none ∧
    decodeTableWord 40 0x100000001 = none := by decide

/-! ### Well-formedness: a word that each check refuses (R59, R67) -/

theorem test_high_bits_refused : highBitsClear 0x00000102#32 = false ∧ commandWordWellFormed 0x00000102#32 = false := by
  decide
theorem test_opcode_zero_refused : opcodeAssigned 0x00000000#32 = false ∧ commandWordWellFormed 0x00000000#32 = false := by
  decide
theorem test_opcode_fifteen_refused : opcodeAssigned 0x0000000F#32 = false ∧ highBitsClear 0x0000000F#32 = true := by
  decide
theorem test_command_word_accepted : commandWordWellFormed 0x0000000E#32 = true := by decide

/-! ### States for the tests -/

/-- A value read from the next state, if there is one. -/
def after {α β : Type} (f : β → α) : Host.Outcome β Fault Refusal → Option α
  | .next t => some (f t)
  | .fault _ => none
  | .refused _ => none

/-- Fixture key `K0` of 95_test_vectors.md: 516 zero bytes. -/
def keyZero : List Byte := List.replicate 516 0#8

/-- `IDLE` with the key `K0` and a frame of room `cap`. -/
def idleState (cap : Nat) (frame : List Byte) : State :=
  { (State.resetWith ⟨keyZero, cap⟩).setFrame frame with ph := .idle, key := Memory.ofBytes .key 0 keyZero }

def withArgs (s : State) (a n : Dword) : State := { s with arg0 := some a, arg1 := some n }

/-- `OPEN`, `BUILD` with the same key: only what the witnesses need of them. -/
def openState (frame : List Byte) (n : Word) : State := { idleState 1000 frame with ph := .opened, hnblk := some n }

/-- All four block registers and all of `BDATA` written. -/
def withBlock (s : State) (crc index : Word) (data : List Byte) : State :=
  { s.setBdata data with bcrc := some crc, bidx := some index, bunk := some 0x00000000#32, bpad := some 0x00000000#32 }

/-- `BUILD` just after `BEGIN`, header registers and block registers written. -/
def buildState (cap : Nat) : State :=
  { withBlock (idleState cap (List.replicate 16 0#8)) 0x95C0E74A#32 0x12345678#32 (List.replicate 260 0#8) with
    ph := .building, hminor := some 0x01#8, hmajor := some 0x07#8, hmagic := some 0x0000#16, hpad := some 0x00000000#32 }

/-- The nine bytes `123456789` of R77. -/
def digits : List Byte := [0x31#8, 0x32#8, 0x33#8, 0x34#8, 0x35#8, 0x36#8, 0x37#8, 0x38#8, 0x39#8]

/-- The empty container of R112's example. -/
def emptyContainer : List Byte :=
  [0x01#8, 0x07#8, 0#8, 0#8, 0xFF#8, 0xFF#8, 0xFF#8, 0xFF#8, 0#8, 0#8, 0#8, 0#8, 0#8, 0#8, 0#8, 0#8]

/-- A container without blocks and with one trailing byte (R122); `checksum [00]` is V-CK-2. -/
def trailingContainer : List Byte :=
  [0x01#8, 0x07#8, 0#8, 0#8, 0x72#8, 0x10#8, 0xFD#8, 0x2D#8, 0#8, 0#8, 0#8, 0#8, 0#8, 0#8, 0#8, 0#8, 0#8]

/-- The first 214 bytes of the fixture key `KR`, `KEY[i] = i mod 256`: all that R104's example reads. -/
def rampKey : List Byte := (List.range 214).map (BitVec.ofNat 8)

/-- The plaintext of V-BT-1: the address 0x08005000, then 256 zero bytes. -/
def plainZero : List Byte := [0x00#8, 0x50#8, 0x00#8, 0x08#8] ++ List.replicate 256 0#8

theorem keyZero_length : keyZero.length = 516 := List.length_replicate

theorem plainZero_length : plainZero.length = 260 := by
  rw [plainZero, List.length_append, List.length_replicate]
  rfl

theorem zeros_length : (List.replicate 260 0#8).length = 260 := List.length_replicate

/-! ### One step of each command -/

/-- R125's example: a key of 516 bytes. -/
theorem test_ldkey_ok : after State.ph (exec .ldkey (State.resetWith ⟨keyZero, 16⟩)) = some .idle := by decide +kernel
/-- R125's example: 515 bytes, `STATUS = 0x00001057`. -/
theorem test_ldkey_short :
    after State.status (exec .ldkey (State.resetWith ⟨List.replicate 515 0#8, 16⟩)) = some 0x00001057#32 := by
  decide +kernel
/-- R79's example. -/
theorem test_crc_digits :
    after State.crcr (exec .crc (withArgs (idleState 100 digits) 0#64 9#64)) = some (some 0x340BC6D9#32) := by
  decide +kernel
/-- R79's example: `CRC 9, 0`. -/
theorem test_crc_empty :
    after State.crcr (exec .crc (withArgs (idleState 100 digits) 9#64 0#64)) = some (some 0xFFFFFFFF#32) := by
  decide +kernel
/-- R88's example. -/
theorem test_swz : after State.w (exec .swz { idleState 100 [] with w := some 0x12345678#32 }) =
    some (some 0x4286CA0F#32) := by decide +kernel
/-- R89's example. -/
theorem test_uswz : after State.w (exec .uswz { idleState 100 [] with w := some 0x12345678#32 }) =
    some (some 0x90A1B2C3#32) := by decide +kernel
/-- R90's example. -/
theorem test_swzb :
    after (fun t => t.memRead 0 8)
      (exec .swzb (withArgs (idleState 100 [0x01#8, 0x02#8, 0x03#8, 0x04#8, 0x05#8, 0x06#8, 0x07#8, 0x08#8]) 0#64 8#64)) =
    some [0x20#8, 0x40#8, 0x60#8, 0x80#8, 0xA0#8, 0xC0#8, 0xE0#8, 0x01#8] := by decide +kernel
/-- R90's example: `SWZB 0, 6` raises `MalformedLength`. -/
theorem test_swzb_length :
    after State.err (exec .swzb (withArgs (idleState 100 digits) 0#64 6#64)) = some 4#3 := by decide +kernel
/-- R91's example. -/
theorem test_uswzb :
    after (fun t => t.memRead 0 8)
      (exec .uswzb (withArgs (idleState 100 [0x01#8, 0x02#8, 0x03#8, 0x04#8, 0x05#8, 0x06#8, 0x07#8, 0x08#8]) 0#64 8#64)) =
    some [0x08#8, 0x10#8, 0x18#8, 0x20#8, 0x28#8, 0x30#8, 0x38#8, 0x40#8] := by decide +kernel
/-- R104's example, key `KR`: the first eight bytes of V-BT-2 through stages K, H, P. -/
theorem test_dec_stages :
    decipher rampKey 0x12345678#32 [0xC1#8, 0x0F#8, 0x56#8, 0x92#8, 0xDD#8, 0x19#8, 0x52#8, 0x97#8] =
      [0x00#8, 0x50#8, 0x00#8, 0x08#8, 0x00#8, 0x00#8, 0x00#8, 0x00#8] := by decide +kernel
/-- R105's example, key `KR`, the other way. -/
theorem test_enc_stages :
    encipher rampKey 0x12345678#32 [0x00#8, 0x50#8, 0x00#8, 0x08#8, 0x00#8, 0x00#8, 0x00#8, 0x00#8] =
      [0xC1#8, 0x0F#8, 0x56#8, 0x92#8, 0xDD#8, 0x19#8, 0x52#8, 0x97#8] := by decide +kernel
/-- R105: `ENC` runs with `BCRC`, `BUNK`, `BPAD` undefined. -/
theorem test_enc_runs :
    ∃ t, exec .enc { (idleState 100 []).setBdata plainZero with bidx := some 0x12345678#32 } = .next t ∧
      t.bcrc = some (checksum plainZero) ∧ t.bunk = none :=
  ⟨_, execEnc_next_iff.2 ⟨rfl, 0x12345678#32, plainZero, keyZero, rfl,
    Memory.collect_ofBytes _ _ _ plainZero_length, Memory.collect_ofBytes _ _ _ keyZero_length, rfl⟩, rfl, rfl⟩
/-- R104: one byte of `BDATA` undefined, `DEC` is refused. -/
theorem test_dec_refused :
    exec .dec { withBlock (idleState 100 []) 0#32 0#32 [] with bdata := [(259, 0#8)] } =
      .refused (.undefOperand .bdata) := by rfl
/-- R112's example. -/
theorem test_decc : after (fun t => (t.ph, t.hcrc, t.hnblk)) (exec .decc (idleState 100 emptyContainer)) =
    some (.opened, some 0xFFFFFFFF#32, some 0#32) := by decide +kernel
/-- R112's example with byte 12 set to 01. -/
theorem test_decc_truncated : after State.err (exec .decc (idleState 100 (emptyContainer.set 12 0x01#8))) = some 1#3 := by
  decide +kernel
/-- R113 on a record that holds the bytes of R116's example. -/
theorem test_ldblk :
    after (fun t => (t.bcrc, t.bidx))
      (exec .ldblk (withArgs (openState (List.replicate 16 0#8 ++
        [0x4A#8, 0xE7#8, 0xC0#8, 0x95#8, 0x78#8, 0x56#8, 0x34#8, 0x12#8] ++ List.replicate 268 0#8) 1#32) 0#64 0#64)) =
    some (some 0x95C0E74A#32, some 0x12345678#32) := by decide +kernel
/-- R113's example: `LDBLK 1` is refused. -/
theorem test_ldblk_refused :
    exec .ldblk (withArgs (openState (List.replicate 292 0#8) 1#32) 1#64 0#64) = .refused .blockNumber := by rfl
/-- R114's example. -/
theorem test_close : after State.ph (exec .close (openState emptyContainer 0#32)) = some .idle := by decide +kernel
/-- R115's example. -/
theorem test_begin : after (fun t => (t.ph, t.flen, t.ecnt)) (exec .begin (idleState 16 digits)) =
    some (.building, 16, 0#32) := by decide +kernel
/-- R116's example: the first 8 bytes of the record. -/
theorem test_append : ∃ t, exec .append (buildState 292) = .next t ∧ t.flen = 292 ∧ t.ecnt = 1#32 ∧
    t.memRead 16 8 = [0x4A#8, 0xE7#8, 0xC0#8, 0x95#8, 0x78#8, 0x56#8, 0x34#8, 0x12#8] :=
  ⟨_, execAppend_next_iff.2 ⟨rfl, 0x95C0E74A#32, 0x12345678#32, 0#32, 0#32, List.replicate 260 0#8, rfl, rfl, rfl, rfl,
    Memory.collect_ofBytes _ _ _ zeros_length, by decide, by decide, rfl⟩,
    by decide +kernel, by decide +kernel, by decide +kernel⟩
/-- R117 and R121: the empty container. -/
theorem test_encc : after State.frameBytes (exec .encc (buildState 16)) = some emptyContainer := by decide +kernel

/-! ### The step -/

/-- `withFetchWord` puts the command first, at reset too; `CRC` is refused there (R124). -/
theorem test_fetch_runs : step (State.reset.withFetchWord 32 0x02) = .refused (.wrongPhase .noKey) := by rfl
/-- A reserved word is refused (R67). -/
theorem test_fetch_reserved : step (State.reset.withFetchWord 32 0x0F) = .refused (.reservedWord .reservedOpcode) := by rfl
/-- With no move waiting the engine waits (log 5). -/
theorem test_step_waits : step State.reset = .next State.reset := by rfl
/-- R72: a `DECC` that ends in an error stops `DECODE_ALL`; nothing is read out. -/
theorem test_decode_all_stops : decodeAll (fun _ => true) (idleState 16 []) =
    .next { state := (idleState 16 []).raise .truncatedInput, emitted := [], failed := [] } := by rfl
/-- R72: of two blocks that fail, the host goes on at the first and stops at the second; both are recorded, nothing is
emitted, no `CLOSE` follows. -/
theorem test_decode_all_choice (r : DecodeReport) (t u : State) (ht : t.err ≠ 0#3) (hu : u.err ≠ 0#3)
    (h0 : performAll (loadBlockMoves 0 ++ [commandMove .dec]) r.state = .next t)
    (h1 : performAll (loadBlockMoves 1 ++ [commandMove .dec]) t = .next u) :
    decodeBlocks (fun k => k == 0) 2 0 r = .next { r with state := u, failed := r.failed ++ [0] ++ [1] } := by
  rw [decodeBlocks_failed h0 ht, if_pos (by decide), decodeBlocks_failed h1 hu, if_neg (by decide)]
/-- R128: `WR HVER` and `RD HVER` use one layout (R32). -/
theorem test_hver :
    after (fun t => (t.hminor, t.hmajor, t.hmagic)) (perform (.writeReg 6 0xABCD0701#64) (idleState 16 [])) =
      some (some 0x01#8, some 0x07#8, some 0xABCD#16) := by decide +kernel

/-! ### Witnesses: states that meet the hypotheses of the statements

A statement is named by the last part of its name; a clause by its place in it. -/

/-- The invariant at a state that a run reaches: `IDLE`, key loaded, a frame loaded. -/
theorem idle_inv (cap : Nat) (frame : List Byte) (hc : 16 ≤ cap) (hf : frame.length ≤ cap) :
    (idleState cap frame).Inv where
  spaces := ⟨Memory.wf_ofBytes _ _ _, Memory.below_ofBytes (Nat.le_of_eq (Nat.zero_add _)), hf, hc, Memory.wf_ofBytes _ _ _,
    Memory.below_ofBytes (by rw [keyZero_length]), rfl, rfl⟩
  key_defined := fun _ => ⟨keyZero, Memory.collect_ofBytes _ _ _ keyZero_length⟩
  unkeyed := by intro h; cases h
  building_length := by intro h; cases h
  building_header := by intro h; cases h
  opened_valid := by intro h; cases h
  err_code := Nat.zero_le _
  err_logged := fun h => absurd rfl h
  dead_iff := ⟨by (intro h; cases h), fun h => absurd (show (0#5).getLsbD 4 = true from h) (by decide)⟩
  dead_err := by intro h; cases h
  fresh := by intro h; cases h
  version_together := ⟨rfl, rfl⟩
  derived_together := rfl

/-- The invariant at a state that a run reaches: `BUILD` just after `BEGIN`. -/
theorem build_inv (cap : Nat) (hc : 16 ≤ cap) : (buildState cap).Inv where
  spaces := ⟨Memory.wf_ofBytes _ _ _, Memory.below_ofBytes (Nat.le_of_eq (Nat.zero_add _)), hc, hc,
    Memory.wf_ofBytes _ _ _, Memory.below_ofBytes (by rw [keyZero_length]), Memory.wf_ofBytes _ _ _,
    Memory.below_ofBytes (by rw [zeros_length])⟩
  key_defined := fun _ => ⟨keyZero, Memory.collect_ofBytes _ _ _ keyZero_length⟩
  unkeyed := by intro h; cases h
  building_length := fun _ => rfl
  building_header := fun _ => rfl
  opened_valid := by intro h; cases h
  err_code := Nat.zero_le _
  err_logged := fun h => absurd rfl h
  dead_iff := ⟨by (intro h; cases h), fun h => absurd (show (0#5).getLsbD 4 = true from h) (by decide)⟩
  dead_err := by intro h; cases h
  fresh := by intro h; cases h
  version_together := ⟨rfl, rfl⟩
  derived_together := rfl

/-- EveryWordIsACommandOrReserved, clause 2: opcodes 0x00, 0x0F, 0xFF and a set bit 8. -/
theorem witness_reserved_words :
    (0x00000000#32).toNat % 256 = 0 ∧ 15 ≤ (0x0000000F#32).toNat % 256 ∧ 15 ≤ (0x000000FF#32).toNat % 256 ∧
    256 ≤ (0x00000101#32).toNat := by decide

/-- StepRunsTheIssuedCommand, clauses 1 to 3: the least and the greatest command word, and an empty inbox. -/
theorem witness_step_runs :
    ({ idleState 16 [] with inbox := [.writeReg 0 1#64] } : State).inbox = .writeReg 0 1#64 :: [] ∧
    (1#64).toNat < 2 ^ 32 ∧ decode ((1#64).setWidth 32) = .ok .ldkey ∧
    ({ idleState 16 [] with inbox := [.writeReg 0 14#64, .reset] } : State).inbox = .writeReg 0 14#64 :: [.reset] ∧
    decode ((14#64).setWidth 32) = .ok .encc ∧ (idleState 16 []).inbox = [] := by
  refine ⟨rfl, by decide, rfl, rfl, rfl, rfl⟩

/-- HeaderFormatRoundTrips, BlockFormatRoundTrips, PlaintextFormatRoundTrips: the lengths, and a defined `BDATA`. -/
theorem witness_formats :
    emptyContainer.length = 16 ∧ (List.replicate 276 0#8).length = 276 ∧ (List.replicate 260 0#8).length = 260 ∧
    (List.replicate 256 0#8).length = 256 ∧ (buildState 292).blockBytes = some (List.replicate 260 0#8) :=
  ⟨rfl, List.length_replicate, zeros_length, List.length_replicate, Memory.collect_ofBytes _ _ _ zeros_length⟩

/-- BurstChangesChecksum: a burst of exactly 32 bits, from bit 1 to bit 32. -/
theorem witness_burst :
    [0#8, 0#8, 0#8, 0#8, 0#8].length = [0x02#8, 0#8, 0#8, 0#8, 0x01#8].length ∧
    [0#8, 0#8, 0#8, 0#8, 0#8] ≠ [0x02#8, 0#8, 0#8, 0#8, 0x01#8] ∧
    (∀ j, j < 1 ∨ 1 + 32 ≤ j →
      bitAt [0#8, 0#8, 0#8, 0#8, 0#8] j = bitAt [0x02#8, 0#8, 0#8, 0#8, 0x01#8] j) := by
  refine ⟨rfl, by decide, fun j hj => ?_⟩
  by_cases h : j < 40
  · revert hj
    revert j
    decide
  · simp only [bitAt]
    rw [List.getD_eq_default _ _ (by simp; omega), List.getD_eq_default _ _ (by simp; omega)]

/-- CrcCommand, clause 2 (`ARG0 + ARG1 = FLEN`, and `N = 0` at `A = FLEN`), clause 3 (`FLEN + 1`), clause 4. -/
theorem witness_crc :
    (withArgs (idleState 100 digits) 0#64 9#64).ph = .idle ∧
    (withArgs (idleState 100 digits) 0#64 9#64).arg0 = some 0#64 ∧
    (withArgs (idleState 100 digits) 0#64 9#64).arg1 = some 9#64 ∧
    (0#64).toNat + (9#64).toNat ≤ (withArgs (idleState 100 digits) 0#64 9#64).flen ∧
    (9#64).toNat + (0#64).toNat ≤ (withArgs (idleState 100 digits) 9#64 0#64).flen ∧
    (withArgs (idleState 100 digits) 8#64 2#64).flen < (8#64).toNat + (2#64).toNat ∧
    (State.resetWith ⟨keyZero, 16⟩).ph = .noKey ∧ (idleState 16 []).arg0 = none := by
  refine ⟨rfl, rfl, rfl, by decide, by decide, by decide, rfl, rfl⟩

/-- SwizzleWiringTable: the last lane and the last bit. -/
theorem witness_wiring : (3 < 4 ∧ 7 < 8) ∧ (swizzle 0x80000000#32).getLsbD (8 * 3 + (7 + 5) % 8) = true := by decide

/-- BufferFormsActByteWise: a length that is a multiple of 4, the last group and byte, a length that is none. -/
theorem witness_buffer_lengths :
    plainZero.length % 4 = 0 ∧ 64 < plainZero.length / 4 ∧ 259 < plainZero.length ∧ digits.length % 4 ≠ 0 ∧
    ([] : List Byte).length % 4 = 0 := by
  rw [plainZero_length]
  decide

/-- SwzCommand and UswzCommand: each keyed phase, and the refusals. -/
theorem witness_swz :
    (({ idleState 16 [] with w := some 5#32 } : State).ph = .idle ∧
      ({ idleState 16 [] with w := some 5#32 } : State).w = some 5#32) ∧
    (openState [] 0#32).ph = .opened ∧ (buildState 16).ph = .building ∧ (idleState 16 []).w = none ∧
    (State.resetWith ⟨[], 16⟩).ph = .noKey := by
  refine ⟨⟨rfl, rfl⟩, rfl, rfl, rfl, rfl⟩

/-- SwzbCommand and UswzbCommand: a range that ends at `FLEN` from an odd address, one of
length 0 at `FLEN`, a length of 6, a range one byte too long, a phase that does not accept them, a canonical frame. -/
theorem witness_swzb :
    (withArgs (idleState 100 digits) 1#64 8#64).ph = .idle ∧
    (1#64).toNat + (8#64).toNat ≤ (withArgs (idleState 100 digits) 1#64 8#64).flen ∧ (8#64).toNat % 4 = 0 ∧
    (9#64).toNat + (0#64).toNat ≤ (withArgs (idleState 100 digits) 9#64 0#64).flen ∧ (0#64).toNat % 4 = 0 ∧
    (6#64).toNat % 4 ≠ 0 ∧ (withArgs (idleState 100 digits) 2#64 8#64).flen < (2#64).toNat + (8#64).toNat ∧
    (openState digits 0#32).ph ≠ .idle ∧
    Memory.wf .frame (withArgs (idleState 100 digits) 1#64 8#64).frame = true := by
  refine ⟨rfl, by decide, by decide, by decide, by decide, by decide, by decide, by decide, Memory.wf_ofBytes _ _ _⟩

/-- KeyStartOffset and TransformClosedForm: the last byte of a block, with an index whose offset is 255. -/
theorem witness_last_byte :
    259 ≤ 259 ∧ kso 0x000000FF#32 = 0xFF#32 ∧ plainZero.length = 260 ∧ keyZero.length = 516 ∧ 259 < 260 :=
  ⟨Nat.le_refl _, by decide, plainZero_length, keyZero_length, by decide⟩

/-- BlockRoundTrip, clauses 1 and 2: a payload, and a block that `decrypt` accepts. -/
theorem witness_round_trip :
    (List.replicate 256 0#8).length = 256 ∧ plainZero.length = 260 ∧
    ∃ fa p, decrypt keyZero (checksum (decipher keyZero 7#32 plainZero)) 7#32 plainZero = .ok (fa, p) := by
  have accepts : ∀ key ct : List Byte,
      decrypt key (checksum (decipher key 7#32 ct)) 7#32 ct = .ok (parsePlain (decipher key 7#32 ct)) := by
    intro key ct
    simp [decrypt, decryptPlain, Except.map]
  exact ⟨List.length_replicate, plainZero_length, _, _, accepts _ _⟩

/-- `IDLE` with a block in the block registers whose checksum is the right one. -/
def goodBlock : State := withBlock (idleState 100 []) (checksum (decipher keyZero 7#32 plainZero)) 7#32 plainZero

/-- The same with one bit of the stored checksum flipped. -/
def badBlock : State :=
  withBlock (idleState 100 []) (checksum (decipher keyZero 7#32 plainZero) ^^^ (1#32 <<< 31)) 7#32 plainZero

theorem xor_bit_ne (x : Word) : x ≠ x ^^^ (1#32 <<< 31) := by
  intro h
  have := congrArg (fun v => v.getLsbD 31) h
  simp at this

/-- DecCommand: clause 2 with the right checksum and with a wrong one, clause 3 with `BDATA[259]` undefined. -/
theorem witness_dec :
    goodBlock.ph = .idle ∧ goodBlock.bidx = some 7#32 ∧ goodBlock.blockBytes = some plainZero ∧
    goodBlock.keyBytes = some keyZero ∧ goodBlock.bcrc = some (checksum (decipher keyZero 7#32 plainZero)) ∧
    badBlock.blockBytes = some plainZero ∧
    badBlock.bcrc = some (checksum (decipher keyZero 7#32 plainZero) ^^^ (1#32 <<< 31)) ∧
    checksum (decipher keyZero 7#32 plainZero) ≠ checksum (decipher keyZero 7#32 plainZero) ^^^ (1#32 <<< 31) ∧
    259 < 260 ∧ (idleState 16 []).blockByte 259 = none ∧ (idleState 16 []).bidx = none :=
  ⟨rfl, rfl, Memory.collect_ofBytes _ _ _ plainZero_length, Memory.collect_ofBytes _ _ _ keyZero_length, rfl,
    Memory.collect_ofBytes _ _ _ plainZero_length, rfl, xor_bit_ne _, by decide, rfl, rfl⟩

/-- EncCommand, in `OPEN` and with `BCRC` undefined; its clause 3. -/
theorem witness_enc :
    ({ (openState [] 0#32).setBdata plainZero with bidx := some 7#32 } : State).ph = .opened ∧
    ({ (openState [] 0#32).setBdata plainZero with bidx := some 7#32 } : State).bidx = some 7#32 ∧
    ({ (openState [] 0#32).setBdata plainZero with bidx := some 7#32 } : State).blockBytes = some plainZero ∧
    ({ (openState [] 0#32).setBdata plainZero with bidx := some 7#32 } : State).keyBytes = some keyZero ∧
    (idleState 16 []).bidx = none ∧ (idleState 16 []).blockByte 0 = none :=
  ⟨rfl, rfl, Memory.collect_ofBytes _ _ _ plainZero_length, Memory.collect_ofBytes _ _ _ keyZero_length, rfl, rfl⟩

/-- A block with bit 7 of its last cipher byte flipped. -/
def flippedBlock : State :=
  withBlock (idleState 100 []) (checksum (decipher keyZero 7#32 plainZero)) 7#32
    (plainZero.set 259 (plainZero.getD 259 0#8 ^^^ (1#8 <<< 7)))

/-- SingleBitFlipIsDetected: clause 1 at the last bit of the last byte, clause 2 at bit 31. -/
theorem witness_bit_flip :
    flippedBlock.ph = .idle ∧ flippedBlock.bcrc = some (checksum (decipher keyZero 7#32 plainZero)) ∧
    flippedBlock.bidx = some 7#32 ∧ flippedBlock.keyBytes = some keyZero ∧ plainZero.length = 260 ∧ 259 < 260 ∧ 7 < 8 ∧
    flippedBlock.blockBytes = some (plainZero.set 259 (plainZero.getD 259 0#8 ^^^ (1#8 <<< 7))) ∧
    badBlock.bcrc = some (checksum (decipher keyZero 7#32 plainZero) ^^^ (1#32 <<< 31)) ∧ badBlock.ph = .idle ∧
    badBlock.keyBytes = some keyZero ∧ badBlock.blockBytes = some plainZero ∧ 31 < 32 :=
  ⟨rfl, rfl, rfl, Memory.collect_ofBytes _ _ _ keyZero_length, plainZero_length, by decide, by decide,
    Memory.collect_ofBytes _ _ _ (by rw [List.length_set, plainZero_length]), rfl, rfl,
    Memory.collect_ofBytes _ _ _ keyZero_length, Memory.collect_ofBytes _ _ _ plainZero_length, by decide⟩

/-- One block record, for the witnesses of the container statements. -/
def oneBlock : BlockRecord := ⟨1#32, 2#32, 3#32, 4#32, List.replicate 260 0#8⟩

theorem oneBlock_length : ∀ b ∈ [oneBlock], b.cipherData.length = 260 := by
  intro b hb
  rw [List.mem_singleton] at hb
  subst hb
  exact zeros_length

/-- ContainerRoundTrip, clauses 1 and 2: one block; the empty container, which decodes and has no trailing byte. -/
theorem witness_container :
    [oneBlock].length < 2 ^ 32 ∧ (∀ b ∈ [oneBlock], b.cipherData.length = 260) ∧
    decodeContainer emptyContainer = .ok (⟨0x01#8, 0x07#8, 0#16, 0xFFFFFFFF#32, 0#32, 0#32⟩, []) ∧
    emptyContainer.length = 16 + 276 * (0#32).toNat :=
  ⟨by decide, oneBlock_length, by decide +kernel, by decide⟩

/-- FileCorruptionIsDetected: clause 1 at the first byte of the block region, which is also the last of the file;
clause 2 with more blocks promised than present, with a wrong and with the right checksum. -/
theorem witness_corruption :
    decodeContainer trailingContainer = .ok (⟨0x01#8, 0x07#8, 0#16, 0x2DFD1072#32, 0#32, 0#32⟩, []) ∧ 16 ≤ 16 ∧
    16 < trailingContainer.length ∧ trailingContainer.getD 16 0#8 ≠ 0x80#8 ∧
    [oneBlock].length < (2#32).toNat ∧ (1#32).toNat ≤ [oneBlock].length ∧
    checksum ([oneBlock].flatMap serBlock) ^^^ (1#32 <<< 31) ≠ checksum ([oneBlock].flatMap serBlock) :=
  ⟨by decide +kernel, by decide, by decide, by decide, by decide, by decide, fun h => xor_bit_ne _ h.symm⟩

/-- A frame of 291 zero bytes whose header promises one block. -/
def shortFrame : State :=
  { idleState 1000 [] with frame := [(12, 0x01#8)], flen := 291 }

/-- DeccCommand, clauses 2 to 5 of its four cases: `FLEN` 15; one block promised and `FLEN` 291; a wrong checksum; the
empty container, with `FLEN` 16. -/
theorem witness_decc :
    (idleState 100 (List.replicate 15 0#8)).flen = 15 ∧ shortFrame.ph = .idle ∧ 16 ≤ shortFrame.flen ∧
    shortFrame.flen < 16 + 276 * (le32 (shortFrame.memRead 12 4)).toNat ∧
    (16 ≤ (idleState 100 (emptyContainer.set 4 0xFE#8)).flen ∧
      16 + 276 * (le32 ((idleState 100 (emptyContainer.set 4 0xFE#8)).memRead 12 4)).toNat ≤
        (idleState 100 (emptyContainer.set 4 0xFE#8)).flen ∧
      checksum ((idleState 100 (emptyContainer.set 4 0xFE#8)).memRead 16 0) ≠
        le32 ((idleState 100 (emptyContainer.set 4 0xFE#8)).memRead 4 4)) ∧
    (idleState 100 emptyContainer).flen = 16 ∧
    checksum ((idleState 100 emptyContainer).memRead 16 0) = le32 ((idleState 100 emptyContainer).memRead 4 4) ∧
    (openState [] 0#32).ph ≠ .idle := by
  refine ⟨List.length_replicate, rfl, by decide, by decide +kernel, ⟨by decide, by decide +kernel, by decide +kernel⟩, rfl,
    by decide +kernel, by decide⟩

/-- DeccAndLdblkAreDecodeContainer: a frame that does not decode, and one that does. Its blocks are those of
`encodeContainer`, so the inner hypothesis is met at `k = 0` whenever a container with a block decodes. -/
theorem witness_decode :
    decodeContainer (idleState 100 []).frameBytes = .error .truncatedInput ∧
    decodeContainer (idleState 100 emptyContainer).frameBytes =
      .ok (⟨0x01#8, 0x07#8, 0#16, 0xFFFFFFFF#32, 0#32, 0#32⟩, []) ∧ (idleState 100 emptyContainer).ph = .idle ∧
    [oneBlock][(0#64).toNat]? = some oneBlock :=
  ⟨by decide +kernel, by decide +kernel, rfl, rfl⟩

/-- LdblkCommand, clause 2 with the last record ending at `FLEN`, clause 3 with `k = HNBLK`. -/
theorem witness_ldblk :
    (withArgs (openState (List.replicate 292 0#8) 1#32) 0#64 0#64).ph = .opened ∧
    (withArgs (openState (List.replicate 292 0#8) 1#32) 0#64 0#64).arg0 = some 0#64 ∧
    (withArgs (openState (List.replicate 292 0#8) 1#32) 0#64 0#64).hnblk = some 1#32 ∧ (0#64).toNat < (1#32).toNat ∧
    16 + 276 * ((0#64).toNat + 1) ≤ (withArgs (openState (List.replicate 292 0#8) 1#32) 0#64 0#64).flen ∧
    (withArgs (openState (List.replicate 292 0#8) 1#32) 1#64 0#64).arg0 = some 1#64 ∧
    (1#32).toNat ≤ (1#64).toNat ∧ (openState [] 0#32).arg0 = none ∧ (idleState 16 []).ph ≠ .opened := by
  refine ⟨rfl, rfl, rfl, by decide, ?_, rfl, by decide, rfl, by decide⟩
  show _ ≤ (List.replicate 292 0#8).length
  rw [List.length_replicate]
  decide

/-- CloseCommand and BeginCommand: a phase that accepts each, one that refuses each. -/
theorem witness_close_begin :
    (openState [] 0#32).ph = .opened ∧ (idleState 16 []).ph ≠ .opened ∧ (idleState 16 []).ph = .idle ∧
    (openState [] 0#32).ph ≠ .idle := by decide

/-- A frame with 4294967294 records: the last count `APPEND` accepts. -/
def lastAppend : State :=
  { buildState (16 + 276 * 4294967295) with ecnt := 4294967294#32, flen := 16 + 276 * 4294967294 }

/-- AppendCommand: clause 2 with exactly the room for one record, and with the last count accepted; clause 3 with one
byte less, with the count that is refused and with `BDATA[259]` undefined. -/
theorem witness_append :
    (buildState 292).ph = .building ∧ (buildState 292).bcrc = some 0x95C0E74A#32 ∧
    (buildState 292).bidx = some 0x12345678#32 ∧ (buildState 292).bunk = some 0#32 ∧ (buildState 292).bpad = some 0#32 ∧
    (buildState 292).blockBytes = some (List.replicate 260 0#8) ∧ (buildState 292).ecnt.toNat ≠ 2 ^ 32 - 1 ∧
    16 + 276 * ((buildState 292).ecnt.toNat + 1) ≤ (buildState 292).params.fcap ∧
    (buildState 292).flen = 16 + 276 * (buildState 292).ecnt.toNat ∧
    (lastAppend.ecnt.toNat ≠ 2 ^ 32 - 1 ∧ 16 + 276 * (lastAppend.ecnt.toNat + 1) ≤ lastAppend.params.fcap ∧
      lastAppend.flen = 16 + 276 * lastAppend.ecnt.toNat) ∧
    (buildState 291).params.fcap < 16 + 276 * ((buildState 291).ecnt.toNat + 1) ∧
    ({ buildState 292 with ecnt := 4294967295#32 } : State).ecnt.toNat = 2 ^ 32 - 1 ∧
    (259 < 260 ∧ ({ buildState 292 with bdata := [] } : State).blockByte 259 = none) ∧ (idleState 16 []).ph ≠ .building :=
  ⟨rfl, rfl, rfl, rfl, rfl, Memory.collect_ofBytes _ _ _ zeros_length, by decide, by decide, by decide,
    ⟨by decide, by decide, by decide⟩, by decide, by decide, ⟨by decide, rfl⟩, by decide⟩

/-- EnccCommand and EnccWritesEncodeContainer: the least frame, no record; a header register undefined. -/
theorem witness_encc :
    (buildState 16).Inv ∧ (buildState 16).ph = .building ∧ (buildState 16).hminor = some 0x01#8 ∧
    (buildState 16).hmajor = some 0x07#8 ∧ (buildState 16).hmagic = some 0x0000#16 ∧
    (buildState 16).hpad = some 0x00000000#32 ∧ 16 ≤ (buildState 16).flen ∧
    (buildState 16).flen = 16 + 276 * (buildState 16).ecnt.toNat ∧
    ({ buildState 16 with hpad := none } : State).hpad = none :=
  ⟨build_inv 16 (by decide), rfl, rfl, rfl, rfl, rfl, by decide, by decide, rfl⟩

/-- EncodeAllThenDecodeAllRestores: one block with exactly the room for it, and no block with room for none. -/
theorem witness_encode_all :
    (idleState 292 []).Inv ∧ (idleState 292 []).ph = .idle ∧ (idleState 292 []).keyBytes = some keyZero ∧
    (∀ b ∈ [(⟨0x08005000#32, List.replicate 256 0#8, 0x12345678#32, 0#32, 0#32⟩ : BlockTuple)],
      b.payload.length = 256) ∧
    16 + 276 * [(⟨0x08005000#32, List.replicate 256 0#8, 0x12345678#32, 0#32, 0#32⟩ : BlockTuple)].length ≤
      (idleState 292 []).params.fcap ∧
    (idleState 16 []).Inv ∧ 16 + 276 * ([] : List BlockTuple).length ≤ (idleState 16 []).params.fcap := by
  refine ⟨idle_inv 292 [] (by decide) (by decide), rfl, Memory.collect_ofBytes _ _ _ keyZero_length, ?_, by decide,
    idle_inv 16 [] (by decide) (by decide), by decide⟩
  intro b hb
  rw [List.mem_singleton] at hb
  subst hb
  exact List.length_replicate

/-- LdkeyCommand: `NOKEY` with key stores of 516, 515 and 517 bytes, and a phase that refuses. -/
theorem witness_ldkey :
    (State.resetWith ⟨keyZero, 16⟩).ph = .noKey ∧ (State.resetWith ⟨keyZero, 16⟩).params.ks.length = 516 ∧
    (State.resetWith ⟨List.replicate 515 0#8, 16⟩).params.ks.length ≠ 516 ∧
    (State.resetWith ⟨List.replicate 517 0#8, 16⟩).params.ks.length ≠ 516 ∧ (idleState 16 []).ph ≠ .noKey := by
  refine ⟨rfl, keyZero_length, ?_, ?_, by decide⟩
  · show (List.replicate 515 0#8).length ≠ 516
    rw [List.length_replicate]
    decide
  · show (List.replicate 517 0#8).length ≠ 516
    rw [List.length_replicate]
    decide

/-- `NOKEY` with `LDKEY` as the host's next move, and `IDLE` with `BEGIN`. -/
def loadNext : State := { State.resetWith ⟨keyZero, 16⟩ with inbox := [.writeReg 0 1#64] }

/-- `IDLE` with `BEGIN` as the host's next move. -/
def beginNext : State := { idleState 16 [] with inbox := [.writeReg 0 12#64] }

/-- Both steps have a next state; the hypotheses of every statement over steps (KeyIsLoadedOnce, ParametersNeverChange,
ErrorLogIsSticky, ContainersAreImmutable) are met by them. -/
theorem witness_steps :
    (∃ t, step loadNext = .next t) ∧ (∃ t, step beginNext = .next t) ∧ beginNext.ph ≠ .noKey ∧
    (∃ t, exec .ldkey (State.resetWith ⟨keyZero, 16⟩) = .next t) := by
  have load : ∀ s : State, s.ph = .noKey → ∃ t, exec .ldkey s = .next t :=
    fun s h => ⟨_, execLdkey_next_iff.2 ⟨h, rfl⟩⟩
  have build : ∀ s : State, s.ph = .idle → ∃ t, exec .begin s = .next t :=
    fun s h => ⟨_, execBegin_next_iff.2 ⟨h, rfl⟩⟩
  refine ⟨?_, ?_, by decide, load _ rfl⟩
  · obtain ⟨t, ht⟩ := load { loadNext with inbox := [] } rfl
    exact ⟨t, step_next_iff.2 (.inr ⟨.writeReg 0 1#64, [], rfl,
      (issue_next_iff (v := 1#64)).2 ⟨by decide, .ldkey, rfl, ht⟩⟩)⟩
  · obtain ⟨t, ht⟩ := build { beginNext with inbox := [] } rfl
    exact ⟨t, step_next_iff.2 (.inr ⟨.writeReg 0 12#64, [], rfl,
      (issue_next_iff (v := 12#64)).2 ⟨by decide, .begin, rfl, ht⟩⟩)⟩

/-- `BUILD` with `APPEND` as the host's next move, and with `ENCC`. -/
def buildingNext (v : Dword) : State := { buildState 292 with inbox := [.writeReg 0 v] }

/-- ContainersAreImmutable, its last clause: steps of `BUILD` that change the frame, one by each command. -/
theorem witness_building_steps :
    ((buildingNext 13#64).ph = .building ∧ ∃ t, step (buildingNext 13#64) = .next t ∧ t.flen ≠ (buildingNext 13#64).flen) ∧
    (buildingNext 14#64).ph = .building ∧ ∃ t, step (buildingNext 14#64) = .next t := by
  have grow : ∀ (s : State) (d : List Byte), s.ph = .building → s.bcrc = some 0x95C0E74A#32 → s.bidx = some 0x12345678#32 →
      s.bunk = some 0#32 → s.bpad = some 0#32 → s.blockBytes = some d → s.ecnt.toNat ≠ 2 ^ 32 - 1 →
      recordAddress (s.ecnt.toNat + 1) ≤ s.params.fcap → ∃ t, exec .append s = .next t ∧ t.flen ≠ s.flen := by
    intro s d hp hc hi hu hd hb he hf
    refine ⟨_, execAppend_next_iff.2 ⟨hp, _, _, _, _, _, hc, hi, hu, hd, hb, he, hf, rfl⟩, ?_⟩
    show s.flen + (serBlock _).length ≠ s.flen
    have : 0 < (serBlock ⟨0x95C0E74A#32, 0x12345678#32, 0#32, 0#32, d⟩).length := by simp [serBlock, bytesLe32]
    omega
  have issued : ∀ (s t : State) (v : Dword) (i : Instr), s.inbox = [.writeReg 0 v] → v.extractLsb' 32 32 = 0#32 →
      decode (v.extractLsb' 0 32) = .ok i → exec i { s with inbox := [] } = .next t → step s = .next t :=
    fun s t v i hi hw hd hx => step_next_iff.2 (.inr ⟨_, [], hi, issue_next_iff.2 ⟨hw, i, hd, hx⟩⟩)
  refine ⟨⟨rfl, ?_⟩, rfl, ?_⟩
  · obtain ⟨t, ht, hn⟩ := grow { buildingNext 13#64 with inbox := [] } _ rfl rfl rfl rfl rfl
      (Memory.collect_ofBytes _ _ _ zeros_length) (by decide) (by decide)
    exact ⟨t, issued _ t 13#64 .append rfl (by decide) rfl ht, hn⟩
  · obtain ⟨t, ht⟩ : ∃ t, exec .encc { buildingNext 14#64 with inbox := [] } = .next t :=
      ⟨_, execEncc_next_iff.2 ⟨rfl, _, _, _, _, rfl, rfl, rfl, rfl, by decide, rfl⟩⟩
    exact ⟨t, issued _ t 14#64 .encc rfl (by decide) rfl ht⟩

/-- StepKeepsTheInvariant and StepKeepsTheByteSpaces: a state that meets the invariant and steps; ContainersAreImmutable
in its two phases. -/
theorem witness_invariant :
    beginNext.Inv ∧ beginNext.SpacesOk ∧ (beginNext.ph = .building → beginNext.flen = recordAddress beginNext.ecnt.toNat) ∧
    (∃ t, step beginNext = .next t) ∧ (openState [] 0#32).ph = .opened ∧ step (openState [] 0#32) = .next (openState [] 0#32) ∧
    (buildState 16).ph = .building ∧ step (buildState 16) = .next (buildState 16) ∧
    (buildState 16).SpacesOk ∧ (buildState 16).flen = recordAddress (buildState 16).ecnt.toNat := by
  have h := idle_inv 16 [] (by decide) (by decide)
  have hs := h.spaces
  exact ⟨⟨⟨hs.1, hs.2, hs.3, hs.4, hs.5, hs.6, hs.7, hs.8⟩, h.2, h.3, h.4, h.5, h.6, h.7, h.8, h.9, h.10, h.11, h.12, h.13⟩,
    ⟨hs.1, hs.2, hs.3, hs.4, hs.5, hs.6, hs.7, hs.8⟩, by (intro h; cases h), witness_steps.2.1, rfl, rfl, rfl, rfl,
    (build_inv 16 (by decide)).spaces, rfl⟩

/-- ResetMeetsTheInvariant: the least capacity R7 allows. -/
theorem witness_capacity : 16 ≤ (⟨[], 16⟩ : Params).fcap := by decide

/-- RegisterWrites and RegisterReads: a read-only register, the first number that is none, registers with and without a
value, a length that fits. -/
theorem witness_registers :
    3 ∈ [3, 5, 7, 9, 14, 15] ∧ 15 ∈ [3, 5, 7, 9, 14, 15] ∧ 16 ≤ 16 ∧ (buildState 16).bcrc = some 0x95C0E74A#32 ∧
    (buildState 16).w = none ∧ (withArgs (buildState 16) 1#64 2#64).arg0 = some 1#64 ∧ (buildState 16).arg1 = none ∧
    (buildState 16).hminor = some 0x01#8 ∧ (buildState 16).hmajor = some 0x07#8 ∧ (buildState 16).hmagic = some 0#16 ∧
    (idleState 16 []).hmagic = none ∧ (buildState 16).flen < 2 ^ 64 := by decide

/-- BlockBufferMoves: the last index with and without a value, and the first index outside. -/
theorem witness_block_moves :
    259 < 260 ∧ ({ idleState 16 [] with bdata := [(259, 0x5A#8)] } : State).blockByte 259 = some 0x5A#8 ∧
    (idleState 16 []).blockByte 259 = none ∧ 260 ≤ 260 := by decide

/-- FrameMoves: a load of exactly `FCAP` bytes and one byte more, the last address and the first beyond, the phases, and
the placeholder's last byte. -/
theorem witness_frame_moves :
    (idleState 16 digits).ph = .idle ∧ emptyContainer.length ≤ (idleState 16 digits).params.fcap ∧
    (idleState 16 digits).params.fcap < trailingContainer.length ∧ 8 < (idleState 16 digits).flen ∧
    (idleState 16 digits).flen ≤ 9 ∧ (openState digits 0#32).ph ≠ .idle ∧ (openState digits 0#32).ph = .opened ∧
    (State.resetWith ⟨[], 16⟩).ph = .noKey ∧ (buildState 16).Inv ∧ (buildState 16).ph = .building ∧ 15 < 16 :=
  ⟨rfl, by decide, by decide, by decide, by decide, by decide, rfl, rfl, build_inv 16 (by decide), rfl, by decide⟩

/-- HostCannotReachTheKey and HostReadsChangeNothing: a move of each kind, and a read that has a next state. -/
theorem witness_host_moves :
    HostMove.isCommand (.writeReg 4 7#64) = false ∧ HostMove.writeReg 4 7#64 ≠ .reset ∧
    HostMove.isRead (.readReg 3) = true ∧
    perform (.readReg 3) (State.resetWith ⟨[], 16⟩) =
      .next { State.resetWith ⟨[], 16⟩ with replies := [(State.resetWith ⟨[], 16⟩).status.setWidth 64] } :=
  ⟨rfl, by decide, rfl, rfl⟩

/-- ErrorEntryIsPrecise and ErrorLogIsSticky: a command that ends in an error, one that ends ok, another move. -/
theorem witness_errors :
    (exec .decc (idleState 16 []) = .next ((idleState 16 []).raise .truncatedInput) ∧
      ((idleState 16 []).raise .truncatedInput).err ≠ 0#3) ∧
    exec .close (openState [] 0#32) = .next { openState [] 0#32 with ph := .idle, err := 0#3 } ∧
    perform (.writeReg 4 7#64) (idleState 16 []) = .next { idleState 16 [] with w := some 7#32 } :=
  ⟨⟨execDecc_next_iff.2 ⟨rfl, by rw [if_pos (Or.inl (by decide))]⟩, by decide⟩, rfl, rfl⟩

/-- PhaseTable: a pair outside the table, and a command and a move that have a next state. -/
theorem witness_phases :
    (Instr.crc, (State.resetWith ⟨[], 16⟩).ph) ∉ commandTable ∧ (Instr.close, (openState [] 0#32).ph) ∈ commandTable ∧
    (∃ t, exec .close (openState [] 0#32) = .next t) ∧ perform .reset (idleState 16 []) = .next (idleState 16 []).afterReset :=
  ⟨by decide, by decide, ⟨_, rfl⟩, rfl⟩

end Sys2Proof.Tests
end

section
/-! SUPPORT. The error log `ELOG` (10_state.md R19): how a command that has a next state leaves `ERR` and `ELOG`, which
host moves leave both alone, and that a step other than `RESET` clears no bit of the log. -/
namespace Sys2Proof.Machine

/-! ### How a command ends -/

/-- The two ends of an accepted command begun in `s` (R13, R139): ok, with the log of `s`, or an error entered in `s`. -/
inductive CommandEnd (s : State) : State → Prop where
  | ok (u : State) (hlog : u.elog = s.elog) : CommandEnd s u.finish
  | error (e : ErrorKind) : CommandEnd s (s.raise e)

/-- An effect that may fail while it computes a value, and then stores that value without touching the log. -/
theorem commandEnd_conclude_map {α : Type} {s : State} {store : α → State} (hlog : ∀ a, (store a).elog = s.elog)
    (x : Except ErrorKind α) : CommandEnd s (conclude s (x.map store)) := by
  cases x with
  | error e => exact .error e
  | ok a => exact .ok (store a) (hlog a)

/-- Every command that has a next state ends so: `ELOG` is written by the error entry alone. -/
theorem exec_commandEnd {i : Instr} {s t : State} (h : exec i s = .next t) : CommandEnd s t := by
  cases i with
  | ldkey =>
    obtain ⟨-, rfl⟩ := execLdkey_next_iff.1 h
    split
    · exact .error _
    · exact .ok _ rfl
  | crc => obtain ⟨-, _, _, -, -, -, rfl⟩ := execCrc_next_iff.1 h; exact .ok _ rfl
  | swz => obtain ⟨-, _, -, rfl⟩ := permuteW_next_iff.1 h; exact .ok _ rfl
  | uswz => obtain ⟨-, _, -, rfl⟩ := permuteW_next_iff.1 h; exact .ok _ rfl
  | swzb =>
    obtain ⟨-, _, _, -, -, -, rfl⟩ := permuteRange_next_iff.1 h
    exact commandEnd_conclude_map (State.memWrite_elog s _) _
  | uswzb =>
    obtain ⟨-, _, _, -, -, -, rfl⟩ := permuteRange_next_iff.1 h
    exact commandEnd_conclude_map (State.memWrite_elog s _) _
  | dec =>
    obtain ⟨-, _, _, _, _, -, -, -, -, rfl⟩ := execDec_next_iff.1 h
    exact commandEnd_conclude_map (State.setBdata_elog s) _
  | enc => obtain ⟨-, _, _, _, -, -, -, rfl⟩ := execEnc_next_iff.1 h; exact .ok _ rfl
  | decc =>
    obtain ⟨-, rfl⟩ := execDecc_next_iff.1 h
    split
    · exact .error _
    · split
      · exact .error _
      · exact .ok _ rfl
  | ldblk => obtain ⟨-, _, _, -, -, -, -, rfl⟩ := execLdblk_next_iff.1 h; exact .ok _ rfl
  | close => obtain ⟨-, rfl⟩ := execClose_next_iff.1 h; exact .ok _ rfl
  | begin => obtain ⟨-, rfl⟩ := execBegin_next_iff.1 h; exact .ok _ rfl
  | append => obtain ⟨-, _, _, _, _, _, -, -, -, -, -, -, -, rfl⟩ := execAppend_next_iff.1 h; exact .ok _ rfl
  | encc => obtain ⟨-, _, _, _, _, -, -, -, -, -, rfl⟩ := execEncc_next_iff.1 h; exact .ok _ rfl

/-- The codes of R132 are 1 to 5. -/
theorem ErrorKind.code_bounds (e : ErrorKind) : 1 ≤ e.code.toNat ∧ e.code.toNat ≤ 5 := by
  cases e <;> decide

/-- `ERR` and `ELOG` after a command: R18's ok value and an unchanged log, or a code of R132 and its bit of the log. -/
theorem CommandEnd.err_elog {s t : State} (h : CommandEnd s t) :
    (t.err = 0#3 ∧ t.elog = s.elog) ∨
    (1 ≤ t.err.toNat ∧ t.err.toNat ≤ 5 ∧ t.elog = s.elog ||| (1#5 <<< (t.err.toNat - 1))) := by
  cases h with
  | ok u hlog => exact .inl ⟨rfl, hlog⟩
  | error e => exact .inr ⟨e.code_bounds.1, e.code_bounds.2, rfl⟩

/-- Neither end of a command clears a bit of the log: ok keeps it and an error only adds to it. -/
theorem CommandEnd.elog_sticky {s t : State} (h : CommandEnd s t) {b : Nat} (hb : s.elog.getLsbD b = true) :
    t.elog.getLsbD b = true := by
  cases h with
  | ok u hlog => rw [State.finish_elog, hlog, hb]
  | error e => rw [State.raise_elog, BitVec.getLsbD_or, hb, Bool.true_or]

/-! ### The other host moves -/

/-- A register other than `CMD` is written without touching `ERR` and `ELOG` (`STATUS` is read-only, R33). -/
theorem writeRegister_keeps_status {n : Nat} {v : Dword} {s t : State} (hn : n ≠ 0)
    (h : writeRegister n v s = .next t) : t.err = s.err ∧ t.elog = s.elog := by
  unfold writeRegister at h
  split at h
  · exact absurd rfl hn
  all_goals cases h
  all_goals exact ⟨rfl, rfl⟩

/-- Of the host's moves only a command and `RESET` write `ERR` or `ELOG`. -/
theorem move_keeps_status {m : HostMove} {s t : State} (hm : m.isCommand = false) (hr : m ≠ .reset)
    (h : perform m s = .next t) : t.err = s.err ∧ t.elog = s.elog := by
  cases m with
  | reset => exact absurd rfl hr
  | readReg n => obtain ⟨v, -, rfl⟩ := deliver_next_iff.1 h; exact ⟨rfl, rfl⟩
  | writeReg n v => exact writeRegister_keeps_status (beq_eq_false_iff_ne.1 hm) h
  | readBlock i => obtain ⟨v, -, rfl⟩ := deliver_next_iff.1 h; exact ⟨rfl, rfl⟩
  | writeBlock i b => obtain ⟨-, rfl⟩ := permit_next_iff.1 h; exact ⟨rfl, rfl⟩
  | loadFrame bs => obtain ⟨-, rfl⟩ := permit_next_iff.1 h; exact ⟨rfl, rfl⟩
  | readFrame a => obtain ⟨v, -, rfl⟩ := deliver_next_iff.1 h; exact ⟨rfl, rfl⟩
  | writeFrame a b => obtain ⟨-, rfl⟩ := permit_next_iff.1 h; exact ⟨rfl, rfl⟩

/-! ### Steps -/

/-- "No command clears a bit; only reset does" (R19), over everything a step can be. -/
theorem step_elog_sticky {s t : State} (h : step s = .next t) :
    (∃ rest, s.inbox = .reset :: rest) ∨ ∀ b, s.elog.getLsbD b = true → t.elog.getLsbD b = true := by
  obtain rfl | ⟨rest, ⟨hreset, -⟩ | ⟨_, _, -, -, hexec⟩ | ⟨m, -, hm, hr, hmove⟩⟩ := step_next_cases h
  · exact .inr fun _ hb => hb
  · exact .inl ⟨rest, hreset⟩
  · exact .inr fun _ hb => (exec_commandEnd hexec).elog_sticky hb
  · exact .inr fun _ hb => (move_keeps_status hm hr hmove).2 ▸ hb

/-- Settles O52, from how a command ends, what the other host moves keep, and the cases of a step. -/
theorem errorLogIsSticky : Obligations.ErrorLogIsSticky :=
  ⟨fun _ _ _ h => (exec_commandEnd h).err_elog,
    fun _ _ _ hm hr h => move_keeps_status hm hr h,
    fun _ _ h => step_elog_sticky h,
    fun s => ⟨s.afterReset, rfl, rfl, rfl⟩,
    fun _ _ => ⟨.readOnlyRegister 3, rfl⟩⟩

end Sys2Proof.Machine
end

section
/-! SUPPORT. The encoding of commands (30_encoding.md R59, R66 to R68): the decoder against the encoder and against the
check of `WellFormed.lean`, and what writing a reserved word to `CMD` does. -/
namespace Sys2Proof

/-! ### The decoder and the encoder -/

/-- The opcode column of R66 read from right to left. -/
theorem decodeOpcode_opcode (i : Instr) : decodeOpcode (opcode i) = .ok i := by cases i <;> rfl

/-- The opcode column of R66: no byte but a command's own opcode decodes to it. -/
theorem decodeOpcode_eq_ok_iff {op : Byte} {i : Instr} : decodeOpcode op = .ok i ↔ op = opcode i := by
  constructor
  · intro h
    unfold decodeOpcode at h
    split at h <;> cases h
    all_goals exact BitVec.eq_of_toNat_eq ‹_›
  · rintro rfl
    exact decodeOpcode_opcode i

/-- "Opcodes 0x00 and 0x0F to 0xFF are reserved" (R67), and no other. -/
theorem decodeOpcode_ok_iff_assigned {op : Byte} :
    (∃ i, decodeOpcode op = .ok i) ↔ 1 ≤ op.toNat ∧ op.toNat ≤ 14 := by
  unfold decodeOpcode
  split
  case h_15 =>
    -- The branches before this one have taken each of the numbers 1 to 14.
    refine iff_of_false nofun ?_
    grind
  all_goals exact iff_of_true ⟨_, rfl⟩ (by omega)

/-- R59: a word is a byte zero-extended when bits 31..8 are zero and bits 7..0 are that byte. -/
theorem eq_setWidth_byte_iff {w : Word} {b : Byte} :
    w = b.setWidth 32 ↔ w.extractLsb' 8 24 = 0#24 ∧ w.extractLsb' 0 8 = b := by
  have hw := w.isLt
  have hb := b.isLt
  simp only [← BitVec.toNat_inj, BitVec.toNat_setWidth, BitVec.extractLsb'_toNat, Nat.shiftRight_eq_div_pow,
    BitVec.toNat_ofNat]
  omega

/-- R66: each command is decoded from its one word. -/
theorem decode_eq_ok_iff {w : Word} {i : Instr} : decode w = .ok i ↔ w = encode i := by
  rw [encode, eq_setWidth_byte_iff]
  unfold decode
  split
  case isTrue hclear => rw [decodeOpcode_eq_ok_iff, and_iff_right hclear]
  case isFalse hset => exact iff_of_false nofun fun h => hset h.1

/-! ### The check on command words -/

theorem highBitsClear_iff {w : Word} : highBitsClear w = true ↔ w.extractLsb' 8 24 = 0#24 := by
  have hw := w.isLt
  simp only [highBitsClear, decide_eq_true_eq, ← BitVec.toNat_inj, BitVec.extractLsb'_toNat,
    Nat.shiftRight_eq_div_pow, BitVec.toNat_ofNat]
  omega

theorem opcodeAssigned_iff {w : Word} :
    opcodeAssigned w = true ↔ 1 ≤ (w.extractLsb' 0 8).toNat ∧ (w.extractLsb' 0 8).toNat ≤ 14 := by
  simp [opcodeAssigned]

/-- The check written from R59 and R67 passes exactly the words the decoder takes. -/
theorem commandWordWellFormed_iff_decodes {w : Word} :
    commandWordWellFormed w = true ↔ ∃ i, decode w = .ok i := by
  rw [commandWordWellFormed, Bool.and_eq_true, highBitsClear_iff, opcodeAssigned_iff, ← decodeOpcode_ok_iff_assigned]
  unfold decode
  split
  case isTrue hclear => exact and_iff_right hclear
  case isFalse hset => exact iff_of_false (fun h => hset h.1) (by simp)

/-- R68 for the decoder: what it does not take, it calls reserved, and the check refuses. -/
theorem commandWordWellFormed_eq_false_iff_reserved {w : Word} :
    commandWordWellFormed w = false ↔ ∃ e, decode w = .error e := by
  rw [← Bool.not_eq_true, commandWordWellFormed_iff_decodes]
  cases decode w <;> simp

/-- The reserved words of R67, by number. -/
theorem commandWordWellFormed_of_reserved {w : Word}
    (h : w.toNat % 256 = 0 ∨ 15 ≤ w.toNat % 256 ∨ 256 ≤ w.toNat) : commandWordWellFormed w = false := by
  simp only [commandWordWellFormed, highBitsClear, opcodeAssigned, Bool.and_eq_false_iff, decide_eq_false_iff_not]
  omega

/-! ### A command word written to `CMD` -/

/-- The low half of a word widened to the host's 64 bits is the word (R8). -/
theorem low_half_of_setWidth (w : Word) : (w.setWidth 64).extractLsb' 0 32 = w := by
  ext j hj
  simp only [BitVec.getElem_extractLsb', BitVec.getLsbD_setWidth, Nat.zero_add, BitVec.getLsbD_eq_getElem hj,
    Bool.and_eq_right_iff_imp, decide_eq_true_eq]
  omega

/-- The high half of a word widened to the host's 64 bits is zero (R8). -/
theorem high_half_of_setWidth (w : Word) : (w.setWidth 64).extractLsb' 32 32 = 0#32 := by
  ext j hj
  simp

/-- R67, R131: a word the decoder calls reserved is refused as such, whatever the state. -/
theorem perform_write_reserved_word {w : Word} {e : DecodeError} (h : decode w = .error e) (s : Machine.State) :
    Machine.perform (.writeReg 0 (w.setWidth 64)) s = .refused (.reservedWord e) := by
  show Machine.issue (w.setWidth 64) s = _
  simp only [Machine.issue, high_half_of_setWidth, low_half_of_setWidth, h, if_true]

/-- Settles O2, from the one word of each command (R66). -/
theorem opcodeMapIsExact : Obligations.OpcodeMapIsExact := fun _ =>
  ⟨decode_eq_ok_iff, decode_eq_ok_iff, decode_eq_ok_iff, decode_eq_ok_iff, decode_eq_ok_iff, decode_eq_ok_iff,
    decode_eq_ok_iff, decode_eq_ok_iff, decode_eq_ok_iff, decode_eq_ok_iff, decode_eq_ok_iff, decode_eq_ok_iff,
    decode_eq_ok_iff, decode_eq_ok_iff⟩

/-- Settles O4: the two outcomes of the decoder are the two sides of the split, and the reserved side is refused. -/
theorem everyWordIsACommandOrReserved : Obligations.EveryWordIsACommandOrReserved := by
  constructor
  · intro w
    cases hd : decode w with
    | ok i => exact .inl ⟨i, decode_eq_ok_iff.1 hd, rfl, commandWordWellFormed_iff_decodes.2 ⟨i, hd⟩⟩
    | error e =>
      refine .inr ⟨fun i hi => ?_, ⟨e, rfl⟩, commandWordWellFormed_eq_false_iff_reserved.2 ⟨e, hd⟩⟩
      exact nomatch hd.symm.trans (decode_eq_ok_iff.2 hi)
  · intro s w hw
    obtain ⟨e, he⟩ := commandWordWellFormed_eq_false_iff_reserved.1 (commandWordWellFormed_of_reserved hw)
    exact ⟨e, perform_write_reserved_word he s⟩

end Sys2Proof
end

section
/-! SUPPORT. The little-endian reading of four bytes and its inverse (00_scope.md R10), and the plaintext format
(30_encoding.md R65). -/
namespace Sys2Proof.Machine

/-! ### Little-endian readings -/

/-- The digits of `leNat` to base 256 are the bytes of the sequence (R10). -/
theorem leNat_digit (s : List Byte) (j : Nat) : leNat s / 2 ^ (8 * j) % 256 = (s.getD j 0#8).toNat := by
  induction s generalizing j with
  | nil => simp [leNat]
  | cons b rest ih =>
    have hb := b.isLt
    cases j with
    | zero => simp only [leNat, List.getD_cons_zero]; omega
    | succ j =>
      have carry : (b.toNat + 256 * leNat rest) / 256 = leNat rest := by omega
      rw [leNat, Nat.mul_succ, Nat.add_comm (8 * j), Nat.pow_add, ← Nat.div_div_eq_div_mul, carry, ih,
        List.getD_cons_succ]

/-- Byte `j` of the value a byte sequence stands for, if the value has a byte `j`, is the sequence's (R8, R10). -/
theorem byteOf_ofNat_leNat {n j : Nat} (s : List Byte) (h : 8 * j + 8 ≤ n) :
    byteOf (BitVec.ofNat n (leNat s)) j = s.getD j 0#8 := by
  apply BitVec.eq_of_toNat_eq
  rw [← leNat_digit, byteOf_toNat, BitVec.toNat_ofNat]
  obtain ⟨k, rfl⟩ := Nat.exists_eq_add_of_le h
  rw [Nat.add_assoc, Nat.pow_add, Nat.mod_mul_right_div_self, Nat.pow_add, Nat.mod_mul_right_mod]

/-- `bytes_le32` undoes `le32` on four bytes (R10). -/
theorem bytesLe32_le32 {s : List Byte} (h : s.length = 4) : bytesLe32 (le32 s) = s := by
  obtain ⟨a, b, c, d, rfl⟩ := List.length_eq_four.1 h
  simp [bytesLe32, le32, byteOf_ofNat_leNat]

/-- `le32` undoes `bytes_le32` (R10). -/
@[simp] theorem le32_bytesLe32 (v : Word) : le32 (bytesLe32 v) = v := by
  have hv := v.isLt
  apply BitVec.eq_of_toNat_eq
  simp only [le32, bytesLe32, leNat, byteOf_toNat, BitVec.toNat_ofNat]
  omega

/-! ### The plaintext -/

/-- `parse_pt` undoes `asm_pt` (R65). -/
theorem parsePlain_asmPlain (fa : Word) {p : List Byte} (h : p.length = Config.payloadLength) :
    parsePlain (asmPlain fa p) = (fa, p) := by
  have address : slice (asmPlain fa p) 0 4 = bytesLe32 fa := slice_append_left _ _ _ rfl
  have payload : slice (asmPlain fa p) 4 Config.payloadLength = p :=
    (slice_append_right _ _ _ 0 _ rfl).trans (slice_whole p _ h)
  rw [parsePlain, address, payload, le32_bytesLe32]

/-- `asm_pt` undoes `parse_pt` on a plaintext's 260 bytes (R65). -/
theorem asmPlain_parsePlain {p : List Byte} (h : p.length = Config.plainLength) :
    asmPlain (parsePlain p).1 (parsePlain p).2 = p := by
  have address : (slice p 0 4).length = 4 := slice_length p 0 4 (by rw [h]; decide)
  calc asmPlain (parsePlain p).1 (parsePlain p).2
      = slice p 0 4 ++ slice p 4 Config.payloadLength := by rw [asmPlain, parsePlain, bytesLe32_le32 address]
    _ = slice p 0 Config.plainLength := (slice_add p 0 4 Config.payloadLength).symm
    _ = p := slice_whole p _ h

theorem parsePlain_payload_length {p : List Byte} (h : p.length = Config.plainLength) :
    (parsePlain p).2.length = Config.payloadLength :=
  slice_length p 4 _ (Nat.le_of_eq h.symm)

/-- `FADDR` is the flash address of the plaintext in `BDATA` (R25, R65). -/
theorem State.faddr_of_blockBytes {s : State} {p : List Byte} (h : s.blockBytes = some p) :
    s.faddr = some (parsePlain p).1 := by
  have part : Memory.collect .bdata s.bdata 0 4 = some (slice p 0 4) :=
    Memory.collect_slice (i := 0) (k := 4) h (by decide)
  rw [State.faddr, part, Option.map_some, parsePlain]

/-- `PAYLOAD` is the payload of the plaintext in `BDATA` (R25, R65). -/
theorem State.payload_of_blockBytes {s : State} {p : List Byte} (h : s.blockBytes = some p) :
    s.payload = some (parsePlain p).2 :=
  Memory.collect_slice (i := 4) (k := Config.payloadLength) h (by decide)

/-- Settles O9, from the two round trips of R65 and the two views of `BDATA`. -/
theorem plaintextFormatRoundTrips : Obligations.PlaintextFormatRoundTrips :=
  ⟨fun fa p h => ⟨rfl, by rw [asmPlain_length, h], parsePlain_asmPlain fa h⟩,
    fun _ h => ⟨parsePlain_payload_length h, asmPlain_parsePlain h⟩,
    fun _ _ h => ⟨State.faddr_of_blockBytes h, State.payload_of_blockBytes h⟩⟩

end Sys2Proof.Machine
end

section
/-! SUPPORT. The command `CRC` (40_checksum.md R79): the phases that hold a key, the checksum of an empty range, and when
the command ends ok and when it is refused. -/
namespace Sys2Proof.Machine

/-! ### The phases that hold a key -/

theorem Phase.keyed_iff {p : Phase} : p.keyed = true ↔ p = .idle ∨ p = .opened ∨ p = .building := by
  cases p <;> decide

theorem Phase.not_keyed_of_noKey_or_dead {p : Phase} (h : p = .noKey ∨ p = .dead) : p.keyed ≠ true := by
  rcases h with rfl | rfl <;> decide

/-! ### The empty range -/

/-- No byte step is made, so the checksum is its start value (R76). -/
@[simp] theorem checksum_nil : checksum [] = Config.crcInit := checksumFrom_nil _

/-! ### The command -/

theorem execCrc_ok {s : State} {a n : Dword} (hkeyed : s.ph.keyed = true) (ha : s.arg0 = some a)
    (hn : s.arg1 = some n) (hrange : a.toNat + n.toNat ≤ s.flen) :
    execCrc s = .next { s with crcr := some (checksum (s.memRead a.toNat n.toNat)), err := 0#3 } :=
  execCrc_next_iff.2 ⟨hkeyed, a, n, ha, hn, hrange, rfl⟩

/-- "`N = 0` is accepted for every `A <= FLEN`" (R79). -/
theorem execCrc_empty_range {s : State} {a n : Dword} (hkeyed : s.ph.keyed = true) (ha : s.arg0 = some a)
    (hn : s.arg1 = some n) (hrange : a.toNat + n.toNat ≤ s.flen) (hzero : n.toNat = 0) :
    execCrc s = .next { s with crcr := some Config.crcInit, err := 0#3 } := by
  rw [execCrc_ok hkeyed ha hn hrange, hzero, State.memRead_zero, checksum_nil]

/-- The range is compared without wrap (R46). -/
theorem execCrc_refused_of_range {s : State} {a n : Dword} (ha : s.arg0 = some a) (hn : s.arg1 = some n)
    (hrange : s.flen < a.toNat + n.toNat) : ∃ r, execCrc s = .refused r := by
  refine refused_of_no_next fun t hnext => ?_
  obtain ⟨-, a', n', ha', hn', hinside, -⟩ := execCrc_next_iff.1 hnext
  cases ha.symm.trans ha'
  cases hn.symm.trans hn'
  exact Nat.not_le_of_lt hrange hinside

theorem execCrc_refused_of_phase {s : State} (h : s.ph = .noKey ∨ s.ph = .dead) : ∃ r, execCrc s = .refused r := by
  refine refused_of_no_next fun t hnext => ?_
  obtain ⟨hkeyed, -⟩ := execCrc_next_iff.1 hnext
  exact Phase.not_keyed_of_noKey_or_dead h hkeyed

theorem execCrc_refused_of_undef {s : State} (h : s.arg0 = none ∨ s.arg1 = none) : ∃ r, execCrc s = .refused r := by
  refine refused_of_no_next fun t hnext => ?_
  obtain ⟨-, a, n, ha, hn, -⟩ := execCrc_next_iff.1 hnext
  rcases h with hundef | hundef
  · cases hundef.symm.trans ha
  · cases hundef.symm.trans hn

/-- Settles O13: the accepted ranges, the empty one among them, and the three grounds of refusal. -/
theorem crcCommand : Obligations.CrcCommand := by
  refine ⟨rfl, fun s a n hph ha hn hrange => ?_, fun s a n ha hn hrange => execCrc_refused_of_range ha hn hrange,
    fun s h => ?_⟩
  · have hkeyed : s.ph.keyed = true := Phase.keyed_iff.2 hph
    exact ⟨execCrc_ok hkeyed ha hn hrange, execCrc_empty_range hkeyed ha hn hrange⟩
  · rcases h with hnoKey | hdead | hundef
    · exact execCrc_refused_of_phase (.inl hnoKey)
    · exact execCrc_refused_of_phase (.inr hdead)
    · exact execCrc_refused_of_undef hundef

end Sys2Proof.Machine
end

section
/-! SUPPORT. The bit-permutation (41_swizzle.md): where each bit of a byte and of a word comes from (R81 to R83), and
that its two directions undo each other on bytes (R81), on words (R84) and on buffers (R86). -/
namespace Sys2Proof.Machine

/-- Values of one width are finitely many, so undoing a function on one side is undoing it on both. -/
theorem rightInverse_of_leftInverse {n : Nat} {f g : BitVec n → BitVec n} (h : Function.LeftInverse g f) :
    Function.RightInverse g f := by
  have finite : Finite (BitVec n) := Finite.of_injective BitVec.toFin fun _ _ => BitVec.eq_of_toFin_eq
  exact h.rightInverse_of_surjective (Finite.surjective_of_injective h.injective)

/-! ### Byte lanes -/

/-- The masks of R81 drop only the bits that the shifts drop too, on each of the 256 bytes. -/
theorem ror3_eq_rotateRight : ∀ b : Byte, ror3 b = b.rotateRight 3 := by decide

theorem rol3_eq_rotateLeft : ∀ b : Byte, rol3 b = b.rotateLeft 3 := by decide

/-- A rotation right by less than the width is undone by the rotation left. -/
theorem rotateLeft_rotateRight {n r : Nat} (x : BitVec n) (hr : r < n) : (x.rotateRight r).rotateLeft r = x := by
  ext i hi
  simp only [BitVec.getElem_rotateLeft, BitVec.getElem_rotateRight, Nat.mod_eq_of_lt hr]
  split
  case isTrue hwrapped =>
    rw [dif_neg (by omega)]
    congr 1
    omega
  case isFalse hshifted =>
    rw [dif_pos (by omega)]
    congr 1
    omega

theorem rol3_ror3 (b : Byte) : rol3 (ror3 b) = b := by
  rw [rol3_eq_rotateLeft, ror3_eq_rotateRight, rotateLeft_rotateRight b (by decide)]

theorem ror3_rol3 (b : Byte) : ror3 (rol3 b) = b := rightInverse_of_leftInverse rol3_ror3 b

/-- Settles O14: both formulas are rotations, and the rotations undo each other. -/
theorem byteLaneRotations : Obligations.ByteLaneRotations := fun b =>
  ⟨rfl, rfl, ror3_eq_rotateRight b, rol3_eq_rotateLeft b, rol3_ror3 b, ror3_rol3 b⟩

/-! ### Words -/

/-- The formulas of R82 and R83, read at an output bit: when the masks leave, of the two shifts, the bits `up` to 7 of
every lane to the one and the bits below to the other, no bit crosses a lane. -/
theorem masked_shifts_getLsbD {low high : Word} {up down : Nat}
    (hlow : ∀ i < 32, (low <<< up).getLsbD i = decide (up ≤ i % 8))
    (hhigh : ∀ i < 32, (high >>> down).getLsbD i = decide (i % 8 < up)) (w : Word) {i : Nat} (hi : i < 32) :
    (((w &&& low) <<< up) ||| ((w &&& high) >>> down)).getLsbD i =
      if i % 8 < up then w.getLsbD (i + down) else w.getLsbD (i - up) := by
  rw [BitVec.shiftLeft_and_distrib, BitVec.ushiftRight_and_distrib, BitVec.getLsbD_or, BitVec.getLsbD_and,
    BitVec.getLsbD_and, hlow i hi, hhigh i hi, BitVec.getLsbD_shiftLeft, BitVec.getLsbD_ushiftRight,
    Nat.add_comm down i]
  split
  case isTrue hbelow => simp [hbelow, Nat.not_le_of_lt hbelow]
  case isFalse habove =>
    have hup : up ≤ i % 8 := Nat.le_of_not_lt habove
    have inLane : ¬ i < up := Nat.not_lt_of_le (hup.trans (Nat.mod_le i 8))
    simp [hi, hup, habove, inLane]

/-- R82: bits 0 to 4 of a lane come from three places above, bits 5 to 7 from five below. -/
theorem swizzle_getLsbD (w : Word) {i : Nat} (hi : i < 32) :
    (swizzle w).getLsbD i = if i % 8 < 5 then w.getLsbD (i + 3) else w.getLsbD (i - 5) :=
  masked_shifts_getLsbD (by decide) (by decide) w hi

/-- R83: bits 0 to 2 of a lane come from five places above, bits 3 to 7 from three below. -/
theorem unswizzle_getLsbD (w : Word) {i : Nat} (hi : i < 32) :
    (unswizzle w).getLsbD i = if i % 8 < 3 then w.getLsbD (i + 5) else w.getLsbD (i - 3) := by
  rw [unswizzle, BitVec.or_comm]
  exact masked_shifts_getLsbD (by decide) (by decide) w hi

/-- R84: each bit comes back to its place. -/
@[simp] theorem unswizzle_swizzle (w : Word) : unswizzle (swizzle w) = w := by
  refine BitVec.eq_of_getLsbD_eq fun i hi => ?_
  rw [unswizzle_getLsbD _ hi]
  split
  case isTrue hlow => rw [swizzle_getLsbD w (by omega), if_neg (by omega), Nat.add_sub_cancel]
  case isFalse hhigh => rw [swizzle_getLsbD w (by omega), if_pos (by omega), Nat.sub_add_cancel (by omega)]

@[simp] theorem swizzle_unswizzle (w : Word) : swizzle (unswizzle w) = w :=
  rightInverse_of_leftInverse unswizzle_swizzle w

/-! ### Buffers -/

/-- The first group is the first four bytes (R86). -/
theorem mapWords_bytesLe32_append (f : Word → Word) (v : Word) (s : List Byte) :
    mapWords f (bytesLe32 v ++ s) = bytesLe32 (f v) ++ mapWords f s := by
  show bytesLe32 (f (le32 (bytesLe32 v))) ++ mapWords f s = _
  rw [le32_bytesLe32]

/-- On whole groups, a word map undoes another when it does so on words. -/
theorem mapWords_mapWords_cancel {f g : Word → Word} (h : ∀ w, g (f w) = w) :
    ∀ s : List Byte, s.length % 4 = 0 → mapWords g (mapWords f s) = s
  | [], _ => rfl
  | [_], hs => by simp at hs
  | [_, _], hs => by simp at hs
  | [_, _, _], hs => by simp at hs
  | a :: b :: c :: d :: rest, hs => by
    have hrest : rest.length % 4 = 0 := by simp at hs; omega
    rw [mapWords, mapWords_bytesLe32_append, h, bytesLe32_le32 rfl, mapWords_mapWords_cancel h rest hrest]
    rfl

/-- The length rule of R86, passed. -/
theorem permuteBuffer_of_whole_groups {f : Word → Word} {s : List Byte} (h : s.length % 4 = 0) :
    permuteBuffer f s = .ok (mapWords f s) := if_neg (not_not_intro h)

/-- The length rule of R86, failed. -/
theorem permuteBuffer_malformedLength {f : Word → Word} {s : List Byte} (h : s.length % 4 ≠ 0) :
    permuteBuffer f s = .error .malformedLength := if_pos h

end Sys2Proof.Machine
end

section
/-! SUPPORT. The commands `SWZ` and `USWZ` (41_swizzle.md R88, R89), for any word function in place of the two
directions: when such a command ends ok, when it is refused, and when one undoes another. -/
namespace Sys2Proof.Machine

section
variable {f g : Word → Word} {i j : Instr} {s : State} {v : Word}

theorem permuteW_ok (hph : acceptedIn i s.ph = true) (hw : s.w = some v) :
    permuteW f i s = .next { s with w := some (f v), err := 0#3 } :=
  permuteW_next_iff.2 ⟨hph, v, hw, rfl⟩

theorem permuteW_refused_of_phase (hph : acceptedIn i s.ph ≠ true) : ∃ r, permuteW f i s = .refused r := by
  refine refused_of_no_next fun t hnext => ?_
  obtain ⟨haccepted, -⟩ := permuteW_next_iff.1 hnext
  exact hph haccepted

theorem permuteW_refused_of_undef (hw : s.w = none) : ∃ r, permuteW f i s = .refused r := by
  refine refused_of_no_next fun t hnext => ?_
  obtain ⟨-, v, hv, -⟩ := permuteW_next_iff.1 hnext
  cases hw.symm.trans hv

/-- A phase without a key and an undefined `W` are the grounds of refusal of R88 and R89. -/
theorem permuteW_refused (hkeyed : acceptedIn i s.ph = s.ph.keyed) (h : s.ph = .noKey ∨ s.ph = .dead ∨ s.w = none) :
    ∃ r, permuteW f i s = .refused r := by
  rcases h with hnoKey | hdead | hundef
  · exact permuteW_refused_of_phase (hkeyed ▸ Phase.not_keyed_of_noKey_or_dead (.inl hnoKey))
  · exact permuteW_refused_of_phase (hkeyed ▸ Phase.not_keyed_of_noKey_or_dead (.inr hdead))
  · exact permuteW_refused_of_undef hundef

/-- The second of two inverse word functions puts the old value of `W` back: only `ERR` may differ. -/
theorem permuteW_undo (hgf : g (f v) = v) (hi : acceptedIn i s.ph = true) (hj : acceptedIn j s.ph = true)
    (hw : s.w = some v) : ∃ t, permuteW f i s = .next t ∧ permuteW g j t = .next { s with err := 0#3 } := by
  refine ⟨_, permuteW_ok hi hw, ?_⟩
  rw [permuteW_ok (s := { s with w := some (f v), err := 0#3 }) hj rfl, hgf, ← hw]

end

/-- Settles O18: `permuteW` with `swizzle`, and the rule's values. -/
theorem swzCommand : Obligations.SwzCommand :=
  ⟨rfl, fun _ _ hph hw => permuteW_ok (Phase.keyed_iff.2 hph) hw, fun _ h => permuteW_refused rfl h,
    by decide, by decide, by decide⟩

/-- Settles O19, by the inverse law of R84 in both orders. -/
theorem uswzCommand : Obligations.UswzCommand := by
  refine ⟨rfl, fun s v hph hw => ?_, fun _ h => permuteW_refused rfl h, by decide, by decide⟩
  have hkeyed : s.ph.keyed = true := Phase.keyed_iff.2 hph
  exact ⟨permuteW_ok hkeyed hw, permuteW_undo (unswizzle_swizzle v) hkeyed hkeyed hw,
    permuteW_undo (swizzle_unswizzle v) hkeyed hkeyed hw⟩

end Sys2Proof.Machine
end

section
/-! SUPPORT. The commands `SWZB` and `USWZB` (41_swizzle.md R90, R91), for any word function in place of the two
directions: the range they write and what they leave, the two lengths, the grounds of refusal, and that the inverse
function restores the range. -/
namespace Sys2Proof.Machine

/-! ### A range written over -/

/-- Writing a range and then its old bytes leaves a canonical frame as it was. -/
theorem State.memWrite_memWrite_memRead {s : State} {bs : List Byte} {n : Nat} (a : Nat) (hn : bs.length = n)
    (hwf : Memory.wf .frame s.frame = true) : (s.memWrite a bs).memWrite a (s.memRead a n) = s := by
  have sameBytes : ∀ x, ((s.memWrite a bs).memWrite a (s.memRead a n)).frameByte x = s.frameByte x := by
    intro x
    simp only [State.frameByte_memWrite, State.memRead_length, hn]
    split
    case isTrue hin =>
      have hlt : x - a < n := by omega
      rw [List.getD_eq_getElem?_getD, State.memRead_getElem?, if_pos hlt, Option.getD_some, Nat.add_sub_of_le hin.1]
    case isFalse hout => rfl
  have sameFrame : ((s.memWrite a bs).memWrite a (s.memRead a n)).frame = s.frame :=
    Memory.eq_of_get (Memory.wf_putBytes _ _ (Memory.wf_putBytes _ _ hwf)) hwf fun x => by
      rw [State.get_frame_eq, State.get_frame_eq, sameBytes]
  calc (s.memWrite a bs).memWrite a (s.memRead a n)
      = { s with frame := ((s.memWrite a bs).memWrite a (s.memRead a n)).frame } := rfl
    _ = s := by rw [sameFrame]

/-! ### The commands -/

/-- What R90 and R91 ask for before the length test: the phase, the two operands, and a range inside the frame. -/
structure RangeOperands (i : Instr) (s : State) (a n : Dword) : Prop where
  phase : acceptedIn i s.ph = true
  start : s.arg0 = some a
  length : s.arg1 = some n
  inFrame : a.toNat + n.toNat ≤ s.flen

/-- The bytes that replace the range. -/
def rangeImage (f : Word → Word) (s : State) (a n : Dword) : List Byte := mapWords f (s.memRead a.toNat n.toNat)

section
variable {f g : Word → Word} {i j : Instr} {s : State} {a n : Dword}

theorem rangeImage_length (hlen : n.toNat % 4 = 0) : (rangeImage f s a n).length = n.toNat := by
  rw [rangeImage, mapWords_length f _ (by rwa [State.memRead_length]), State.memRead_length]

theorem memRead_memWrite_rangeImage (hlen : n.toNat % 4 = 0) :
    (s.memWrite a.toNat (rangeImage f s a n)).memRead a.toNat n.toNat = rangeImage f s a n := by
  have whole := State.memRead_memWrite s a.toNat (rangeImage f s a n)
  rwa [rangeImage_length hlen] at whole

theorem permuteBuffer_memRead (hlen : n.toNat % 4 = 0) :
    permuteBuffer f (s.memRead a.toNat n.toNat) = .ok (rangeImage f s a n) :=
  permuteBuffer_of_whole_groups (by rwa [State.memRead_length])

theorem permuteRange_ok (h : RangeOperands i s a n) (hlen : n.toNat % 4 = 0) :
    permuteRange (permuteBuffer f) i s = .next (s.memWrite a.toNat (rangeImage f s a n)).finish := by
  refine permuteRange_next_iff.2 ⟨h.phase, a, n, h.start, h.length, h.inFrame, ?_⟩
  rw [permuteBuffer_memRead hlen]
  rfl

/-- "The frame is then unchanged" (R90). -/
theorem permuteRange_malformedLength (h : RangeOperands i s a n) (hlen : n.toNat % 4 ≠ 0) :
    permuteRange (permuteBuffer f) i s = .next (s.raise .malformedLength) := by
  refine permuteRange_next_iff.2 ⟨h.phase, a, n, h.start, h.length, h.inFrame, ?_⟩
  rw [permuteBuffer_malformedLength (by rwa [State.memRead_length])]
  rfl

/-- The effect of R90 and R91 as seen from outside: the range, every byte beside it, every other element. -/
theorem permuteRange_effect (h : RangeOperands i s a n) (hlen : n.toNat % 4 = 0) :
    ∃ t, permuteRange (permuteBuffer f) i s = .next t ∧
      permuteBuffer f (s.memRead a.toNat n.toNat) = .ok (t.memRead a.toNat n.toNat) ∧
      (∀ x, x < a.toNat ∨ a.toNat + n.toNat ≤ x → t.frameByte x = s.frameByte x) ∧
      t = { s with frame := t.frame, err := 0#3 } := by
  refine ⟨_, permuteRange_ok h hlen, ?range, fun x hx => ?outside, rfl⟩
  case range =>
    rw [permuteBuffer_memRead hlen]
    exact congrArg _ (memRead_memWrite_rangeImage hlen).symm
  case outside =>
    refine (State.frameByte_memWrite s a.toNat (rangeImage f s a n) x).trans (if_neg ?_)
    rw [rangeImage_length hlen]
    omega

/-- The range is compared without wrap (R46). -/
theorem permuteRange_refused_of_range {b : List Byte → Except ErrorKind (List Byte)} (ha : s.arg0 = some a)
    (hn : s.arg1 = some n) (hrange : s.flen < a.toNat + n.toNat) : ∃ r, permuteRange b i s = .refused r := by
  refine refused_of_no_next fun t hnext => ?_
  obtain ⟨-, a', n', ha', hn', hinside, -⟩ := permuteRange_next_iff.1 hnext
  cases ha.symm.trans ha'
  cases hn.symm.trans hn'
  exact Nat.not_le_of_lt hrange hinside

/-- Any phase but `IDLE` and an undefined operand are the other grounds of refusal of R90 and R91. -/
theorem permuteRange_refused {b : List Byte → Except ErrorKind (List Byte)}
    (hidle : acceptedIn i s.ph = (s.ph == .idle)) (h : s.ph ≠ .idle ∨ s.arg0 = none ∨ s.arg1 = none) :
    ∃ r, permuteRange b i s = .refused r := by
  refine refused_of_no_next fun t hnext => ?_
  obtain ⟨hph, a, n, ha, hn, -⟩ := permuteRange_next_iff.1 hnext
  rcases h with hphase | hundef | hundef
  · exact hphase (beq_iff_eq.1 (hidle.symm.trans hph))
  · cases hundef.symm.trans ha
  · cases hundef.symm.trans hn

/-- The second of two inverse word functions puts the range's old bytes back: only `ERR` may differ. -/
theorem permuteRange_undo (hgf : ∀ w, g (f w) = w) (hi : RangeOperands i s a n) (hj : acceptedIn j s.ph = true)
    (hlen : n.toNat % 4 = 0) (hwf : Memory.wf .frame s.frame = true) :
    ∃ t, permuteRange (permuteBuffer f) i s = .next t ∧
      permuteRange (permuteBuffer g) j t = .next { s with err := 0#3 } := by
  refine ⟨_, permuteRange_ok hi hlen, ?_⟩
  have operands : RangeOperands j (s.memWrite a.toNat (rangeImage f s a n)).finish a n :=
    ⟨hj, hi.start, hi.length, hi.inFrame⟩
  have oldBytes : rangeImage g (s.memWrite a.toNat (rangeImage f s a n)).finish a n = s.memRead a.toNat n.toNat :=
    calc mapWords g ((s.memWrite a.toNat (rangeImage f s a n)).memRead a.toNat n.toNat)
        = mapWords g (rangeImage f s a n) := by rw [memRead_memWrite_rangeImage hlen]
      _ = s.memRead a.toNat n.toNat := mapWords_mapWords_cancel hgf _ (by rwa [State.memRead_length])
  rw [permuteRange_ok operands hlen, oldBytes]
  show Host.Outcome.next
    ((s.memWrite a.toNat (rangeImage f s a n)).memWrite a.toNat (s.memRead a.toNat n.toNat)).finish = .next s.finish
  rw [State.memWrite_memWrite_memRead a.toNat (rangeImage_length hlen) hwf]

end

/-- Settles O20: `permuteRange` with `swizzle`, and the rule's bytes. -/
theorem swzbCommand : Obligations.SwzbCommand := by
  refine ⟨rfl, fun s a n hph ha hn hrange => ?_, fun _ _ _ => permuteRange_refused_of_range,
    fun _ => permuteRange_refused rfl, by decide⟩
  have operands : RangeOperands .swzb s a n := ⟨beq_iff_eq.2 hph, ha, hn, hrange⟩
  exact ⟨permuteRange_effect operands, permuteRange_malformedLength operands⟩

/-- Settles O21: `permuteRange` with `unswizzle`, and the inverse law of R84 in both orders. -/
theorem uswzbCommand : Obligations.UswzbCommand := by
  refine ⟨rfl, fun s a n hph ha hn hrange => ?_, fun _ _ _ => permuteRange_refused_of_range,
    fun _ => permuteRange_refused rfl, by decide, fun s a n hph ha hn hrange hlen hwf => ?_⟩
  · have operands : RangeOperands .uswzb s a n := ⟨beq_iff_eq.2 hph, ha, hn, hrange⟩
    exact ⟨permuteRange_effect operands, permuteRange_malformedLength operands⟩
  · have accepted : (s.ph == .idle) = true := beq_iff_eq.2 hph
    exact ⟨permuteRange_undo unswizzle_swizzle ⟨accepted, ha, hn, hrange⟩ accepted hlen hwf,
      permuteRange_undo swizzle_unswizzle ⟨accepted, ha, hn, hrange⟩ accepted hlen hwf⟩

end Sys2Proof.Machine
end

section
/-! SUPPORT. The block transform (42_block_transform.md R94 to R99): its stages undo themselves, deciphering undoes
enciphering, enciphering does not undo itself, and the two outcomes of the checksum test of R97. -/
namespace Sys2Proof.Machine

/-! ### The stages -/

/-- Stage K undoes itself under the same key and start (R94). -/
theorem xorKey_xorKey (key s : List Byte) (k : Nat) : xorKey key (xorKey key s k) k = s := xorPad_xorPad _ s

/-- Stage H undoes itself under the same static key (R95). -/
theorem xorHk_xorHk (s h : List Byte) : xorHk (xorHk s h) h = s := xorPad_xorPad _ s

/-- A pad of zeros leaves every byte. -/
theorem xorPad_eq_self {pad : Nat → Byte} (hpad : ∀ i, pad i = 0#8) (i : Nat) (s : List Byte) : xorPad pad i s = s := by
  induction s generalizing i with
  | nil => rfl
  | cons b rest ih => rw [xorPad, hpad, BitVec.xor_zero, ih]

/-- A zero key and the index 0 leave of the three stages only stage P. -/
theorem encipher_zero_key_zero_index (n : Nat) (s : List Byte) :
    encipher (List.replicate n 0#8) 0#32 s = mapWords swizzle s := by
  have zeroByte : ∀ m i : Nat, (List.replicate m 0#8).getD i 0#8 = 0#8 :=
    List.getElem?_getD_replicate_default_eq 0#8
  have staticKey : hk 0#32 = List.replicate 4 0#8 := by decide
  have stageH : ∀ x : List Byte, xorHk x (List.replicate 4 0#8) = x :=
    fun x => xorPad_eq_self (fun i => zeroByte 4 _) 0 x
  have stageK : ∀ (x : List Byte) (k : Nat), xorKey (List.replicate n 0#8) x k = x :=
    fun x k => xorPad_eq_self (fun i => zeroByte n _) 0 x
  rw [encipher, staticKey, stageH, stageK]

/-! ### The pipeline -/

/-- The stages in the reverse order undo each other in turn (R99). -/
theorem decipher_encipher (key : List Byte) (index : Word) {pt : List Byte} (h : pt.length % 4 = 0) :
    decipher key index (encipher key index pt) = pt := by
  rw [decipher, encipher, xorKey_xorKey, xorHk_xorHk, mapWords_mapWords_cancel unswizzle_swizzle pt h]

/-- Under the zero key and the index 0, the word 1 comes back rotated from enciphering twice. -/
theorem encipher_not_involutive :
    ∃ (key : List Byte) (index : Word) (pt : List Byte), key.length = 516 ∧ pt.length = 260 ∧
      encipher key index (encipher key index pt) ≠ pt := by
  have length : (bytesLe32 1#32 ++ List.replicate 256 0#8).length = 260 := by
    rw [List.length_append, bytesLe32_length, List.length_replicate]
  refine ⟨List.replicate 516 0#8, 0#32, _, List.length_replicate, length, fun h => ?_⟩
  rw [encipher_zero_key_zero_index, encipher_zero_key_zero_index, mapWords_bytesLe32_append,
    mapWords_bytesLe32_append] at h
  obtain ⟨hword, -⟩ := List.append_inj h rfl
  exact absurd hword (by decide)

theorem decryptPlain_of_checksum_eq {key ct : List Byte} {crc index : Word}
    (h : checksum (decipher key index ct) = crc) : decryptPlain key crc index ct = .ok (decipher key index ct) :=
  if_neg (not_not_intro h)

theorem decryptPlain_of_checksum_ne {key ct : List Byte} {crc index : Word}
    (h : checksum (decipher key index ct) ≠ crc) : decryptPlain key crc index ct = .error .blockChecksumMismatch :=
  if_pos h

end Sys2Proof.Machine
end

section
/-! SUPPORT. The commands `DEC` and `ENC` (42_block_transform.md R104, R105): what both read, their effect as seen from
outside, the grounds of refusal, and that `DEC` restores what `ENC` took. -/
namespace Sys2Proof.Machine

/-! ### The block buffer -/

/-- All of `BDATA` written at once is read back. -/
theorem State.blockBytes_setBdata (s : State) {bs : List Byte} (h : bs.length = Config.plainLength) :
    (s.setBdata bs).blockBytes = some bs :=
  Memory.collect_ofBytes .bdata bs _ h

/-- One `undef` byte leaves `BDATA` without a value as a whole (R25). -/
theorem State.blockBytes_ne_some_of_undef {s : State} {i : Nat} (hi : i < Config.plainLength)
    (hundef : s.blockByte i = none) (bs : List Byte) : s.blockBytes ≠ some bs := by
  intro h
  obtain ⟨hlen, hget⟩ := (Memory.collect_eq_some_iff ..).1 h
  have outside : bs[i]? = none := by rw [← hget i hi, Nat.zero_add]; exact hundef
  rw [List.getElem?_eq_none_iff, hlen] at outside
  exact Nat.not_lt_of_le outside hi

/-! ### What both commands read -/

/-- A phase with a key, and `BIDX`, all of `BDATA` and all of `KEY` defined. -/
structure BlockOperands (s : State) (index : Word) (data key : List Byte) : Prop where
  keyed : s.ph.keyed = true
  index : s.bidx = some index
  data : s.blockBytes = some data
  key : s.keyBytes = some key

section
variable {s : State} {crc index : Word} {data key : List Byte}

/-- R25: the buffer holds 260 bytes. -/
theorem BlockOperands.data_length (h : BlockOperands s index data key) : data.length = Config.plainLength :=
  Memory.collect_length h.data

/-- A block is whole words, so stage P keeps its length (R96). -/
theorem BlockOperands.data_whole_words (h : BlockOperands s index data key) : data.length % 4 = 0 :=
  congrArg (· % 4) h.data_length

/-- The grounds of refusal that R104 and R105 share exclude the operands. -/
theorem BlockOperands.not_refusable (h : BlockOperands s index data key) :
    ¬ (s.ph = .noKey ∨ s.ph = .dead ∨ s.bidx = none ∨ ∃ i, i < 260 ∧ s.blockByte i = none) := by
  rintro (hnoKey | hdead | hundef | ⟨i, hi, hundef⟩)
  · exact Phase.not_keyed_of_noKey_or_dead (.inl hnoKey) h.keyed
  · exact Phase.not_keyed_of_noKey_or_dead (.inr hdead) h.keyed
  · cases hundef.symm.trans h.index
  · exact State.blockBytes_ne_some_of_undef hi hundef data h.data

/-! ### `DEC` -/

theorem execDec_eq (h : BlockOperands s index data key) (hcrc : s.bcrc = some crc) :
    execDec s = .next (conclude s ((decryptPlain key crc index data).map fun pt => s.setBdata pt)) :=
  execDec_next_iff.2 ⟨h.keyed, crc, index, data, key, hcrc, h.index, h.data, h.key, rfl⟩

/-- The ok outcome of R104: the plaintext replaces the cipher bytes. -/
theorem execDec_ok (h : BlockOperands s index data key) (hcrc : s.bcrc = some crc)
    (hsum : checksum (decipher key index data) = crc) :
    ∃ t, execDec s = .next t ∧ t.blockBytes = some (decipher key index data) ∧
      t = { s with bdata := t.bdata, err := 0#3 } := by
  refine ⟨(s.setBdata (decipher key index data)).finish, ?next, ?block, rfl⟩
  case next =>
    rw [execDec_eq h hcrc, decryptPlain_of_checksum_eq hsum]
    rfl
  case block =>
    exact s.blockBytes_setBdata ((decipher_length key index data h.data_whole_words).trans h.data_length)

/-- The error outcome of R104: the error is entered and nothing is stored. -/
theorem execDec_blockChecksumMismatch (h : BlockOperands s index data key) (hcrc : s.bcrc = some crc)
    (hsum : checksum (decipher key index data) ≠ crc) : execDec s = .next (s.raise .blockChecksumMismatch) := by
  rw [execDec_eq h hcrc, decryptPlain_of_checksum_ne hsum]
  rfl

theorem execDec_refused
    (h : s.ph = .noKey ∨ s.ph = .dead ∨ s.bcrc = none ∨ s.bidx = none ∨ ∃ i, i < 260 ∧ s.blockByte i = none) :
    ∃ r, execDec s = .refused r := by
  refine refused_of_no_next fun t hnext => ?_
  obtain ⟨hkeyed, crc, index, ct, key, hcrc, hindex, hdata, hkey, -⟩ := execDec_next_iff.1 hnext
  have operands : BlockOperands s index ct key := ⟨hkeyed, hindex, hdata, hkey⟩
  rcases h with hnoKey | hdead | hundef | hother
  · exact operands.not_refusable (.inl hnoKey)
  · exact operands.not_refusable (.inr (.inl hdead))
  · cases hundef.symm.trans hcrc
  · exact operands.not_refusable (.inr (.inr hother))

/-! ### `ENC` -/

/-- The outcome of R105: `ENC` has no error. -/
theorem execEnc_ok (h : BlockOperands s index data key) :
    ∃ t, execEnc s = .next t ∧ t.blockBytes = some (encipher key index data) ∧
      t = { s with bcrc := some (checksum data), bdata := t.bdata, err := 0#3 } :=
  ⟨State.finish { s.setBdata (encipher key index data) with bcrc := some (checksum data) },
    execEnc_next_iff.2 ⟨h.keyed, index, data, key, h.index, h.data, h.key, rfl⟩,
    s.blockBytes_setBdata ((encipher_length key index data h.data_whole_words).trans h.data_length), rfl⟩

theorem execEnc_refused (h : s.ph = .noKey ∨ s.ph = .dead ∨ s.bidx = none ∨ ∃ i, i < 260 ∧ s.blockByte i = none) :
    ∃ r, execEnc s = .refused r := by
  refine refused_of_no_next fun t hnext => ?_
  obtain ⟨hkeyed, index, pt, key, hindex, hdata, hkey, -⟩ := execEnc_next_iff.1 hnext
  have operands : BlockOperands s index pt key := ⟨hkeyed, hindex, hdata, hkey⟩
  exact operands.not_refusable h

/-- "`ENC` then `DEC` restores `BDATA` and ends ok" (R105): `ENC` leaves in `BCRC` the checksum that `DEC` tests. -/
theorem execEnc_then_execDec (h : BlockOperands s index data key) :
    ∃ t u, execEnc s = .next t ∧ execDec t = .next u ∧ u.blockBytes = some data ∧
      u = { s with bcrc := some (checksum data), bdata := u.bdata, err := 0#3 } := by
  obtain ⟨t, henc, hcipher, ht⟩ := execEnc_ok h
  have operands : BlockOperands t index (encipher key index data) key := by
    refine ⟨?keyed, ?index, hcipher, ?key⟩
    all_goals rw [ht]
    case keyed => exact h.keyed
    case index => exact h.index
    case key => exact h.key
  have stored : t.bcrc = some (checksum data) := by rw [ht]
  have restored : decipher key index (encipher key index data) = data :=
    decipher_encipher key index h.data_whole_words
  obtain ⟨u, hdec, hplain, hu⟩ := execDec_ok operands stored (congrArg checksum restored)
  rw [restored] at hplain
  exact ⟨t, u, henc, hdec, hplain, hu.trans (by rw [ht])⟩

end

/-- Settles O27: the two outcomes of the checksum test, and the grounds of refusal. -/
theorem decCommand : Obligations.DecCommand := by
  refine ⟨rfl, fun s crc index ct key hph hcrc hindex hdata hkey => ?_, fun _ => execDec_refused⟩
  have operands : BlockOperands s index ct key := ⟨Phase.keyed_iff.2 hph, hindex, hdata, hkey⟩
  exact ⟨execDec_ok operands hcrc, execDec_blockChecksumMismatch operands hcrc⟩

/-- Settles O28: the effect, the grounds of refusal, the way back by `DEC`, and a plaintext that enciphering twice does
not restore. -/
theorem encCommand : Obligations.EncCommand := by
  refine ⟨rfl, fun s index pt key hph hindex hdata hkey => ?effect, fun _ => execEnc_refused,
    fun s index pt key hph hindex hdata hkey => ?wayBack, encipher_not_involutive⟩
  case effect => exact execEnc_ok ⟨Phase.keyed_iff.2 hph, hindex, hdata, hkey⟩
  case wayBack => exact execEnc_then_execDec ⟨Phase.keyed_iff.2 hph, hindex, hdata, hkey⟩

end Sys2Proof.Machine
end

section
/-! SUPPORT. The record formats read from and written to the frame (30_encoding.md R61 to R64, 20_memory.md R49), and when
any command is refused for its phase (43_container.md R124). -/
namespace Sys2Proof.Machine

/-! ### Refusal for the phase -/

theorem exec_refused_of_phase {i : Instr} {s : State} (h : acceptedIn i s.ph ≠ true) : ∃ r, exec i s = .refused r :=
  refused_of_no_next fun _ hnext => h (exec_ends hnext).1

/-- A command that R124 accepts in one phase only is refused in every other. -/
theorem exec_refused_outside {i : Instr} {p : Phase} {s : State} (hone : acceptedIn i s.ph = (s.ph == p))
    (h : s.ph ≠ p) : ∃ r, exec i s = .refused r :=
  exec_refused_of_phase fun haccepted => h (beq_iff_eq.1 (hone.symm.trans haccepted))

/-! ### The header -/

/-- `le16` undoes `bytes_le16` (R10). -/
@[simp] theorem le16_bytesLe16 (v : Half) : le16 (bytesLe16 v) = v := by
  have hv := v.isLt
  apply BitVec.eq_of_toNat_eq
  simp only [le16, bytesLe16, leNat, byteOf_toNat, BitVec.toNat_ofNat]
  omega

/-- `parse_header` undoes `ser_header` (R61, R62). -/
@[simp] theorem parseHeader_serHeader (h : FileHeader) : parseHeader (serHeader h) = h := by
  have magic : slice (serHeader h) 2 2 = bytesLe16 h.magic := rfl
  have crc : slice (serHeader h) 4 4 = bytesLe32 h.crc32 := rfl
  have pad : slice (serHeader h) 8 4 = bytesLe32 h.pad := rfl
  have numBlocks : slice (serHeader h) 12 4 = bytesLe32 h.numBlocks := rfl
  rw [parseHeader, magic, crc, pad, numBlocks, le16_bytesLe16, le32_bytesLe32, le32_bytesLe32, le32_bytesLe32]
  rfl

/-- The header at the start of the frame, field by field at the frame addresses of R61. -/
theorem parseHeader_memRead (s : State) :
    parseHeader (s.memRead 0 Config.headerLength) =
      { minor := s.frameByte 0, major := s.frameByte 1, magic := le16 (s.memRead 2 2), crc32 := le32 (s.memRead 4 4),
        pad := le32 (s.memRead 8 4), numBlocks := le32 (s.memRead 12 4) } := by
  have part (i k : Nat) (h : i + k ≤ Config.headerLength) :
      slice (s.memRead 0 Config.headerLength) i k = s.memRead i k := by
    rw [State.slice_memRead s 0 _ i k h, Nat.zero_add]
  rw [parseHeader, part 2 2 (by decide), part 4 4 (by decide), part 8 4 (by decide), part 12 4 (by decide)]
  rfl

/-! ### A block record -/

/-- The record at `a`, field by field at the frame addresses of R63. -/
theorem parseBlock_memRead (s : State) (a : Nat) :
    parseBlock (s.memRead a Config.blockLength) =
      { crc32 := le32 (s.memRead a 4), index := le32 (s.memRead (a + 4) 4), unknown := le32 (s.memRead (a + 8) 4),
        pad := le32 (s.memRead (a + 12) 4), cipherData := s.memRead (a + 16) Config.plainLength } := by
  have part (i k : Nat) (h : i + k ≤ Config.blockLength) :
      slice (s.memRead a Config.blockLength) i k = s.memRead (a + i) k := State.slice_memRead s a _ i k h
  rw [parseBlock, part 0 4 (by decide), part 4 4 (by decide), part 8 4 (by decide), part 12 4 (by decide),
    part 16 Config.plainLength (by decide), Nat.add_zero]

/-- A record with 260 cipher bytes takes 276 (R64). -/
theorem serBlock_length_of_plainLength {b : BlockRecord} (h : b.cipherData.length = Config.plainLength) :
    (serBlock b).length = Config.blockLength := by
  rw [serBlock_length, h]; rfl

/-! ### The frame and the block buffer -/

/-- What is appended to the frame is read back at the old end. -/
theorem State.memRead_growFrame (s : State) (bs : List Byte) : (s.growFrame bs).memRead s.flen bs.length = bs :=
  State.memRead_memWrite s s.flen bs

theorem State.frameByte_growFrame_of_lt (s : State) (bs : List Byte) {x : Nat} (h : x < s.flen) :
    (s.growFrame bs).frameByte x = s.frameByte x := by
  rw [State.frameByte_growFrame, if_neg fun hin => Nat.not_le_of_lt h hin.1]

/-- A header written over the first bytes of the frame leaves every later byte. -/
theorem State.frameByte_memWrite_serHeader (s : State) (h : FileHeader) {x : Nat} (hx : Config.headerLength ≤ x) :
    (s.memWrite 0 (serHeader h)).frameByte x = s.frameByte x := by
  rw [State.frameByte_memWrite, serHeader_length, Nat.zero_add, if_neg fun hin => Nat.not_lt_of_le hx hin.2]

theorem State.frameByte_congr {s t : State} (h : t.frame = s.frame) (a : Nat) : t.frameByte a = s.frameByte a := by
  rw [State.frameByte, h, State.frameByte]

/-- `BDATA` filled from a frame range holds that range's bytes. -/
theorem State.blockByte_setBdata_memRead (s : State) (a : Nat) {n i : Nat} (hi : i < n) :
    (s.setBdata (s.memRead a n)).blockByte i = some (s.frameByte (a + i)) := by
  rw [State.blockByte, State.setBdata_bdata, Memory.get_ofBytes, State.memRead_length, if_pos (by omega), Nat.sub_zero,
    State.memRead_getElem?, if_pos hi]

end Sys2Proof.Machine
end

section
/-! SUPPORT. The commands `DECC`, `LDBLK` and `CLOSE` (43_container.md R112 to R114): their outcomes and the grounds of
refusal. -/
namespace Sys2Proof.Machine

/-! ### `DECC` -/

/-- The frame length the header's `numBlocks` asks for (R112, step 3): the header and that many records. -/
def State.headerPromise (s : State) : Nat := recordAddress (le32 (s.memRead 12 4)).toNat

section
variable {s : State}

theorem execDecc_truncatedInput (hph : s.ph = .idle)
    (hshort : s.flen < Config.headerLength ∨ s.flen < s.headerPromise) :
    execDecc s = .next (s.raise .truncatedInput) := by
  refine execDecc_next_iff.2 ⟨hph, ?_⟩
  rw [parseHeader_memRead]
  exact (if_pos hshort).symm

theorem State.not_truncated (hheader : Config.headerLength ≤ s.flen) (hblocks : s.headerPromise ≤ s.flen) :
    ¬ (s.flen < Config.headerLength ∨ s.flen < s.headerPromise) :=
  not_or.2 ⟨Nat.not_lt_of_le hheader, Nat.not_lt_of_le hblocks⟩

theorem execDecc_fileChecksumMismatch (hph : s.ph = .idle) (hheader : Config.headerLength ≤ s.flen)
    (hblocks : s.headerPromise ≤ s.flen)
    (hsum : checksum (s.memRead Config.headerLength (s.flen - Config.headerLength)) ≠ le32 (s.memRead 4 4)) :
    execDecc s = .next (s.raise .fileChecksumMismatch) := by
  refine execDecc_next_iff.2 ⟨hph, ?_⟩
  rw [parseHeader_memRead]
  exact ((if_neg (State.not_truncated hheader hblocks)).trans (if_pos hsum)).symm

/-- The ok outcome of R112: the header registers take the header's fields. -/
theorem execDecc_opens (hph : s.ph = .idle) (hheader : Config.headerLength ≤ s.flen)
    (hblocks : s.headerPromise ≤ s.flen)
    (hsum : checksum (s.memRead Config.headerLength (s.flen - Config.headerLength)) = le32 (s.memRead 4 4)) :
    execDecc s = .next { s with
      hminor := some (s.frameByte 0), hmajor := some (s.frameByte 1), hmagic := some (le16 (s.memRead 2 2)),
      hcrc := some (le32 (s.memRead 4 4)), hpad := some (le32 (s.memRead 8 4)),
      hnblk := some (le32 (s.memRead 12 4)), ph := .opened, err := 0#3 } := by
  refine execDecc_next_iff.2 ⟨hph, ?_⟩
  rw [parseHeader_memRead]
  exact ((if_neg (State.not_truncated hheader hblocks)).trans (if_neg (not_not.2 hsum))).symm

end

/-- Settles O32: the three tests of R141 in their order, and the ok outcome. -/
theorem deccCommand : Obligations.DeccCommand := by
  refine ⟨rfl, fun s hph => ⟨fun hshort => ?noHeader, fun _ hshort => ?noBlocks, ?mismatch, ?opens⟩,
    fun s => exec_refused_outside rfl⟩
  case noHeader => exact execDecc_truncatedInput hph (.inl hshort)
  case noBlocks => exact execDecc_truncatedInput hph (.inr hshort)
  case mismatch => exact execDecc_fileChecksumMismatch hph
  case opens => exact execDecc_opens hph

/-! ### `LDBLK` -/

/-- R113: the four words of the record and its 260 cipher bytes. -/
theorem execLdblk_ok {s : State} {k : Dword} {n : Word} (hph : s.ph = .opened) (hk : s.arg0 = some k)
    (hn : s.hnblk = some n) (hlt : k.toNat < n.toNat) (hroom : recordAddress (k.toNat + 1) ≤ s.flen) :
    execLdblk s = .next { s.setBdata (s.memRead (recordAddress k.toNat + 16) Config.plainLength) with
      bcrc := some (le32 (s.memRead (recordAddress k.toNat) 4)),
      bidx := some (le32 (s.memRead (recordAddress k.toNat + 4) 4)),
      bunk := some (le32 (s.memRead (recordAddress k.toNat + 8) 4)),
      bpad := some (le32 (s.memRead (recordAddress k.toNat + 12) 4)), err := 0#3 } := by
  refine execLdblk_next_iff.2 ⟨hph, k, n, hk, hn, hlt, hroom, ?_⟩
  rw [parseBlock_memRead]
  rfl

theorem execLdblk_refused {s : State}
    (h : s.ph ≠ .opened ∨ s.arg0 = none ∨ ∃ k n, s.arg0 = some k ∧ s.hnblk = some n ∧ n.toNat ≤ k.toNat) :
    ∃ r, execLdblk s = .refused r := by
  refine refused_of_no_next fun t hnext => ?_
  obtain ⟨hph, k, n, hk, hn, hlt, -⟩ := execLdblk_next_iff.1 hnext
  rcases h with hphase | hundef | ⟨k', n', hk', hn', hle⟩
  · exact hphase hph
  · cases hundef.symm.trans hk
  · cases hk.symm.trans hk'
    cases hn.symm.trans hn'
    exact Nat.not_le_of_lt hlt hle

/-- Settles O34: the record's fields at their frame addresses, and the grounds of refusal. -/
theorem ldblkCommand : Obligations.LdblkCommand :=
  ⟨rfl,
    fun s _ _ hph hk hn hlt hroom =>
      ⟨_, execLdblk_ok hph hk hn hlt hroom, fun _ hi => s.blockByte_setBdata_memRead _ hi, rfl⟩,
    fun _ => execLdblk_refused⟩

/-! ### `CLOSE` -/

/-- Settles O35: only `PH` and `ERR` are written (R114). -/
theorem closeCommand : Obligations.CloseCommand :=
  ⟨rfl, fun _ hph => execClose_next_iff.2 ⟨hph, rfl⟩, fun _ => exec_refused_outside rfl⟩

end Sys2Proof.Machine
end

section
/-! SUPPORT. The commands `BEGIN`, `APPEND` and `ENCC` (43_container.md R115 to R117): the frame each leaves, the grounds of
refusal, and that `DECC` opens what `ENCC` has completed. -/
namespace Sys2Proof.Machine

/-! ### `BEGIN` -/

/-- Settles O36: the placeholder header is the whole frame (R115). -/
theorem beginCommand : Obligations.BeginCommand := by
  refine ⟨rfl, fun s hph => ⟨_, execBegin_next_iff.2 ⟨hph, rfl⟩, ?placeholder, rfl⟩, fun _ => exec_refused_outside rfl⟩
  case placeholder => exact s.memRead_setFrame (List.replicate Config.headerLength 0#8)

/-! ### `APPEND` -/

/-- What R116 reads: the phase, the record in the block registers and `BDATA`, a count that can still rise, room. -/
structure AppendOperands (s : State) (b : BlockRecord) : Prop where
  phase : s.ph = .building
  crc : s.bcrc = some b.crc32
  index : s.bidx = some b.index
  unknown : s.bunk = some b.unknown
  pad : s.bpad = some b.pad
  data : s.blockBytes = some b.cipherData
  count : s.ecnt.toNat ≠ 2 ^ 32 - 1
  room : recordAddress (s.ecnt.toNat + 1) ≤ s.params.fcap

section
variable {s : State} {b : BlockRecord}

/-- R25: the buffer holds 260 bytes, so the record has its 276. -/
theorem AppendOperands.serBlock_length (h : AppendOperands s b) : (serBlock b).length = Config.blockLength :=
  serBlock_length_of_plainLength (Memory.collect_length h.data)

theorem AppendOperands.not_refusable (h : AppendOperands s b) :
    ¬ (s.ph ≠ .building ∨ s.bcrc = none ∨ s.bidx = none ∨ s.bunk = none ∨ s.bpad = none ∨
      (∃ i, i < 260 ∧ s.blockByte i = none) ∨ s.ecnt.toNat = 2 ^ 32 - 1 ∨
      s.params.fcap < recordAddress (s.ecnt.toNat + 1)) := by
  rintro (hphase | hundef | hundef | hundef | hundef | ⟨i, hi, hundef⟩ | hcount | hroom)
  · exact hphase h.phase
  · cases hundef.symm.trans h.crc
  · cases hundef.symm.trans h.index
  · cases hundef.symm.trans h.unknown
  · cases hundef.symm.trans h.pad
  · exact State.blockBytes_ne_some_of_undef hi hundef _ h.data
  · exact h.count hcount
  · exact Nat.not_le_of_lt hroom h.room

theorem execAppend_next_iff_operands {t : State} :
    execAppend s = .next t ↔
      ∃ b, AppendOperands s b ∧ t = State.finish { s.growFrame (serBlock b) with ecnt := s.ecnt + 1 } := by
  constructor
  · intro hnext
    obtain ⟨hph, c, i, u, p, d, hc, hi, hu, hp, hd, hcount, hroom, ht⟩ := execAppend_next_iff.1 hnext
    exact ⟨⟨c, i, u, p, d⟩, ⟨hph, hc, hi, hu, hp, hd, hcount, hroom⟩, ht⟩
  · rintro ⟨b, h, ht⟩
    exact execAppend_next_iff.2 ⟨h.phase, b.crc32, b.index, b.unknown, b.pad, b.cipherData, h.crc, h.index, h.unknown,
      h.pad, h.data, h.count, h.room, ht⟩

/-- The count does not wrap, so the frame again ends where the next record will begin (R49, R116). -/
theorem AppendOperands.flen_growFrame (h : AppendOperands s b) (hlen : s.flen = recordAddress s.ecnt.toNat) :
    (s.growFrame (serBlock b)).flen = recordAddress (s.ecnt + 1).toNat := by
  have hcount := h.count
  have rises : (s.ecnt + 1).toNat = s.ecnt.toNat + 1 := by bv_omega
  rw [rises, recordAddress_succ, State.growFrame_flen, h.serBlock_length, hlen]

/-- The effect of R116 as seen from outside: the record, every earlier byte, every other element. -/
theorem execAppend_effect (h : AppendOperands s b) (hlen : s.flen = recordAddress s.ecnt.toNat) :
    ∃ t, execAppend s = .next t ∧
      t.memRead (recordAddress s.ecnt.toNat) Config.blockLength = serBlock b ∧
      (∀ a, a < recordAddress s.ecnt.toNat → t.frameByte a = s.frameByte a) ∧
      t.flen = recordAddress t.ecnt.toNat ∧
      t = { s with frame := t.frame, flen := s.flen + 276, ecnt := s.ecnt + 1, err := 0#3 } := by
  refine ⟨_, execAppend_next_iff_operands.2 ⟨b, h, rfl⟩, ?record, ?earlier, h.flen_growFrame hlen, ?rest⟩
  case record =>
    have appended := s.memRead_growFrame (serBlock b)
    rwa [hlen, h.serBlock_length] at appended
  case earlier =>
    rw [← hlen]
    exact fun a ha => s.frameByte_growFrame_of_lt (serBlock b) ha
  case rest =>
    rw [show (276 : Nat) = (serBlock b).length from h.serBlock_length.symm]
    rfl

end

/-- Settles O37: the record at the frame's end, and the grounds of refusal. -/
theorem appendCommand : Obligations.AppendCommand := by
  refine ⟨rfl, fun s crc index unknown pad data hph hcrc hindex hunknown hpad hdata hcount hroom hlen => ?_,
    fun s h => refused_of_no_next fun t hnext => ?_⟩
  · have operands : AppendOperands s ⟨crc, index, unknown, pad, data⟩ :=
      ⟨hph, hcrc, hindex, hunknown, hpad, hdata, hcount, hroom⟩
    exact execAppend_effect operands hlen
  · obtain ⟨b, operands, -⟩ := execAppend_next_iff_operands.1 hnext
    exact operands.not_refusable h

/-! ### `ENCC` -/

/-- The header `ENCC` writes (R117): the host's four fields, the checksum of every byte behind it, and `ECNT`. -/
def State.completedHeader (s : State) (minor major : Byte) (magic : Half) (pad : Word) : FileHeader :=
  { minor := minor, major := major, magic := magic,
    crc32 := checksum (s.memRead Config.headerLength (s.flen - Config.headerLength)), pad := pad, numBlocks := s.ecnt }

/-- The state R117 leaves: the header over the first 16 bytes, `HCRC`, `HNBLK`, `PH` and `ERR`. -/
def State.completed (s : State) (h : FileHeader) : State :=
  State.finish { s.memWrite 0 (serHeader h) with hcrc := some h.crc32, hnblk := some h.numBlocks, ph := .idle }

section
variable {s : State} {minor major : Byte} {magic : Half} {pad : Word}

theorem State.memRead_completed_header (s : State) (h : FileHeader) :
    (s.completed h).memRead 0 Config.headerLength = serHeader h :=
  s.memRead_memWrite 0 (serHeader h)

theorem State.memRead_completed_body (s : State) (h : FileHeader) (n : Nat) :
    (s.completed h).memRead Config.headerLength n = s.memRead Config.headerLength n :=
  s.memRead_memWrite_of_disjoint 0 (serHeader h) _ n (.inr (Nat.le_refl _))

theorem execEncc_ok (hph : s.ph = .building) (hminor : s.hminor = some minor) (hmajor : s.hmajor = some major)
    (hmagic : s.hmagic = some magic) (hpad : s.hpad = some pad) (hheader : Config.headerLength ≤ s.flen) :
    execEncc s = .next (s.completed (s.completedHeader minor major magic pad)) :=
  execEncc_next_iff.2 ⟨hph, minor, major, magic, pad, hminor, hmajor, hmagic, hpad, hheader, rfl⟩

/-- "A `DECC` on it succeeds" (R117): it reads back the header just written and finds its checksum right. -/
theorem execDecc_completed (hminor : s.hminor = some minor) (hmajor : s.hmajor = some major)
    (hmagic : s.hmagic = some magic) (hpad : s.hpad = some pad) (hlen : s.flen = recordAddress s.ecnt.toNat) :
    execDecc (s.completed (s.completedHeader minor major magic pad)) =
      .next { s.completed (s.completedHeader minor major magic pad) with ph := .opened } := by
  refine execDecc_next_iff.2 ⟨rfl, ?_⟩
  have header : parseHeader ((s.completed (s.completedHeader minor major magic pad)).memRead 0 Config.headerLength) =
      s.completedHeader minor major magic pad := by
    rw [State.memRead_completed_header, parseHeader_serHeader]
  have whole : ¬ (s.flen < Config.headerLength ∨ s.flen < recordAddress s.ecnt.toNat) := by
    rw [hlen]
    exact not_or.2 ⟨Nat.not_lt_of_le (Nat.le_add_right _ _), Nat.lt_irrefl _⟩
  have sum : checksum ((s.completed (s.completedHeader minor major magic pad)).memRead Config.headerLength
      (s.flen - Config.headerLength)) = (s.completedHeader minor major magic pad).crc32 := by
    rw [State.memRead_completed_body]
    rfl
  rw [header]
  refine Eq.symm ((if_neg whole).trans ((if_neg (not_not.2 sum)).trans ?_))
  simp only [State.completed, State.completedHeader, State.finish, State.memWrite, hminor, hmajor, hmagic, hpad]

theorem execEncc_refused
    (h : s.ph ≠ .building ∨ s.hminor = none ∨ s.hmajor = none ∨ s.hmagic = none ∨ s.hpad = none) :
    ∃ r, execEncc s = .refused r := by
  refine refused_of_no_next fun t hnext => ?_
  obtain ⟨hph, minor, major, magic, pad, hminor, hmajor, hmagic, hpad, -⟩ := execEncc_next_iff.1 hnext
  rcases h with hphase | hundef | hundef | hundef | hundef
  · exact hphase hph
  · cases hundef.symm.trans hminor
  · cases hundef.symm.trans hmajor
  · cases hundef.symm.trans hmagic
  · cases hundef.symm.trans hpad

end

/-- Settles O38: the completed container, the `DECC` that opens it, and the grounds of refusal. -/
theorem enccCommand : Obligations.EnccCommand := by
  refine ⟨rfl, fun s minor major magic pad hph hminor hmajor hmagic hpad hheader =>
    ⟨_, execEncc_ok hph hminor hmajor hmagic hpad hheader, ?header, ?body, rfl, ?opens⟩, fun _ => execEncc_refused⟩
  case header => exact s.memRead_completed_header _
  case body => exact fun a ha => s.frameByte_memWrite_serHeader _ ha
  case opens => exact execDecc_completed hminor hmajor hmagic hpad

end Sys2Proof.Machine
end

section
/-! SUPPORT. Who may write the frame (43_container.md R123): no step but `RESET` while a container is open, `APPEND` and
`ENCC` alone while one is being built. -/
namespace Sys2Proof.Machine

/-! ### Commands -/

/-- The commands that write `FRAME` (R90, R91, R115 to R117). -/
def frameWriters : List Instr := [.swzb, .uswzb, .begin, .append, .encc]

/-- Both the frame's bytes and its length are as before. -/
structure FrameKept (s t : State) : Prop where
  frame : t.frame = s.frame
  flen : t.flen = s.flen

/-- A result stored in `BDATA`, or the error entered: the frame is kept either way. -/
theorem frameKept_conclude_setBdata (s : State) (x : Except ErrorKind (List Byte)) :
    FrameKept s (conclude s (x.map fun bs => s.setBdata bs)) := by
  cases x with
  | error e => exact ⟨rfl, rfl⟩
  | ok bs => exact ⟨rfl, rfl⟩

theorem exec_frameKept {i : Instr} {s t : State} (hi : i ∉ frameWriters) (h : exec i s = .next t) : FrameKept s t := by
  cases i with
  | ldkey =>
    obtain ⟨-, rfl⟩ := execLdkey_next_iff.1 h
    split
    · exact ⟨rfl, rfl⟩
    · exact ⟨rfl, rfl⟩
  | crc => obtain ⟨-, _, _, -, -, -, rfl⟩ := execCrc_next_iff.1 h; exact ⟨rfl, rfl⟩
  | swz => obtain ⟨-, _, -, rfl⟩ := permuteW_next_iff.1 h; exact ⟨rfl, rfl⟩
  | uswz => obtain ⟨-, _, -, rfl⟩ := permuteW_next_iff.1 h; exact ⟨rfl, rfl⟩
  | dec =>
    obtain ⟨-, _, _, _, _, -, -, -, -, rfl⟩ := execDec_next_iff.1 h
    exact frameKept_conclude_setBdata s _
  | enc => obtain ⟨-, _, _, _, -, -, -, rfl⟩ := execEnc_next_iff.1 h; exact ⟨rfl, rfl⟩
  | decc =>
    obtain ⟨-, rfl⟩ := execDecc_next_iff.1 h
    split
    · exact ⟨rfl, rfl⟩
    · split
      · exact ⟨rfl, rfl⟩
      · exact ⟨rfl, rfl⟩
  | ldblk => obtain ⟨-, _, _, -, -, -, -, rfl⟩ := execLdblk_next_iff.1 h; exact ⟨rfl, rfl⟩
  | close => obtain ⟨-, rfl⟩ := execClose_next_iff.1 h; exact ⟨rfl, rfl⟩
  | swzb | uswzb | begin | append | encc => exact absurd (by decide) hi

/-- R124 accepts no writer of the frame in `OPEN`, and only two of them in `BUILD`. -/
theorem acceptedIn_opened_not_writer {i : Instr} (h : acceptedIn i .opened = true) : i ∉ frameWriters := by
  cases i <;> revert h <;> decide

theorem acceptedIn_building_cases {i : Instr} (h : acceptedIn i .building = true) :
    i ∉ frameWriters ∨ i = .append ∨ i = .encc := by
  cases i <;> revert h <;> decide

/-- What `APPEND` does to the frame: it writes beyond the old end only. -/
structure Appended (s t : State) : Prop where
  grown : s.flen ≤ t.flen
  earlier : ∀ a, a < s.flen → t.frameByte a = s.frameByte a

/-- What `ENCC` does to the frame: it writes the header only, and the building ends. -/
structure HeaderWritten (s t : State) : Prop where
  flen : t.flen = s.flen
  left : t.ph = .idle
  body : ∀ a, Config.headerLength ≤ a → t.frameByte a = s.frameByte a

theorem exec_building {i : Instr} {s t : State} (hph : s.ph = .building) (h : exec i s = .next t) :
    FrameKept s t ∨ (i = .append ∧ Appended s t) ∨ (i = .encc ∧ HeaderWritten s t) := by
  have accepted : acceptedIn i .building = true := hph ▸ (exec_ends h).1
  rcases acceptedIn_building_cases accepted with hother | rfl | rfl
  · exact .inl (exec_frameKept hother h)
  · obtain ⟨b, -, rfl⟩ := execAppend_next_iff_operands.1 h
    exact .inr (.inl ⟨rfl, Nat.le_add_right _ _, fun a ha => s.frameByte_growFrame_of_lt (serBlock b) ha⟩)
  · obtain ⟨-, _, _, _, _, -, -, -, -, -, rfl⟩ := execEncc_next_iff.1 h
    exact .inr (.inr ⟨rfl, rfl, rfl, fun a ha => s.frameByte_memWrite_serHeader _ ha⟩)

/-! ### Steps -/

/-- The frame moves are the host's in `IDLE` only (R34, R130). -/
theorem move_frameKept {m : HostMove} {s t : State} (hm : m.isCommand = false) (hr : m ≠ .reset) (hph : s.ph ≠ .idle)
    (h : perform m s = .next t) : FrameKept s t := by
  obtain ⟨-, -, -, -, -, -, hframe⟩ := move_keeps hm hr h
  exact ⟨(hframe hph).1, (hframe hph).2⟩

theorem step_opened {s t : State} (h : step s = .next t) (hph : s.ph = .opened) :
    (∃ rest, s.inbox = .reset :: rest) ∨ FrameKept s t := by
  obtain rfl | ⟨rest, ⟨hreset, -⟩ | ⟨v, i, -, -, hexec⟩ | ⟨m, -, hm, hr, hmove⟩⟩ := step_next_cases h
  · exact .inr ⟨rfl, rfl⟩
  · exact .inl ⟨rest, hreset⟩
  · have accepted : acceptedIn i .opened = true := hph ▸ (exec_ends hexec).1
    have kept := exec_frameKept (acceptedIn_opened_not_writer accepted) hexec
    exact .inr ⟨kept.frame, kept.flen⟩
  · have kept := move_frameKept hm hr (by simp [hph]) hmove
    exact .inr ⟨kept.frame, kept.flen⟩

theorem step_building {s t : State} (h : step s = .next t) (hph : s.ph = .building) :
    (∃ rest, s.inbox = .reset :: rest) ∨ FrameKept s t ∨
      ∃ v rest, s.inbox = .writeReg 0 v :: rest ∧
        ((decode (v.setWidth 32) = .ok .append ∧ Appended s t) ∨
          (decode (v.setWidth 32) = .ok .encc ∧ HeaderWritten s t)) := by
  obtain rfl | ⟨rest, ⟨hreset, -⟩ | ⟨v, i, hin, hdecode, hexec⟩ | ⟨m, -, hm, hr, hmove⟩⟩ := step_next_cases h
  · exact .inr (.inl ⟨rfl, rfl⟩)
  · exact .inl ⟨rest, hreset⟩
  · obtain kept | ⟨rfl, appended⟩ | ⟨rfl, written⟩ := exec_building (s := { s with inbox := rest }) hph hexec
    · exact .inr (.inl ⟨kept.frame, kept.flen⟩)
    · exact .inr (.inr ⟨v, rest, hin, .inl ⟨hdecode, appended.grown, appended.earlier⟩⟩)
    · exact .inr (.inr ⟨v, rest, hin, .inr ⟨hdecode, written.flen, written.left, written.body⟩⟩)
  · have kept := move_frameKept hm hr (by simp [hph]) hmove
    exact .inr (.inl ⟨kept.frame, kept.flen⟩)

/-- Settles O54: an open container is kept by every step, and one being built by every step but its two writers. -/
theorem containersAreImmutable : Obligations.ContainersAreImmutable := by
  intro s t h
  by_cases hreset : ∃ rest, s.inbox = .reset :: rest
  · exact .inl hreset
  refine .inr ⟨fun hph => ?opened, fun hph => ?building⟩
  case opened =>
    have kept := (step_opened h hph).resolve_left hreset
    exact ⟨kept.flen, State.frameByte_congr kept.frame⟩
  case building =>
    obtain kept | ⟨v, rest, hin, ⟨hdecode, appended⟩ | ⟨hdecode, written⟩⟩ :=
      (step_building h hph).resolve_left hreset
    · have same := State.frameByte_congr kept.frame
      refine ⟨kept.flen.ge, fun a _ _ => same a, fun _ a _ => same a, ?noChange⟩
      rintro (hflen | ⟨a, hbyte⟩)
      · exact absurd kept.flen hflen
      · exact absurd (same a) hbyte
    · exact ⟨appended.grown, fun a _ ha => appended.earlier a ha, fun _ => appended.earlier,
        fun _ => ⟨v, rest, hin, .inl ⟨hdecode, appended.earlier⟩⟩⟩
    · refine ⟨written.flen.ge, fun a ha _ => written.body a ha, fun hstays => ?stays,
        fun _ => ⟨v, rest, hin, .inr ⟨hdecode, written.flen, written.body⟩⟩⟩
      case stays => cases hstays.symm.trans written.left

end Sys2Proof.Machine
end

section
/-! SUPPORT. The key (44_key_and_host.md R125, R126): the two outcomes of `LDKEY`, and that no other command and no host
move but `RESET` writes `KEY` or leads back to `NOKEY`. -/
namespace Sys2Proof.Machine

/-! ### `LDKEY` -/

theorem State.keyByte_of_keyBytes {s : State} {key : List Byte} {i : Nat} (h : s.keyBytes = some key)
    (hi : i < Config.keyLength) : s.keyByte i = key[i]? := by
  have bytes := ((Memory.collect_eq_some_iff ..).1 h).2 i hi
  rwa [Nat.zero_add] at bytes

/-- What a successful key load leaves (R125). -/
def State.keyLoaded (s : State) : State :=
  State.finish { s with key := Memory.ofBytes .key 0 s.params.ks, ph := .idle }

theorem State.keyBytes_keyLoaded {s : State} (h : s.params.ks.length = Config.keyLength) :
    s.keyLoaded.keyBytes = some s.params.ks :=
  Memory.collect_ofBytes .key s.params.ks Config.keyLength h

/-- The two outcomes of `LDKEY`, told apart by the length of the key store. -/
theorem execLdkey_next_iff_outcome {s t : State} :
    execLdkey s = .next t ↔ s.ph = .noKey ∧
      ((s.params.ks.length = Config.keyLength ∧ t = s.keyLoaded) ∨
        (s.params.ks.length ≠ Config.keyLength ∧ t = s.raise .invalidKeyLength)) := by
  rw [execLdkey_next_iff]
  by_cases hlen : s.params.ks.length = Config.keyLength
  · simp [hlen, State.keyLoaded]
  · simp [hlen]

/-- Settles O41: R125's two outcomes in `NOKEY`, and refusal in every other phase. -/
theorem ldkeyCommand : Obligations.LdkeyCommand := by
  refine ⟨rfl, fun s hph => ⟨fun hlen => ?loads, fun hlen => ?fails⟩, fun _ => exec_refused_outside rfl⟩
  case loads =>
    have key := State.keyBytes_keyLoaded hlen
    exact ⟨s.keyLoaded, execLdkey_next_iff_outcome.2 ⟨hph, .inl ⟨hlen, rfl⟩⟩,
      fun _ => State.keyByte_of_keyBytes key, key, rfl⟩
  case fails => exact execLdkey_next_iff_outcome.2 ⟨hph, .inr ⟨hlen, rfl⟩⟩

/-! ### Who may write `KEY` -/

/-- `KEY` is as before, and `PH` does not return to `NOKEY`. -/
structure KeyKept (s t : State) : Prop where
  key : t.key = s.key
  phase : s.ph ≠ .noKey → t.ph ≠ .noKey

theorem keyKept_raise (s : State) (e : ErrorKind) : KeyKept s (s.raise e) := by
  refine ⟨rfl, fun hph => ?_⟩
  cases e with
  | invalidKeyLength => exact nofun
  | truncatedInput | fileChecksumMismatch | blockChecksumMismatch | malformedLength => exact hph

/-- A result stored with `KEY` and `PH` left alone, or the error entered: the key is kept either way. -/
theorem keyKept_conclude_map {α : Type} {s : State} {store : α → State} (hkey : ∀ a, (store a).key = s.key)
    (hph : ∀ a, (store a).ph = s.ph) (x : Except ErrorKind α) : KeyKept s (conclude s (x.map store)) := by
  cases x with
  | error e => exact keyKept_raise s e
  | ok a => exact ⟨hkey a, fun h => (hph a).trans_ne h⟩

/-- A command keeps the key, unless it is an `LDKEY` that succeeds. -/
theorem exec_keyKept_or_loads {i : Instr} {s t : State} (h : exec i s = .next t) :
    KeyKept s t ∨ (i = .ldkey ∧ s.ph = .noKey ∧ t.ph = .idle) := by
  cases i with
  | ldkey =>
    obtain ⟨hph, ⟨-, rfl⟩ | ⟨-, rfl⟩⟩ := execLdkey_next_iff_outcome.1 h
    · exact .inr ⟨rfl, hph, rfl⟩
    · exact .inl (keyKept_raise s _)
  | crc => obtain ⟨-, _, _, -, -, -, rfl⟩ := execCrc_next_iff.1 h; exact .inl ⟨rfl, id⟩
  | swz => obtain ⟨-, _, -, rfl⟩ := permuteW_next_iff.1 h; exact .inl ⟨rfl, id⟩
  | uswz => obtain ⟨-, _, -, rfl⟩ := permuteW_next_iff.1 h; exact .inl ⟨rfl, id⟩
  | swzb =>
    obtain ⟨-, _, _, -, -, -, rfl⟩ := permuteRange_next_iff.1 h
    exact .inl (keyKept_conclude_map (State.memWrite_key s _) (State.memWrite_ph s _) _)
  | uswzb =>
    obtain ⟨-, _, _, -, -, -, rfl⟩ := permuteRange_next_iff.1 h
    exact .inl (keyKept_conclude_map (State.memWrite_key s _) (State.memWrite_ph s _) _)
  | dec =>
    obtain ⟨-, _, _, _, _, -, -, -, -, rfl⟩ := execDec_next_iff.1 h
    exact .inl (keyKept_conclude_map (State.setBdata_key s) (State.setBdata_ph s) _)
  | enc => obtain ⟨-, _, _, _, -, -, -, rfl⟩ := execEnc_next_iff.1 h; exact .inl ⟨rfl, id⟩
  | decc =>
    obtain ⟨-, rfl⟩ := execDecc_next_iff.1 h
    split
    · exact .inl (keyKept_raise s _)
    · split
      · exact .inl (keyKept_raise s _)
      · exact .inl ⟨rfl, fun _ => nofun⟩
  | ldblk => obtain ⟨-, _, _, -, -, -, -, rfl⟩ := execLdblk_next_iff.1 h; exact .inl ⟨rfl, id⟩
  | close => obtain ⟨-, rfl⟩ := execClose_next_iff.1 h; exact .inl ⟨rfl, fun _ => nofun⟩
  | begin => obtain ⟨-, rfl⟩ := execBegin_next_iff.1 h; exact .inl ⟨rfl, fun _ => nofun⟩
  | append =>
    obtain ⟨-, _, _, _, _, _, -, -, -, -, -, -, -, rfl⟩ := execAppend_next_iff.1 h
    exact .inl ⟨rfl, id⟩
  | encc => obtain ⟨-, _, _, _, _, -, -, -, -, -, rfl⟩ := execEncc_next_iff.1 h; exact .inl ⟨rfl, fun _ => nofun⟩

/-- `LDKEY` leaves `NOKEY` whether it succeeds or fails, which is why it completes once between two resets (R126). -/
theorem execLdkey_leaves_noKey {s t : State} (h : execLdkey s = .next t) : s.ph = .noKey ∧ t.ph ≠ .noKey := by
  obtain ⟨hph, ⟨-, rfl⟩ | ⟨-, rfl⟩⟩ := execLdkey_next_iff_outcome.1 h
  · exact ⟨hph, nofun⟩
  · exact ⟨hph, nofun⟩

/-- A step keeps the key, unless its move is `RESET` or an `LDKEY` that succeeds. -/
theorem step_keyKept_or_loads {s t : State} (h : step s = .next t) :
    KeyKept s t ∨ (∃ rest, s.inbox = .reset :: rest) ∨
      (s.ph = .noKey ∧ t.ph = .idle ∧
        ∃ v rest, s.inbox = .writeReg 0 v :: rest ∧ decode (v.setWidth 32) = .ok .ldkey) := by
  obtain rfl | ⟨rest, ⟨hreset, -⟩ | ⟨v, i, hin, hdecode, hexec⟩ | ⟨m, -, hm, hr, hmove⟩⟩ := step_next_cases h
  · exact .inl ⟨rfl, id⟩
  · exact .inr (.inl ⟨rest, hreset⟩)
  · obtain kept | ⟨rfl, hph, hidle⟩ := exec_keyKept_or_loads hexec
    · exact .inl ⟨kept.key, kept.phase⟩
    · exact .inr (.inr ⟨hph, hidle, v, rest, hin, hdecode⟩)
  · obtain ⟨hph, hkey, -⟩ := move_keeps hm hr hmove
    exact .inl ⟨hkey, hph.trans_ne⟩

/-- Settles O42: what a step does to `KEY` and `NOKEY` is one case split, read off for each clause. -/
theorem keyIsLoadedOnce : Obligations.KeyIsLoadedOnce := by
  refine ⟨fun s t h => (step_keyKept_or_loads h).imp_left KeyKept.key, fun s t => execLdkey_leaves_noKey, ?onlyReset⟩
  case onlyReset =>
    intro s t h hph
    obtain kept | hreset | ⟨hnoKey, -⟩ := step_keyKept_or_loads h
    · exact .inl (kept.phase hph)
    · exact .inr hreset
    · exact absurd hnoKey hph

end Sys2Proof.Machine
end

section
/-! SUPPORT. The error entry (60_exceptions.md R132, R139): which errors each command can end in, and that an error is
entered in the state before the command. -/
namespace Sys2Proof.Machine

/-! ### The error entry by code -/

theorem ErrorKind.phaseAfter_eq_ite (e : ErrorKind) (ph : Phase) :
    e.phaseAfter ph = if e.code.toNat = 5 then .dead else ph := by
  cases e <;> rfl

/-- R139 in terms of the code: all that an error writes is determined by its code of R132. -/
theorem State.raise_eq_of_code (s : State) (e : ErrorKind) :
    s.raise e = { s with
      err := BitVec.ofNat 3 e.code.toNat, elog := s.elog ||| (1#5 <<< (e.code.toNat - 1)),
      ph := if e.code.toNat = 5 then .dead else s.ph } := by
  rw [BitVec.ofNat_toNat, BitVec.setWidth_eq, ← e.phaseAfter_eq_ite]
  rfl

/-! ### Which errors a command can end in -/

/-- The two ends of command `i` as `ERR` tells them apart: ok, or one of `i`'s own errors of R132 entered in the state
before it. -/
inductive TableEnd (i : Instr) (s t : State) : Prop where
  | ok (herr : t.err = 0#3)
  | error (e : ErrorKind) (hrow : (i, e.code.toNat) ∈ errorTable) (hraise : t = s.raise e)

/-- A command whose effect stores a computed value ends in an error only where the computation does. -/
theorem tableEnd_conclude_map {α : Type} {i : Instr} {s : State} {x : Except ErrorKind α} (store : α → State)
    (hrow : ∀ e, x = .error e → (i, e.code.toNat) ∈ errorTable) : TableEnd i s (conclude s (x.map store)) := by
  cases x with
  | error e => exact .error e (hrow e rfl) rfl
  | ok a => exact .ok rfl

theorem permuteBuffer_error {f : Word → Word} {s : List Byte} {e : ErrorKind} (h : permuteBuffer f s = .error e) :
    e = .malformedLength := by
  by_cases hlen : s.length % 4 = 0
  · rw [permuteBuffer_of_whole_groups hlen] at h; cases h
  · rw [permuteBuffer_malformedLength hlen] at h; cases h; rfl

theorem decryptPlain_error {key ct : List Byte} {crc index : Word} {e : ErrorKind}
    (h : decryptPlain key crc index ct = .error e) : e = .blockChecksumMismatch := by
  by_cases hsum : checksum (decipher key index ct) = crc
  · rw [decryptPlain_of_checksum_eq hsum] at h; cases h
  · rw [decryptPlain_of_checksum_ne hsum] at h; cases h; rfl

/-- The buffer forms raise `MalformedLength` alone, which is code 4. -/
theorem permuteRange_tableEnd {f : Word → Word} {i : Instr} {s t : State} (hrow : (i, 4) ∈ errorTable)
    (h : permuteRange (permuteBuffer f) i s = .next t) : TableEnd i s t := by
  obtain ⟨-, _, _, -, -, -, rfl⟩ := permuteRange_next_iff.1 h
  refine tableEnd_conclude_map _ fun e he => ?_
  obtain rfl := permuteBuffer_error he
  exact hrow

/-- R132's column "raised by command", read off each command that has a next state. -/
theorem exec_tableEnd {i : Instr} {s t : State} (h : exec i s = .next t) : TableEnd i s t := by
  cases i with
  | ldkey =>
    obtain ⟨-, ⟨-, rfl⟩ | ⟨-, rfl⟩⟩ := execLdkey_next_iff_outcome.1 h
    · exact .ok rfl
    · exact .error .invalidKeyLength (by decide) rfl
  | swzb => exact permuteRange_tableEnd (by decide) h
  | uswzb => exact permuteRange_tableEnd (by decide) h
  | dec =>
    obtain ⟨-, _, _, _, _, -, -, -, -, rfl⟩ := execDec_next_iff.1 h
    refine tableEnd_conclude_map _ fun e he => ?_
    obtain rfl := decryptPlain_error he
    decide
  | decc =>
    obtain ⟨-, rfl⟩ := execDecc_next_iff.1 h
    split
    · exact .error .truncatedInput (by decide) rfl
    · split
      · exact .error .fileChecksumMismatch (by decide) rfl
      · exact .ok rfl
  | crc => obtain ⟨-, _, _, -, -, -, rfl⟩ := execCrc_next_iff.1 h; exact .ok rfl
  | swz => obtain ⟨-, _, -, rfl⟩ := permuteW_next_iff.1 h; exact .ok rfl
  | uswz => obtain ⟨-, _, -, rfl⟩ := permuteW_next_iff.1 h; exact .ok rfl
  | enc => obtain ⟨-, _, _, _, -, -, -, rfl⟩ := execEnc_next_iff.1 h; exact .ok rfl
  | ldblk => obtain ⟨-, _, _, -, -, -, -, rfl⟩ := execLdblk_next_iff.1 h; exact .ok rfl
  | close => obtain ⟨-, rfl⟩ := execClose_next_iff.1 h; exact .ok rfl
  | begin => obtain ⟨-, rfl⟩ := execBegin_next_iff.1 h; exact .ok rfl
  | append => obtain ⟨b, -, rfl⟩ := execAppend_next_iff_operands.1 h; exact .ok rfl
  | encc => obtain ⟨-, _, _, _, _, -, -, -, -, -, rfl⟩ := execEncc_next_iff.1 h; exact .ok rfl

/-- Settles O51: a command that does not end ok enters an error of its own row, and its code says what that writes. -/
theorem errorEntryIsPrecise : Obligations.ErrorEntryIsPrecise := by
  intro i s t h herr
  cases exec_tableEnd h with
  | ok hok => exact absurd hok herr
  | error e hrow hraise => exact ⟨e.code.toNat, hrow, hraise.trans (s.raise_eq_of_code e)⟩

end Sys2Proof.Machine
end

section
/-! SUPPORT. What a step can do, as one of a few effects: the commands (R79, R88 to R91, R104, R105, R112 to R117, R125, R139)
grouped by what they write, and the host moves other than commands and `RESET` (R128 to R130). -/
namespace Sys2Proof.Machine

/-! ### Commands -/

/-- `BDATA` as it was, or filled with 260 bytes at once (R104, R105, R113). -/
def State.KeepsOrFillsBlock (s : State) (bdata : Memory) : Prop :=
  bdata = s.bdata ∨ ∃ bs : List Byte, bs.length = Config.plainLength ∧ bdata = Memory.ofBytes .bdata 0 bs

/-- The header at the start of the frame (R61). -/
def State.frameHeader (s : State) : FileHeader := parseHeader (s.memRead 0 Config.headerLength)

/-- The checksum of every frame byte behind the header (R107). -/
def State.bodyChecksum (s : State) : Word := checksum (s.memRead Config.headerLength (s.flen - Config.headerLength))

/-- What a `DECC` that succeeds leaves (R112). -/
def State.openedWith (s : State) (h : FileHeader) : State :=
  State.finish { s with
    hminor := some h.minor, hmajor := some h.major, hmagic := some h.magic, hcrc := some h.crc32, hpad := some h.pad,
    hnblk := some h.numBlocks, ph := .opened }

/-- The placeholder of `BEGIN` as the whole frame (R115). -/
def State.begun (s : State) : State :=
  State.finish { s.setFrame (List.replicate Config.headerLength 0#8) with ecnt := 0#32, ph := .building }

/-- One more record in the frame (R116). -/
def State.appended (s : State) (b : BlockRecord) : State :=
  State.finish { s.growFrame (serBlock b) with ecnt := s.ecnt + 1 }

/-- The commands that write, of the state, only `W`, `CRCR`, the block registers and `BDATA`. -/
def registerWriters : List Instr := [.crc, .swz, .uswz, .dec, .enc, .ldblk]

/-- Every way a command can end, with what it tells of the state before it. -/
inductive CommandEffect (s : State) : Instr → State → Prop where
  | keyRejected (hph : s.ph = .noKey) : CommandEffect s .ldkey (s.raise .invalidKeyLength)
  | failed {i : Instr} {e : ErrorKind} (hrow : (i, e.code.toNat) ∈ errorTable) (he : e ≠ .invalidKeyLength)
      (hkeyed : s.ph.keyed = true) : CommandEffect s i (s.raise e)
  | keyLoaded (hph : s.ph = .noKey) (hlen : s.params.ks.length = Config.keyLength) :
      CommandEffect s .ldkey s.keyLoaded
  | registersWritten {i : Instr} {w crcr bcrc bidx bunk bpad : Reg 32} {bdata : Memory} (hi : i ∈ registerWriters)
      (hkeyed : s.ph.keyed = true) (hdata : s.KeepsOrFillsBlock bdata) :
      CommandEffect s i (State.finish { s with
        w := w, crcr := crcr, bcrc := bcrc, bidx := bidx, bunk := bunk, bpad := bpad, bdata := bdata })
  | rangeWritten {i : Instr} {a : Nat} {bs : List Byte} (hi : i = .swzb ∨ i = .uswzb) (hph : s.ph = .idle)
      (hroom : a + bs.length ≤ s.flen) : CommandEffect s i (s.memWrite a bs).finish
  | opened (hph : s.ph = .idle) (hblocks : recordAddress s.frameHeader.numBlocks.toNat ≤ s.flen)
      (hsum : s.bodyChecksum = s.frameHeader.crc32) : CommandEffect s .decc (s.openedWith s.frameHeader)
  | closed (hph : s.ph = .opened) : CommandEffect s .close (State.finish { s with ph := .idle })
  | begun (hph : s.ph = .idle) : CommandEffect s .begin s.begun
  | appended {b : BlockRecord} (h : AppendOperands s b) : CommandEffect s .append (s.appended b)
  | completed {h : FileHeader} (hph : s.ph = .building) (hheader : Config.headerLength ≤ s.flen) :
      CommandEffect s .encc (s.completed h)

/-- A buffer form on a frame range writes back as many bytes as it read, or raises `MalformedLength`. -/
theorem permuteRange_effect_cases {f : Word → Word} {i : Instr} {s t : State} (hi : i = .swzb ∨ i = .uswzb)
    (h : permuteRange (permuteBuffer f) i s = .next t) : CommandEffect s i t := by
  obtain ⟨hph, a, n, ha, hn, hrange, -⟩ := permuteRange_next_iff.1 h
  have operands : RangeOperands i s a n := ⟨hph, ha, hn, hrange⟩
  have idle : s.ph = .idle := by
    rcases hi with rfl | rfl
    · exact beq_iff_eq.1 hph
    · exact beq_iff_eq.1 hph
  by_cases hlen : n.toNat % 4 = 0
  · cases (permuteRange_ok operands hlen).symm.trans h
    exact .rangeWritten hi idle (by rwa [rangeImage_length hlen])
  · cases (permuteRange_malformedLength operands hlen).symm.trans h
    exact .failed (by rcases hi with rfl | rfl <;> decide) nofun (by rw [idle]; rfl)

theorem execDec_effect {s t : State} (h : execDec s = .next t) : CommandEffect s .dec t := by
  obtain ⟨hkeyed, crc, index, ct, key, hcrc, hindex, hdata, hkey, -⟩ := execDec_next_iff.1 h
  have operands : BlockOperands s index ct key := ⟨hkeyed, hindex, hdata, hkey⟩
  have length : (decipher key index ct).length = Config.plainLength :=
    (decipher_length key index ct operands.data_whole_words).trans operands.data_length
  by_cases hsum : checksum (decipher key index ct) = crc
  · rw [execDec_eq operands hcrc, decryptPlain_of_checksum_eq hsum] at h
    cases h
    exact .registersWritten (by decide) hkeyed (.inr ⟨_, length, rfl⟩)
  · cases (execDec_blockChecksumMismatch operands hcrc hsum).symm.trans h
    exact .failed (by decide) nofun hkeyed

theorem execDecc_effect {s t : State} (h : execDecc s = .next t) : CommandEffect s .decc t := by
  obtain ⟨hph, ht⟩ := execDecc_next_iff.1 h
  have keyed : s.ph.keyed = true := by rw [hph]; rfl
  split at ht
  · subst ht
    exact .failed (by decide) nofun keyed
  · rename_i hlen
    split at ht
    · subst ht
      exact .failed (by decide) nofun keyed
    · rename_i hsum
      subst ht
      exact .opened hph (Nat.le_of_not_lt (not_or.1 hlen).2) (not_not.1 hsum)

/-- What a command can do, said once for all of them. -/
theorem exec_effect {i : Instr} {s t : State} (h : exec i s = .next t) : CommandEffect s i t := by
  cases i with
  | ldkey =>
    obtain ⟨hph, ⟨hlen, rfl⟩ | ⟨-, rfl⟩⟩ := execLdkey_next_iff_outcome.1 h
    · exact .keyLoaded hph hlen
    · exact .keyRejected hph
  | crc =>
    obtain ⟨hkeyed, _, _, -, -, -, rfl⟩ := execCrc_next_iff.1 h
    exact .registersWritten (by decide) hkeyed (.inl rfl)
  | swz =>
    obtain ⟨hkeyed, _, -, rfl⟩ := permuteW_next_iff.1 h
    exact .registersWritten (by decide) hkeyed (.inl rfl)
  | uswz =>
    obtain ⟨hkeyed, _, -, rfl⟩ := permuteW_next_iff.1 h
    exact .registersWritten (by decide) hkeyed (.inl rfl)
  | swzb => exact permuteRange_effect_cases (.inl rfl) h
  | uswzb => exact permuteRange_effect_cases (.inr rfl) h
  | dec => exact execDec_effect h
  | enc =>
    obtain ⟨hkeyed, index, pt, key, hindex, hdata, hkey, rfl⟩ := execEnc_next_iff.1 h
    have operands : BlockOperands s index pt key := ⟨hkeyed, hindex, hdata, hkey⟩
    exact .registersWritten (by decide) hkeyed
      (.inr ⟨_, (encipher_length key index pt operands.data_whole_words).trans operands.data_length, rfl⟩)
  | decc => exact execDecc_effect h
  | ldblk =>
    obtain ⟨hph, k, _, -, -, -, -, rfl⟩ := execLdblk_next_iff.1 h
    refine .registersWritten (by decide) (by rw [hph]; rfl) (.inr ⟨_, ?_, rfl⟩)
    rw [parseBlock_memRead, State.memRead_length]
  | close => obtain ⟨hph, rfl⟩ := execClose_next_iff.1 h; exact .closed hph
  | begin => obtain ⟨hph, rfl⟩ := execBegin_next_iff.1 h; exact .begun hph
  | append => obtain ⟨b, operands, rfl⟩ := execAppend_next_iff_operands.1 h; exact .appended operands
  | encc =>
    obtain ⟨hph, _, _, _, _, -, -, -, -, hheader, rfl⟩ := execEncc_next_iff.1 h
    exact .completed (h := State.completedHeader s _ _ _ _) hph hheader

/-! ### The other host moves -/

/-- Every way a host move other than a command and `RESET` can end. -/
inductive MoveEffect (s : State) : State → Prop where
  | registersWritten {arg0 arg1 : Reg 64} {w hpad bcrc bidx bunk bpad : Reg 32} {replies : List Dword} :
      MoveEffect s { s with
        arg0 := arg0, arg1 := arg1, w := w, hpad := hpad, bcrc := bcrc, bidx := bidx, bunk := bunk, bpad := bpad,
        replies := replies }
  | versionWritten {minor major : Byte} {magic : Half} :
      MoveEffect s { s with hminor := some minor, hmajor := some major, hmagic := some magic }
  | blockWritten {i : Nat} {b : Byte} (hi : i < Config.plainLength) :
      MoveEffect s { s with bdata := Memory.put .bdata s.bdata i b }
  | frameLoaded {bs : List Byte} (hph : s.ph = .idle) (hroom : bs.length ≤ s.params.fcap) : MoveEffect s (s.setFrame bs)
  | frameWritten {a : Nat} {b : Byte} (hph : s.ph = .idle) (ha : a < s.flen) : MoveEffect s (s.memWrite a [b])

theorem deliver_effect {x : Except Refusal Dword} {s t : State} (h : deliver x s = .next t) : MoveEffect s t := by
  obtain ⟨v, -, rfl⟩ := deliver_next_iff.1 h
  exact .registersWritten

theorem writeRegister_effect {n : Nat} {v : Dword} {s t : State} (hn : n ≠ 0) (h : writeRegister n v s = .next t) :
    MoveEffect s t := by
  unfold writeRegister at h
  split at h
  case h_1 => exact absurd rfl hn
  case h_7 => cases h; exact .versionWritten
  all_goals cases h
  all_goals exact .registersWritten

theorem perform_effect {m : HostMove} {s t : State} (hm : m.isCommand = false) (hr : m ≠ .reset)
    (h : perform m s = .next t) : MoveEffect s t := by
  cases m with
  | reset => exact absurd rfl hr
  | readReg n => exact deliver_effect h
  | writeReg n v => exact writeRegister_effect (beq_eq_false_iff_ne.1 hm) h
  | readBlock i => exact deliver_effect h
  | writeBlock i b =>
    obtain ⟨hi, rfl⟩ := permit_next_iff.1 h
    exact .blockWritten (of_decide_eq_true (require_ok_iff.1 hi))
  | loadFrame bs =>
    obtain ⟨hallowed, rfl⟩ := permit_next_iff.1 h
    obtain ⟨hph, hroom⟩ := mayLoadFrame_ok_iff.1 hallowed
    exact .frameLoaded hph hroom
  | readFrame a => exact deliver_effect h
  | writeFrame a b =>
    obtain ⟨hallowed, rfl⟩ := permit_next_iff.1 h
    obtain ⟨hph, ha⟩ := mayWriteFrame_ok_iff.1 hallowed
    exact .frameWritten hph ha

end Sys2Proof.Machine
end

section
/-! SUPPORT. The invariants (10_state.md R17 to R21, 20_memory.md R38 to R41, 43_container.md R112, R116): each effect of
a command and of a host move keeps them, and so does every step. -/
namespace Sys2Proof.Machine

/-! ### From effects to steps -/

/-- What `RESET`, every command and every other host move keep, and what does not look at the moves to come, every step
keeps. -/
theorem step_keeps {P : State → Prop} (hinbox : ∀ s rest, P s → P { s with inbox := rest })
    (hreset : ∀ s, P s → P s.afterReset) (hcommand : ∀ s i t, P s → CommandEffect s i t → P t)
    (hmove : ∀ s t, P s → MoveEffect s t → P t) {s t : State} (hs : P s) (h : step s = .next t) : P t := by
  obtain rfl | ⟨rest, ⟨-, rfl⟩ | ⟨_, i, -, -, hexec⟩ | ⟨m, -, hm, hr, hperform⟩⟩ := step_next_cases h
  · exact hs
  · exact hreset _ (hinbox s rest hs)
  · exact hcommand _ i t (hinbox s rest hs) (exec_effect hexec)
  · exact hmove _ t (hinbox s rest hs) (perform_effect hm hr hperform)

/-- Settles O55: no effect names the parameters, and `RESET` keeps them. -/
theorem parametersNeverChange : Obligations.ParametersNeverChange := by
  intro s t h
  refine step_keeps (P := fun u => u.params = s.params) (fun _ _ hu => hu) (fun _ hu => hu)
    (fun u i v hu hv => ?command) (fun u v hu hv => ?move) rfl h
  case command => cases hv <;> exact hu
  case move => cases hv <;> exact hu

/-! ### The byte spaces -/

/-- R116's length while a container is being built. -/
def State.BuildingLength (s : State) : Prop := s.ph = .building → s.flen = recordAddress s.ecnt.toNat

section
variable {s t : State}

theorem State.SpacesOk.resetWith {p : Params} (hcapacity : Config.headerLength ≤ p.fcap) :
    (State.resetWith p).SpacesOk where
  frame_wf := rfl
  frame_below := rfl
  frame_fits := Nat.zero_le _
  capacity := hcapacity
  key_wf := rfl
  key_below := rfl
  bdata_wf := rfl
  bdata_below := rfl

theorem State.SpacesOk.afterReset (h : s.SpacesOk) : s.afterReset.SpacesOk :=
  { State.SpacesOk.resetWith h.capacity with }

theorem State.SpacesOk.memWrite (h : s.SpacesOk) {a : Nat} {bs : List Byte} (hroom : a + bs.length ≤ s.flen) :
    (s.memWrite a bs).SpacesOk :=
  { h with
    frame_wf := Memory.wf_putBytes bs a h.frame_wf
    frame_below := Memory.below_putBytes bs hroom h.frame_below }

theorem State.SpacesOk.setFrame (h : s.SpacesOk) {bs : List Byte} (hroom : bs.length ≤ s.params.fcap) :
    (s.setFrame bs).SpacesOk :=
  { h with
    frame_wf := Memory.wf_ofBytes .frame bs 0
    frame_below := Memory.below_ofBytes (Nat.zero_add _).le
    frame_fits := hroom }

theorem State.SpacesOk.growFrame (h : s.SpacesOk) {bs : List Byte} (hroom : s.flen + bs.length ≤ s.params.fcap) :
    (s.growFrame bs).SpacesOk :=
  { h with
    frame_wf := Memory.wf_putBytes bs s.flen h.frame_wf
    frame_below := Memory.below_putBytes bs (Nat.le_refl _) (Memory.below_mono (Nat.le_add_right _ _) h.frame_below)
    frame_fits := hroom }

theorem State.KeepsOrFillsBlock.canonical {bdata : Memory} (hdata : s.KeepsOrFillsBlock bdata) (h : s.SpacesOk) :
    Memory.wf .bdata bdata = true ∧ Memory.below bdata Config.plainLength = true := by
  obtain rfl | ⟨bs, hlen, rfl⟩ := hdata
  · exact ⟨h.bdata_wf, h.bdata_below⟩
  · exact ⟨Memory.wf_ofBytes .bdata bs 0, Memory.below_ofBytes (by rw [hlen, Nat.zero_add])⟩

/-- Every command keeps the byte spaces; `APPEND` needs the length the frame has while it is being built. -/
theorem State.SpacesOk.command {i : Instr} (h : s.SpacesOk) (hlen : s.BuildingLength) (ht : CommandEffect s i t) :
    t.SpacesOk := by
  cases ht with
  | keyRejected => exact { h with }
  | failed => exact { h with }
  | keyLoaded _ hks =>
    exact { h with key_wf := Memory.wf_ofBytes .key _ 0, key_below := Memory.below_ofBytes (by rw [hks, Nat.zero_add]) }
  | registersWritten _ _ hdata =>
    obtain ⟨hwf, hbelow⟩ := hdata.canonical h
    exact { h with bdata_wf := hwf, bdata_below := hbelow }
  | rangeWritten _ _ hroom => exact { h.memWrite hroom with }
  | opened => exact { h with }
  | closed => exact { h with }
  | begun =>
    have placeholder := h.setFrame (bs := List.replicate Config.headerLength 0#8) h.capacity
    exact { placeholder with }
  | @appended b operands =>
    have room : s.flen + (serBlock b).length ≤ s.params.fcap := by
      rw [hlen operands.phase, operands.serBlock_length]
      exact (recordAddress_succ _).symm.le.trans operands.room
    exact { h.growFrame room with }
  | @completed header _ hheader => exact { h.memWrite (a := 0) (bs := serHeader header) hheader with }

theorem State.SpacesOk.move (h : s.SpacesOk) (ht : MoveEffect s t) : t.SpacesOk := by
  cases ht with
  | registersWritten => exact { h with }
  | versionWritten => exact { h with }
  | @blockWritten i b hi =>
    exact { h with
      bdata_wf := Memory.wf_put i b h.bdata_wf, bdata_below := Memory.below_put (sp := .bdata) (b := b) hi h.bdata_below }
  | frameLoaded _ hroom => exact h.setFrame hroom
  | frameWritten _ ha => exact h.memWrite ha

/-- Only `InvalidKeyLength` moves `PH` (R139). -/
theorem ErrorKind.phaseAfter_of_ne {e : ErrorKind} (he : e ≠ .invalidKeyLength) (ph : Phase) : e.phaseAfter ph = ph := by
  cases e with
  | invalidKeyLength => exact absurd rfl he
  | truncatedInput | fileChecksumMismatch | blockChecksumMismatch | malformedLength => rfl

/-- A container begins with a header and no record, and grows record by record. -/
theorem State.BuildingLength.command {i : Instr} (h : s.BuildingLength) (ht : CommandEffect s i t) :
    t.BuildingLength := by
  cases ht with
  | keyRejected => exact nofun
  | failed _ he => exact fun hbuilding => h ((ErrorKind.phaseAfter_of_ne he _).symm.trans hbuilding)
  | keyLoaded => exact nofun
  | registersWritten => exact h
  | rangeWritten _ hph => exact fun hbuilding => nomatch hph.symm.trans hbuilding
  | opened => exact nofun
  | closed => exact nofun
  | begun => exact fun _ => List.length_replicate
  | appended operands => exact fun _ => operands.flen_growFrame (h operands.phase)
  | completed => exact nofun

theorem State.BuildingLength.move (h : s.BuildingLength) (ht : MoveEffect s t) : t.BuildingLength := by
  cases ht with
  | registersWritten => exact h
  | versionWritten => exact h
  | blockWritten => exact h
  | frameLoaded hph => exact fun hbuilding => nomatch hph.symm.trans hbuilding
  | frameWritten hph => exact h

end

/-- Settles O58: the two clauses are kept together, since `APPEND` needs the length for its room. -/
theorem stepKeepsTheByteSpaces : Obligations.StepKeepsTheByteSpaces := by
  intro s t hspaces hlen h
  refine step_keeps (P := fun u => u.SpacesOk ∧ u.BuildingLength) (fun u rest hu => ?inbox) (fun u hu => ?reset)
    (fun u i v hu hv => ?command) (fun u v hu hv => ?move) ⟨hspaces, hlen⟩ h
  case inbox => exact ⟨{ hu.1 with }, hu.2⟩
  case reset => exact ⟨hu.1.afterReset, nofun⟩
  case command => exact ⟨hu.1.command hu.2 hv, hu.2.command hv⟩
  case move => exact ⟨hu.1.move hv, hu.2.move hv⟩

end Sys2Proof.Machine
end

section
/-! SUPPORT. The invariant `State.Inv`: it holds at reset, and every step keeps it. -/
namespace Sys2Proof.Machine

/-! ### Reset -/

theorem State.Inv.resetWith {p : Params} (hcapacity : Config.headerLength ≤ p.fcap) : (State.resetWith p).Inv where
  spaces := .resetWith hcapacity
  key_defined := nofun
  unkeyed := fun _ => ⟨rfl, rfl, rfl, rfl⟩
  building_length := nofun
  building_header := nofun
  opened_valid := nofun
  err_code := Nat.zero_le _
  err_logged := fun h => absurd rfl h
  dead_iff := iff_of_false nofun (show ¬ (0#5).getLsbD 4 = true by decide)
  dead_err := nofun
  fresh := fun _ => ⟨rfl, rfl⟩
  version_together := ⟨rfl, rfl⟩
  derived_together := rfl

/-- Settles O56: no element has a value after reset, and `State.reset` has a capacity of 16 or more. -/
theorem resetMeetsTheInvariant : Obligations.ResetMeetsTheInvariant :=
  ⟨fun _ => State.Inv.resetWith, State.Inv.resetWith (Nat.le_add_right _ _)⟩

section
variable {s t : State}

theorem State.Inv.afterReset (h : s.Inv) : s.afterReset.Inv :=
  { State.Inv.resetWith h.spaces.capacity with spaces := h.spaces.afterReset }

/-! ### The elements that change alone -/

theorem State.ne_dead_of_keyed (hkeyed : s.ph.keyed = true) : s.ph ≠ .dead :=
  fun hdead => Phase.not_keyed_of_noKey_or_dead (.inr hdead) hkeyed

theorem State.ne_noKey_of_keyed (hkeyed : s.ph.keyed = true) : s.ph ≠ .noKey :=
  fun hnoKey => Phase.not_keyed_of_noKey_or_dead (.inl hnoKey) hkeyed

theorem State.keyed_of_idle (hph : s.ph = .idle) : s.ph.keyed = true := Phase.keyed_iff.2 (.inl hph)

/-- An ok end, in a phase with a key (R13). -/
theorem State.Inv.finish (h : s.Inv) (hkeyed : s.ph.keyed = true) : s.finish.Inv :=
  { h with
    spaces := { h.spaces with }
    err_code := Nat.zero_le _
    err_logged := fun herr => absurd rfl herr
    dead_err := fun hdead => absurd hdead (State.ne_dead_of_keyed hkeyed)
    fresh := fun hnoKey => absurd hnoKey (State.ne_noKey_of_keyed hkeyed) }

/-- From one phase with a key to another, with what the new phase asks of the frame. -/
theorem State.Inv.withPhase (h : s.Inv) (hkeyed : s.ph.keyed = true) {p : Phase} (hp : p.keyed = true)
    (hbuilding : p = .building → s.flen = recordAddress s.ecnt.toNat ∧
      s.memRead 0 Config.headerLength = List.replicate Config.headerLength 0#8)
    (hopened : p = .opened → s.hcrc = some s.frameHeader.crc32 ∧ s.hnblk = some s.frameHeader.numBlocks ∧
      recordAddress s.frameHeader.numBlocks.toNat ≤ s.flen ∧ s.bodyChecksum = s.frameHeader.crc32) :
    State.Inv { s with ph := p } :=
  { h with
    spaces := { h.spaces with }
    key_defined := fun _ => h.key_defined hkeyed
    unkeyed := fun hnot => absurd (hp.symm.trans hnot) nofun
    building_length := fun hph => (hbuilding hph).1
    building_header := fun hph => (hbuilding hph).2
    opened_valid := hopened
    dead_iff := iff_of_false (State.ne_dead_of_keyed (s := { s with ph := p }) hp)
      (mt h.dead_iff.2 (State.ne_dead_of_keyed hkeyed))
    dead_err := fun hdead => absurd hdead (State.ne_dead_of_keyed (s := { s with ph := p }) hp)
    fresh := fun hnoKey => absurd hnoKey (State.ne_noKey_of_keyed (s := { s with ph := p }) hp) }

/-- In `IDLE` the invariant asks nothing of the frame but its form (R34: the host may write it there). -/
theorem State.Inv.withFrame (h : s.Inv) (hph : s.ph = .idle) {frame : Memory} {flen : Nat} {ecnt : BitVec 32}
    (hspaces : State.SpacesOk { s with frame := frame, flen := flen, ecnt := ecnt }) :
    State.Inv { s with frame := frame, flen := flen, ecnt := ecnt } :=
  { h with
    spaces := hspaces
    unkeyed := fun hnot => absurd ((State.keyed_of_idle hph).symm.trans hnot) nofun
    building_length := fun hbuilding => nomatch hph.symm.trans hbuilding
    building_header := fun hbuilding => nomatch hph.symm.trans hbuilding
    opened_valid := fun hopened => nomatch hph.symm.trans hopened }

theorem State.Inv.memWrite (h : s.Inv) (hph : s.ph = .idle) {a : Nat} {bs : List Byte}
    (hroom : a + bs.length ≤ s.flen) : (s.memWrite a bs).Inv :=
  h.withFrame (ecnt := s.ecnt) hph (h.spaces.memWrite hroom)

/-- The header registers, in a phase that does not tie `HCRC` and `HNBLK` to the frame. -/
theorem State.Inv.withHeader (h : s.Inv) (hph : s.ph = .idle) {minor major : Reg 8} {magic : Reg 16}
    {pad crc numBlocks : Reg 32} (hversion : minor.isSome = major.isSome ∧ major.isSome = magic.isSome)
    (hderived : crc.isSome = numBlocks.isSome) :
    State.Inv { s with
      hminor := minor, hmajor := major, hmagic := magic, hcrc := crc, hpad := pad, hnblk := numBlocks } :=
  { h with
    spaces := { h.spaces with }
    opened_valid := fun hopened => nomatch hph.symm.trans hopened
    version_together := hversion
    derived_together := hderived }

/-! ### The error entry -/

/-- The bit an error adds to the log is its own, and bit 4 only for `InvalidKeyLength` (R19). -/
theorem ErrorKind.logBit_own (e : ErrorKind) : e.logBit.getLsbD (e.code.toNat - 1) = true := by
  cases e <;> decide

theorem ErrorKind.logBit_four_of_ne {e : ErrorKind} (he : e ≠ .invalidKeyLength) : e.logBit.getLsbD 4 = false := by
  cases e with
  | invalidKeyLength => exact absurd rfl he
  | truncatedInput | fileChecksumMismatch | blockChecksumMismatch | malformedLength => decide

theorem State.raise_logged (s : State) (e : ErrorKind) :
    (s.raise e).elog.getLsbD ((s.raise e).err.toNat - 1) = true := by
  rw [State.raise_elog, State.raise_err, BitVec.getLsbD_or, e.logBit_own, Bool.or_true]

theorem State.Inv.raise (h : s.Inv) (hkeyed : s.ph.keyed = true) {e : ErrorKind} (he : e ≠ .invalidKeyLength) :
    (s.raise e).Inv := by
  have samePhase : (s.raise e).ph = s.ph := ErrorKind.phaseAfter_of_ne he s.ph
  have notDead : (s.raise e).ph ≠ .dead := samePhase ▸ State.ne_dead_of_keyed hkeyed
  have notNoKey : (s.raise e).ph ≠ .noKey := samePhase ▸ State.ne_noKey_of_keyed hkeyed
  have bit : (s.raise e).elog.getLsbD 4 = s.elog.getLsbD 4 := by
    rw [State.raise_elog, BitVec.getLsbD_or, ErrorKind.logBit_four_of_ne he, Bool.or_false]
  exact { h with
    spaces := { h.spaces with }
    key_defined := fun _ => h.key_defined hkeyed
    unkeyed := fun hnot => h.unkeyed (samePhase ▸ hnot)
    building_length := fun hph => h.building_length (samePhase ▸ hph)
    building_header := fun hph => h.building_header (samePhase ▸ hph)
    opened_valid := fun hph => h.opened_valid (samePhase ▸ hph)
    err_code := e.code_bounds.2
    err_logged := fun _ => s.raise_logged e
    dead_iff := by rw [samePhase, bit]; exact h.dead_iff
    dead_err := fun hdead => absurd hdead notDead
    fresh := fun hnoKey => absurd hnoKey notNoKey }

/-- `InvalidKeyLength` in `NOKEY`: the engine is `DEAD`, still without a key and a frame (R145). -/
theorem State.Inv.keyRejected (h : s.Inv) (hph : s.ph = .noKey) : (s.raise .invalidKeyLength).Inv :=
  { h with
    spaces := { h.spaces with }
    key_defined := nofun
    unkeyed := fun _ => h.unkeyed (by rw [hph]; rfl)
    building_length := nofun
    building_header := nofun
    opened_valid := nofun
    err_code := ErrorKind.code_bounds _ |>.2
    err_logged := fun _ => s.raise_logged _
    dead_iff := iff_of_true rfl (s.raise_logged .invalidKeyLength)
    dead_err := fun _ => rfl
    fresh := nofun }

/-! ### The commands -/

/-- `LDKEY` with a good key: the log is still that of reset, so it does not say `DEAD`. -/
theorem State.Inv.keyLoaded (h : s.Inv) (hph : s.ph = .noKey) (hlen : s.params.ks.length = Config.keyLength) :
    s.keyLoaded.Inv :=
  { h with
    spaces := h.spaces.command (fun hbuilding => nomatch hph.symm.trans hbuilding) (.keyLoaded hph hlen)
    key_defined := fun _ => ⟨_, State.keyBytes_keyLoaded hlen⟩
    unkeyed := nofun
    building_length := nofun
    building_header := nofun
    opened_valid := nofun
    err_code := Nat.zero_le _
    err_logged := fun herr => absurd rfl herr
    dead_iff := iff_of_false nofun (mt h.dead_iff.2 (by rw [hph]; nofun))
    dead_err := nofun
    fresh := nofun }

theorem State.Inv.opened (h : s.Inv) (hph : s.ph = .idle)
    (hblocks : recordAddress s.frameHeader.numBlocks.toNat ≤ s.flen) (hsum : s.bodyChecksum = s.frameHeader.crc32) :
    (s.openedWith s.frameHeader).Inv := by
  have registers := h.withHeader hph (minor := some s.frameHeader.minor) (major := some s.frameHeader.major)
    (magic := some s.frameHeader.magic) (pad := some s.frameHeader.pad) (crc := some s.frameHeader.crc32)
    (numBlocks := some s.frameHeader.numBlocks) ⟨rfl, rfl⟩ rfl
  exact (registers.withPhase (p := .opened) (State.keyed_of_idle hph) rfl nofun
    fun _ => ⟨rfl, rfl, hblocks, hsum⟩).finish rfl

theorem State.Inv.begun (h : s.Inv) (hph : s.ph = .idle) : s.begun.Inv := by
  have placeholder := h.spaces.setFrame (bs := List.replicate Config.headerLength 0#8) h.spaces.capacity
  have cleared := h.withFrame (ecnt := 0#32) hph { placeholder with }
  refine (cleared.withPhase (p := .building) (State.keyed_of_idle hph) rfl (fun _ => ⟨List.length_replicate, ?_⟩)
    nofun).finish rfl
  exact s.memRead_setFrame (List.replicate Config.headerLength 0#8)

/-- `APPEND` writes behind the placeholder, which it leaves (R123). -/
theorem State.Inv.appended (h : s.Inv) {b : BlockRecord} (operands : AppendOperands s b) : (s.appended b).Inv := by
  have length : s.flen = recordAddress s.ecnt.toNat := h.building_length operands.phase
  have header : (s.appended b).memRead 0 Config.headerLength = s.memRead 0 Config.headerLength := by
    refine State.memRead_congr fun i hi => s.frameByte_growFrame_of_lt (serBlock b) ?_
    rw [length, Nat.zero_add]
    exact Nat.lt_of_lt_of_le hi (Nat.le_add_right _ _)
  have keyed : s.ph.keyed = true := Phase.keyed_iff.2 (.inr (.inr operands.phase))
  exact { h.finish keyed with
    spaces := h.spaces.command h.building_length (.appended operands)
    unkeyed := fun hnot => absurd (keyed.symm.trans hnot) nofun
    building_length := fun _ => operands.flen_growFrame length
    building_header := fun _ => header.trans (h.building_header operands.phase)
    opened_valid := fun hopened => nomatch operands.phase.symm.trans hopened }

theorem State.Inv.completed (h : s.Inv) (hph : s.ph = .building) (hheader : Config.headerLength ≤ s.flen)
    (header : FileHeader) : (s.completed header).Inv := by
  have left := h.withPhase (p := .idle) (Phase.keyed_iff.2 (.inr (.inr hph))) rfl nofun nofun
  have written := left.memWrite (a := 0) (bs := serHeader header) rfl hheader
  exact (written.withHeader rfl (crc := some header.crc32) (numBlocks := some header.numBlocks) h.version_together
    rfl).finish rfl

theorem State.Inv.command {i : Instr} (h : s.Inv) (ht : CommandEffect s i t) : t.Inv := by
  have spaces : t.SpacesOk := h.spaces.command h.building_length ht
  cases ht with
  | keyRejected hph => exact h.keyRejected hph
  | failed _ he hkeyed => exact h.raise hkeyed he
  | keyLoaded hph hlen => exact h.keyLoaded hph hlen
  | registersWritten _ hkeyed => exact { h.finish hkeyed with spaces := spaces }
  | rangeWritten _ hph hroom => exact (h.memWrite hph hroom).finish (State.keyed_of_idle hph)
  | opened hph hblocks hsum => exact h.opened hph hblocks hsum
  | closed hph => exact (h.withPhase (p := .idle) (Phase.keyed_iff.2 (.inr (.inl hph))) rfl nofun nofun).finish rfl
  | begun hph => exact h.begun hph
  | appended operands => exact h.appended operands
  | completed hph hheader => exact h.completed hph hheader _

theorem State.Inv.move (h : s.Inv) (ht : MoveEffect s t) : t.Inv := by
  have spaces : t.SpacesOk := h.spaces.move ht
  cases ht with
  | registersWritten => exact { h with spaces := spaces }
  | versionWritten => exact { h with spaces := spaces, version_together := ⟨rfl, rfl⟩ }
  | blockWritten => exact { h with spaces := spaces }
  | frameLoaded hph => exact h.withFrame hph spaces
  | frameWritten hph ha => exact h.memWrite hph ha

end

/-- Settles O57: `RESET`, every command and every other host move keep the invariant. -/
theorem stepKeepsTheInvariant : Obligations.StepKeepsTheInvariant := fun _ _ =>
  step_keeps (P := State.Inv) (fun _ _ h => { h with spaces := { h.spaces with } }) (fun _ => State.Inv.afterReset)
    (fun _ _ _ => State.Inv.command) (fun _ _ => State.Inv.move)

end Sys2Proof.Machine
end

section
/-! SUPPORT. The little-endian readings (00_scope.md R10) and the header and block formats (30_encoding.md R61 to R64):
parsing and serializing undo each other. -/
namespace Sys2Proof.Machine

/-! ### Little-endian readings -/

theorem le16_toNat (a b : Byte) : (le16 [a, b]).toNat = a.toNat + 256 * b.toNat := by
  have ha := a.isLt
  have hb := b.isLt
  simp only [le16, leNat, BitVec.toNat_ofNat]
  omega

theorem le32_toNat (a b c d : Byte) :
    (le32 [a, b, c, d]).toNat = a.toNat + 2 ^ 8 * b.toNat + 2 ^ 16 * c.toNat + 2 ^ 24 * d.toNat := by
  have ha := a.isLt
  have hb := b.isLt
  have hc := c.isLt
  have hd := d.isLt
  simp only [le32, leNat, BitVec.toNat_ofNat]
  omega

/-- `bytes_le16` undoes `le16` on two bytes (R10). -/
theorem bytesLe16_le16 {s : List Byte} (h : s.length = 2) : bytesLe16 (le16 s) = s := by
  obtain ⟨a, b, rfl⟩ := List.length_eq_two.1 h
  simp [bytesLe16, le16, byteOf_ofNat_leNat]

/-- Settles O6: the weights of R10, and the inverses in both directions. -/
theorem littleEndianReadings : Obligations.LittleEndianReadings :=
  ⟨fun a b => ⟨le16_toNat a b, bytesLe16_le16 rfl⟩, fun a b c d => ⟨le32_toNat a b c d, bytesLe32_le32 rfl⟩,
    le16_bytesLe16, le32_bytesLe32⟩

/-! ### The header -/

theorem slice_one {s : List Byte} {i : Nat} (h : i < s.length) : slice s i 1 = [s.getD i 0#8] := by
  rw [slice, List.take_one_drop_eq_of_lt_length h, List.getD_eq_getElem _ _ h]
  rfl

/-- `ser_header` undoes `parse_header` on sixteen bytes (R61, R62). -/
theorem serHeader_parseHeader {s : List Byte} (h : s.length = Config.headerLength) : serHeader (parseHeader s) = s := by
  have word {i n : Nat} (hi : i + n ≤ Config.headerLength) : (slice s i n).length = n := slice_length s i n (by rwa [h])
  calc serHeader (parseHeader s)
      = slice s 0 1 ++ slice s 1 1 ++ slice s 2 2 ++ slice s 4 4 ++ slice s 8 4 ++ slice s 12 4 := by
        rw [slice_one (by rw [h]; decide), slice_one (by rw [h]; decide), serHeader, parseHeader, bytesLe16_le16 (word (by decide)),
          bytesLe32_le32 (word (by decide)), bytesLe32_le32 (word (by decide)), bytesLe32_le32 (word (by decide))]
    _ = slice s 0 Config.headerLength := by
        rw [← slice_add s 0 1 1, ← slice_add s 0 2 2, ← slice_add s 0 4 4, ← slice_add s 0 8 4, ← slice_add s 0 12 4]
    _ = s := slice_whole s _ h

/-- Settles O7: the layout is `ser_header`'s definition, and the two functions undo each other. -/
theorem headerFormatRoundTrips : Obligations.HeaderFormatRoundTrips :=
  ⟨fun h => ⟨rfl, serHeader_length h, parseHeader_serHeader h⟩, fun _ => serHeader_parseHeader⟩

/-! ### The block record -/

/-- `parse_block` undoes `ser_block` on a record with 260 cipher bytes (R63, R64). -/
theorem parseBlock_serBlock {b : BlockRecord} (h : b.cipherData.length = Config.plainLength) :
    parseBlock (serBlock b) = b := by
  have crc : slice (serBlock b) 0 4 = bytesLe32 b.crc32 := rfl
  have index : slice (serBlock b) 4 4 = bytesLe32 b.index := rfl
  have unknown : slice (serBlock b) 8 4 = bytesLe32 b.unknown := rfl
  have pad : slice (serBlock b) 12 4 = bytesLe32 b.pad := rfl
  have data : slice (serBlock b) 16 Config.plainLength = b.cipherData := slice_whole b.cipherData _ h
  rw [parseBlock, crc, index, unknown, pad, data, le32_bytesLe32, le32_bytesLe32, le32_bytesLe32, le32_bytesLe32]

theorem parseBlock_cipherData_length {r : List Byte} (h : r.length = Config.blockLength) :
    (parseBlock r).cipherData.length = Config.plainLength :=
  slice_length r 16 _ h.ge

/-- `ser_block` undoes `parse_block` on 276 bytes (R63, R64). -/
theorem serBlock_parseBlock {r : List Byte} (h : r.length = Config.blockLength) : serBlock (parseBlock r) = r := by
  have word {i : Nat} (hi : i + 4 ≤ Config.blockLength) : (slice r i 4).length = 4 := slice_length r i 4 (by rwa [h])
  calc serBlock (parseBlock r)
      = slice r 0 4 ++ slice r 4 4 ++ slice r 8 4 ++ slice r 12 4 ++ slice r 16 Config.plainLength := by
        rw [serBlock, parseBlock, bytesLe32_le32 (word (by decide)), bytesLe32_le32 (word (by decide)),
          bytesLe32_le32 (word (by decide)), bytesLe32_le32 (word (by decide))]
    _ = slice r 0 Config.blockLength := by
        rw [← slice_add r 0 4 4, ← slice_add r 0 8 4, ← slice_add r 0 12 4, ← slice_add r 0 16 Config.plainLength]
        rfl
    _ = r := slice_whole r _ h

/-- Settles O8: the layout is `ser_block`'s definition, and the two functions undo each other. -/
theorem blockFormatRoundTrips : Obligations.BlockFormatRoundTrips :=
  ⟨fun _ h => ⟨rfl, serBlock_length_of_plainLength h, parseBlock_serBlock h⟩,
    fun _ h => ⟨parseBlock_cipherData_length h, serBlock_parseBlock h⟩⟩

end Sys2Proof.Machine
end

section
/-! SUPPORT. The checksum (40_checksum.md): its running form (R78), the generator fed bit by bit (R73, R74), and that a burst of
at most 32 bits changes it (R80). -/
namespace Sys2Proof.Machine

/-- Settles O10: R75's worked byte step, the empty sequence, and the check string of R77. -/
theorem checksumConvention : Obligations.ChecksumConvention := ⟨by decide, checksum_nil, by decide +kernel⟩

/-- The loop over a concatenation is the loop over the second part, from where the first ends (R78). -/
theorem checksumFrom_append (c : Word) (a b : List Byte) :
    checksumFrom c (a ++ b) = checksumFrom (checksumFrom c a) b :=
  List.foldl_append

/-- Settles O11: the running form from the initial value. -/
theorem checksumRunsInPieces : Obligations.ChecksumRunsInPieces := checksumFrom_append Config.crcInit

/-! ### The bit step as an injective linear map -/

@[simp] theorem crcBit_zero : crcBit 0#32 = 0#32 := by decide

/-- The polynomial's top bit shows whether a bit was shifted out, so the step loses nothing. -/
theorem crcBit_eq_zero {x : Word} (h : crcBit x = 0#32) : x = 0#32 := by
  have lowest : x.getLsbD 0 = false := by
    have top : (crcBit x).getLsbD 31 = false := by rw [h]; rfl
    rw [crcBit_eq] at top
    revert top
    cases x.getLsbD 0 <;> simp [Config.poly]
  have shifted : x >>> 1 = 0#32 := by rw [← h, crcBit_eq, lowest]; simp
  refine BitVec.eq_of_getLsbD_eq fun i hi => ?_
  cases i with
  | zero => rw [lowest]; rfl
  | succ i =>
    have bit : (x >>> 1).getLsbD i = false := by rw [shifted]; simp
    rw [BitVec.getLsbD_ushiftRight, Nat.add_comm] at bit
    rw [bit, BitVec.getLsbD_zero]

theorem crcBit_iterate_xor (n : Nat) (a b : Word) : crcBit^[n] (a ^^^ b) = crcBit^[n] a ^^^ crcBit^[n] b := by
  induction n generalizing a b with
  | zero => rfl
  | succ n ih => rw [Function.iterate_succ_apply, crcBit_xor, ih]; rfl

theorem crcBit_iterate_ne_zero (n : Nat) {x : Word} (h : x ≠ 0#32) : crcBit^[n] x ≠ 0#32 := by
  induction n with
  | zero => exact h
  | succ n ih => rw [Function.iterate_succ_apply']; exact mt crcBit_eq_zero ih

/-! ### The generator bit by bit -/

/-- One message bit where the generator takes it in: bit 0 of the register (R73). -/
def bitWord (b : Bool) : Word := if b then 1#32 else 0#32

/-- The register after `n` message bits: each is XORed into bit 0, then one bit step. -/
def feedBits (c : Word) (x : Nat → Bool) : Nat → Word
  | 0 => c
  | n + 1 => crcBit (feedBits c x n ^^^ bitWord (x n))

/-- The first `n` message bits as a number, the first bit least significant. -/
def wordOfBits (x : Nat → Bool) : Nat → Word
  | 0 => 0#32
  | n + 1 => wordOfBits x n ^^^ (bitWord (x n) <<< n)

theorem bitWord_xor (a b : Bool) : bitWord (a ^^ b) = bitWord a ^^^ bitWord b := by
  cases a <;> cases b <;> decide

theorem feedBits_add (c : Word) (x : Nat → Bool) (m n : Nat) :
    feedBits c x (m + n) = feedBits (feedBits c x m) (fun j => x (m + j)) n := by
  induction n with
  | zero => rfl
  | succ n ih => rw [← Nat.add_assoc, feedBits, ih, feedBits]

theorem feedBits_congr {c : Word} {x y : Nat → Bool} {n : Nat} (h : ∀ j, j < n → x j = y j) :
    feedBits c x n = feedBits c y n := by
  induction n with
  | zero => rfl
  | succ n ih => rw [feedBits, feedBits, ih fun j hj => h j (by omega), h n (by omega)]

/-- Two messages from two start values differ as the XORed message from the XORed start. -/
theorem feedBits_xor (c d : Word) (x y : Nat → Bool) (n : Nat) :
    feedBits (c ^^^ d) (fun j => x j ^^ y j) n = feedBits c x n ^^^ feedBits d y n := by
  induction n with
  | zero => rfl
  | succ n ih =>
    rw [feedBits, feedBits, feedBits, ih, bitWord_xor, ← crcBit_xor]
    congr 1
    ac_rfl

/-- Zero bits only run the register. -/
theorem feedBits_of_false {c : Word} {x : Nat → Bool} {n : Nat} (h : ∀ j, j < n → x j = false) :
    feedBits c x n = crcBit^[n] c := by
  induction n with
  | zero => rfl
  | succ n ih =>
    rw [feedBits, ih fun j hj => h j (by omega), h n (by omega), Function.iterate_succ_apply']
    exact congrArg crcBit BitVec.xor_zero

theorem bitWord_getLsbD (b : Bool) (i : Nat) : (bitWord b).getLsbD i = (decide (i = 0) && b) := by
  cases b <;> simp [bitWord, BitVec.getLsbD_one]

theorem bitWord_shiftLeft_getLsbD (b : Bool) {n i : Nat} (hi : i < 32) :
    (bitWord b <<< n).getLsbD i = (decide (i = n) && b) := by
  rw [BitVec.getLsbD_shiftLeft, bitWord_getLsbD]
  by_cases hlt : i < n
  · simp [hlt, hlt.ne]
  · have : i - n = 0 ↔ i = n := by omega
    simp [hi, hlt, this]

/-- A bit above bit 0 only moves down. -/
theorem crcBit_bitWord_shiftLeft_succ {n : Nat} (hn : n + 1 < 32) (b : Bool) :
    crcBit (bitWord b <<< (n + 1)) = bitWord b <<< n := by
  have lowest : (bitWord b <<< (n + 1)).getLsbD 0 = false := by
    rw [bitWord_shiftLeft_getLsbD b (by omega)]; simp
  rw [crcBit_eq, lowest]
  refine BitVec.eq_of_getLsbD_eq fun i hi => ?_
  simp only [Bool.false_eq_true, if_false, BitVec.xor_zero, BitVec.getLsbD_ushiftRight]
  rw [bitWord_shiftLeft_getLsbD b hi]
  by_cases htop : 1 + i < 32
  · rw [bitWord_shiftLeft_getLsbD b htop]
    simp [Nat.add_comm 1 i]
  · rw [BitVec.getLsbD_of_ge _ _ (by omega)]
    have : i ≠ n := by omega
    simp [this]

theorem crcBit_iterate_bitWord {n : Nat} (hn : n < 32) (b : Bool) : crcBit^[n] (bitWord b <<< n) = bitWord b := by
  induction n with
  | zero => simp
  | succ n ih => rw [Function.iterate_succ_apply, crcBit_bitWord_shiftLeft_succ hn, ih (by omega)]

/-- Up to 32 message bits go in one by one as they go in all at once. -/
theorem feedBits_eq_iterate (c : Word) (x : Nat → Bool) {n : Nat} (hn : n ≤ 32) :
    feedBits c x n = crcBit^[n] (c ^^^ wordOfBits x n) := by
  induction n with
  | zero => simp [feedBits, wordOfBits]
  | succ n ih =>
    rw [feedBits, ih (by omega), wordOfBits, Function.iterate_succ_apply', ← BitVec.xor_assoc,
      crcBit_iterate_xor n (c ^^^ wordOfBits x n), crcBit_iterate_bitWord (by omega)]

theorem wordOfBits_getLsbD (x : Nat → Bool) (n : Nat) {i : Nat} (hi : i < 32) :
    (wordOfBits x n).getLsbD i = (decide (i < n) && x i) := by
  induction n with
  | zero => simp [wordOfBits]
  | succ n ih =>
    rw [wordOfBits, BitVec.getLsbD_xor, ih, bitWord_shiftLeft_getLsbD _ hi]
    obtain hlt | rfl | hgt := Nat.lt_trichotomy i n
    · simp [hlt, hlt.ne, Nat.lt_succ_of_lt hlt]
    · simp
    · have : ¬ i < n + 1 := by omega
      simp [this, hgt.ne', hgt.not_gt]

/-! ### The checksum bit by bit -/

theorem bitAt_cons_low (b : Byte) (s : List Byte) {j : Nat} (hj : j < 8) : bitAt (b :: s) j = b.getLsbD j := by
  rw [bitAt, Nat.div_eq_of_lt hj, Nat.mod_eq_of_lt hj, List.getD_cons_zero]

theorem bitAt_cons_high (b : Byte) (s : List Byte) (j : Nat) : bitAt (b :: s) (8 + j) = bitAt s j := by
  rw [bitAt, bitAt, Nat.add_div_left j (by decide), Nat.add_mod_left, List.getD_cons_succ]

/-- R75's byte step is the eight bits of the byte fed in one by one. -/
theorem crcByte_eq_feedBits (c : Word) (b : Byte) (s : List Byte) : crcByte c b = feedBits c (bitAt (b :: s)) 8 := by
  rw [feedBits_eq_iterate c _ (by decide), crcByte_eq_iterate]
  congr 2
  refine BitVec.eq_of_getLsbD_eq fun i hi => ?_
  rw [wordOfBits_getLsbD _ _ hi, BitVec.getLsbD_setWidth]
  by_cases hlow : i < 8
  · simp [hi, hlow, bitAt_cons_low b s hlow]
  · simp [hlow, BitVec.getLsbD_of_ge b i (Nat.le_of_not_lt hlow)]

theorem checksumFrom_eq_feedBits (c : Word) (s : List Byte) :
    checksumFrom c s = feedBits c (bitAt s) (8 * s.length) := by
  induction s generalizing c with
  | nil => rfl
  | cons b s ih =>
    rw [checksumFrom_cons, ih, List.length_cons, Nat.mul_succ, Nat.add_comm, feedBits_add, ← crcByte_eq_feedBits]
    exact feedBits_congr fun j _ => (bitAt_cons_high b s j).symm

/-! ### Bursts -/

theorem bitAt_of_length_le {s : List Byte} {j : Nat} (hj : 8 * s.length ≤ j) : bitAt s j = false := by
  rw [bitAt, List.getD_eq_default _ _ (by omega)]
  exact BitVec.getLsbD_zero

theorem eq_of_bitAt_eq {s t : List Byte} (hlen : s.length = t.length) (h : ∀ j, bitAt s j = bitAt t j) : s = t := by
  refine List.ext_getElem hlen fun i hs ht => BitVec.eq_of_getLsbD_eq fun k hk => ?_
  have bit := h (8 * i + k)
  rwa [bitAt, bitAt, Nat.mul_add_div (by decide), Nat.div_eq_of_lt hk, Nat.add_zero, Nat.mul_add_mod,
    Nat.mod_eq_of_lt hk, List.getD_eq_getElem _ _ hs, List.getD_eq_getElem _ _ ht] at bit

/-- A nonzero message of at most 32 bits leaves a register that was 0 nonzero, since as a word it is nonzero. -/
theorem feedBits_ne_zero {x : Nat → Bool} {n j : Nat} (hn : n ≤ 32) (hj : j < n) (hx : x j = true) :
    feedBits 0#32 x n ≠ 0#32 := by
  rw [feedBits_eq_iterate _ _ hn, BitVec.zero_xor]
  refine crcBit_iterate_ne_zero n fun hzero => ?_
  have bit := wordOfBits_getLsbD x n (i := j) (by omega)
  rw [hzero, hx, BitVec.getLsbD_zero, decide_eq_true hj] at bit
  cases bit

/-- The zero bits around such a message change nothing of that. -/
theorem feedBits_window_ne_zero {x : Nat → Bool} {p n j : Nat} (hout : ∀ i, i < p ∨ p + 32 ≤ i → x i = false)
    (hj : j < n) (hx : x j = true) : feedBits 0#32 x n ≠ 0#32 := by
  have hpj : p ≤ j ∧ j < p + 32 := by
    by_contra hnot
    have := hout j (by omega)
    simp [this] at hx
  obtain ⟨w, rest, hw, hparts⟩ : ∃ w rest, w ≤ 32 ∧ (n = p + w + rest ∧ j < p + w ∧ (rest = 0 ∨ w = 32)) := by
    by_cases hend : n ≤ p + 32
    · exact ⟨n - p, 0, by omega, by omega⟩
    · exact ⟨32, n - (p + 32), by omega, by omega⟩
  obtain ⟨rfl, hjw, hrest⟩ := hparts
  have before : feedBits 0#32 x p = 0#32 := by
    rw [feedBits_of_false fun i hi => hout i (.inl hi)]
    exact Function.iterate_fixed crcBit_zero p
  rw [feedBits_add, feedBits_add, before, feedBits_of_false fun i hi => hout _ (.inr (by omega))]
  refine crcBit_iterate_ne_zero rest (feedBits_ne_zero (j := j - p) hw (by omega) ?_)
  rwa [Nat.add_sub_of_le hpj.1]

/-- Settles O12: the difference of the two registers is that of the XORed message from 0, which a burst leaves nonzero. -/
theorem burstChangesChecksum : Obligations.BurstChangesChecksum := by
  intro s t p hlen hne hout heq
  obtain ⟨j, hj⟩ : ∃ j, bitAt s j ≠ bitAt t j := by
    by_contra hall
    exact hne (eq_of_bitAt_eq hlen fun j => not_not.1 (not_exists.1 hall j))
  have inside : j < 8 * s.length := by
    by_contra hout
    exact hj (by rw [bitAt_of_length_le (by omega), bitAt_of_length_le (by omega)])
  have difference := feedBits_xor Config.crcInit Config.crcInit (bitAt s) (bitAt t) (8 * s.length)
  rw [← checksumFrom_eq_feedBits, hlen, ← checksumFrom_eq_feedBits, BitVec.xor_self] at difference
  refine feedBits_window_ne_zero (x := fun j => bitAt s j ^^ bitAt t j) (p := p) (fun i hi => by simp [hout i hi])
    inside (by simpa using hj) ?_
  rw [hlen, difference, BitVec.xor_eq_zero_iff]
  exact heq

end Sys2Proof.Machine
end

section
/-! SUPPORT. The bit-permutation (41_swizzle.md): the wiring table (R85), the word functions as bijective linear maps (R84), and
the buffer forms group by group and byte by byte (R86, R87). -/
namespace Sys2Proof.Machine

/-! ### Words -/

/-- Settles O15: the source of each output bit, read at the table's output positions. -/
theorem swizzleWiringTable : Obligations.SwizzleWiringTable := by
  intro w j b hj hb
  constructor
  · rw [swizzle_getLsbD w (by omega)]
    split
    · congr 1; omega
    · congr 1; omega
  · rw [unswizzle_getLsbD w (by omega)]
    split
    · congr 1; omega
    · congr 1; omega

/-- A permutation of bits is linear over exclusive or. -/
theorem swizzle_xor (a b : Word) : swizzle (a ^^^ b) = swizzle a ^^^ swizzle b := by
  refine BitVec.eq_of_getLsbD_eq fun i hi => ?_
  simp only [BitVec.getLsbD_xor, swizzle_getLsbD _ hi]
  split <;> rfl

theorem unswizzle_xor (a b : Word) : unswizzle (a ^^^ b) = unswizzle a ^^^ unswizzle b := by
  refine BitVec.eq_of_getLsbD_eq fun i hi => ?_
  simp only [BitVec.getLsbD_xor, unswizzle_getLsbD _ hi]
  split <;> rfl

/-- Settles O16: each word function is the other's inverse on both sides. -/
theorem swizzleInverseLaw : Obligations.SwizzleInverseLaw :=
  ⟨fun w => ⟨unswizzle_swizzle w, swizzle_unswizzle w⟩,
    Function.bijective_iff_has_inverse.2 ⟨unswizzle, unswizzle_swizzle, swizzle_unswizzle⟩,
    Function.bijective_iff_has_inverse.2 ⟨swizzle, swizzle_unswizzle, unswizzle_swizzle⟩,
    fun a b => ⟨swizzle_xor a b, unswizzle_xor a b⟩, by decide, by decide⟩

/-! ### Lanes -/

/-- R81 bit by bit, as R82 within one lane. -/
theorem ror3_getLsbD (b : Byte) {i : Nat} (hi : i < 8) :
    (ror3 b).getLsbD i = if i < 5 then b.getLsbD (i + 3) else b.getLsbD (i - 5) := by
  rw [ror3_eq_rotateRight, BitVec.getLsbD_rotateRight_of_lt (by decide), Nat.add_comm 3 i]
  by_cases hlow : i < 5
  · simp [hlow]
  · simp [hlow, hi]

theorem ror3_xor (a b : Byte) : ror3 (a ^^^ b) = ror3 a ^^^ ror3 b := by
  refine BitVec.eq_of_getLsbD_eq fun i hi => ?_
  simp only [BitVec.getLsbD_xor, ror3_getLsbD _ hi]
  split <;> rfl

theorem rol3_xor (a b : Byte) : rol3 (a ^^^ b) = rol3 a ^^^ rol3 b :=
  calc rol3 (a ^^^ b) = rol3 (ror3 (rol3 a ^^^ rol3 b)) := by rw [ror3_xor, ror3_rol3, ror3_rol3]
    _ = rol3 a ^^^ rol3 b := rol3_ror3 _

/-- No bit leaves its byte: `swizzle` rotates every byte lane (R85). -/
theorem byteOf_swizzle (w : Word) {j : Nat} (hj : j < 4) : byteOf (swizzle w) j = ror3 (byteOf w j) := by
  refine BitVec.eq_of_getLsbD_eq fun i hi => ?_
  have lane : (8 * j + i) % 8 = i := by omega
  rw [ror3_getLsbD _ hi, byteOf_getLsbD, byteOf_getLsbD, byteOf_getLsbD, swizzle_getLsbD w (by omega), lane]
  by_cases hlow : i < 5
  · have inByte : i + 3 < 8 := by omega
    simp [hi, hlow, inByte, Nat.add_assoc]
  · have inByte : i - 5 < 8 := by omega
    have down : 8 * j + i - 5 = 8 * j + (i - 5) := by omega
    simp [hi, hlow, inByte, down]

theorem byteOf_unswizzle (w : Word) {j : Nat} (hj : j < 4) : byteOf (unswizzle w) j = rol3 (byteOf w j) := by
  rw [← rol3_ror3 (byteOf (unswizzle w) j), ← byteOf_swizzle _ hj, swizzle_unswizzle]

/-! ### Buffers -/

theorem mapWords_swizzle {s : List Byte} (h : s.length % 4 = 0) : mapWords swizzle s = s.map ror3 :=
  mapWords_of_lanes (fun w _ hj => byteOf_swizzle w hj) (fun _ _ _ _ => bytesLe32_le32 rfl) s h

theorem mapWords_unswizzle {s : List Byte} (h : s.length % 4 = 0) : mapWords unswizzle s = s.map rol3 :=
  mapWords_of_lanes (fun w _ hj => byteOf_unswizzle w hj) (fun _ _ _ _ => bytesLe32_le32 rfl) s h

/-- R86 as written: the `m`-th group of the result is the image of the `m`-th group. -/
theorem slice_mapWords (f : Word → Word) :
    ∀ (s : List Byte) (m : Nat), m < s.length / 4 →
      slice (mapWords f s) (4 * m) 4 = bytesLe32 (f (le32 (slice s (4 * m) 4)))
  | a :: b :: c :: d :: rest, 0, _ => rfl
  | a :: b :: c :: d :: rest, m + 1, hm => by
    have inRest : m < rest.length / 4 := by simp only [List.length_cons] at hm; omega
    have result : slice (mapWords f (a :: b :: c :: d :: rest)) (4 * (m + 1)) 4 = slice (mapWords f rest) (4 * m) 4 := by
      rw [Nat.mul_succ, Nat.add_comm]
      exact slice_append_right (bytesLe32 _) _ 4 _ 4 rfl
    have source : slice (a :: b :: c :: d :: rest) (4 * (m + 1)) 4 = slice rest (4 * m) 4 := by
      rw [Nat.mul_succ, Nat.add_comm]
      exact slice_append_right [a, b, c, d] _ 4 _ 4 rfl
    rw [result, source, slice_mapWords f rest m inRest]
  | [], _, hm => absurd hm (by simp)
  | [_], _, hm => absurd hm (by simp)
  | [_, _], _, hm => absurd hm (by simp)
  | [_, _, _], _, hm => absurd hm (by simp)

/-- R86 and R87 for one of the two word functions `f`, with its inverse `g` and its byte rotation `rot`. -/
theorem permuteBuffer_whole_groups {f g : Word → Word} {rot : Byte → Byte} (hgf : ∀ w, g (f w) = w) {s : List Byte}
    (hlen : s.length % 4 = 0) (hrot : mapWords f s = s.map rot) :
    ∃ out, permuteBuffer f s = .ok out ∧ out.length = s.length ∧ permuteBuffer g out = .ok s ∧
      (∀ m, m < s.length / 4 → slice out (4 * m) 4 = bytesLe32 (f (le32 (slice s (4 * m) 4)))) ∧
      ∀ i, i < s.length → out[i]? = (s[i]?).map rot := by
  have length : (mapWords f s).length = s.length := mapWords_length f s hlen
  refine ⟨mapWords f s, permuteBuffer_of_whole_groups hlen, length, ?undone, slice_mapWords f s, fun i _ => ?byte⟩
  case undone => rw [permuteBuffer_of_whole_groups (by rwa [length]), mapWords_mapWords_cancel hgf s hlen]
  case byte => rw [hrot, List.getElem?_map]

/-- Settles O17: the two buffer forms are one law, for each word function and its inverse. -/
theorem bufferFormsActByteWise : Obligations.BufferFormsActByteWise :=
  ⟨fun _ hlen =>
      ⟨permuteBuffer_whole_groups unswizzle_swizzle hlen (mapWords_swizzle hlen),
        permuteBuffer_whole_groups swizzle_unswizzle hlen (mapWords_unswizzle hlen)⟩,
    fun _ hlen => ⟨permuteBuffer_malformedLength hlen, permuteBuffer_malformedLength hlen⟩, rfl, rfl⟩

end Sys2Proof.Machine
end

section
/-! SUPPORT. The block transform's parts (42_block_transform.md R92 to R99, R102, R103): the key start offset, the static key,
the order of the stages, and both directions byte by byte. -/
namespace Sys2Proof.Machine

/-! ### The key start offset -/

theorem and_byteMask_toNat (w : Word) : (w &&& 0xFF#32).toNat = w.toNat % 256 := by
  rw [BitVec.toNat_and]
  exact Nat.and_two_pow_sub_one_eq_mod w.toNat 8

/-- Only the two low bytes of the index count (R92). -/
theorem kso_toNat (index : Word) : (kso index).toNat = (index.toNat / 256 % 256 + index.toNat % 256) % 256 := by
  have hindex := index.isLt
  rw [kso, and_byteMask_toNat, BitVec.toNat_add, and_byteMask_toNat, BitVec.toNat_ushiftRight, Nat.shiftRight_eq_div_pow]
  omega

theorem kso_le (index : Word) : (kso index).toNat ≤ 255 := by rw [kso_toNat]; omega

/-- The key index does not wrap, and does not reach the key's last byte (R103). -/
theorem keyIndex_no_wrap (index : Word) {i : Nat} (hi : i ≤ 259) :
    (i + (kso index).toNat) % 516 = i + (kso index).toNat ∧ i + (kso index).toNat ≤ 514 := by
  have hk := kso_le index
  omega

/-- Settles O22: R92's sum, its range, R103's index, and the five examples. -/
theorem keyStartOffset : Obligations.KeyStartOffset :=
  ⟨fun index => ⟨rfl, kso_toNat index, kso_le index⟩, fun index _ hi => keyIndex_no_wrap index hi,
    by decide, by decide, by decide, by decide, by decide⟩

/-! ### The static key -/

/-- The static key is the index with every byte rotated (R93). -/
theorem hk_lanes (index : Word) :
    hk index = [ror3 (byteOf index 0), ror3 (byteOf index 1), ror3 (byteOf index 2), ror3 (byteOf index 3)] := by
  rw [hk, bytesLe32, byteOf_swizzle _ (by decide), byteOf_swizzle _ (by decide), byteOf_swizzle _ (by decide),
    byteOf_swizzle _ (by decide)]

theorem hk_getD (index : Word) {j : Nat} (hj : j < 4) : (hk index).getD j 0#8 = ror3 (byteOf index j) := by
  rw [hk_lanes]
  match j, hj with
  | 0, _ => rfl
  | 1, _ => rfl
  | 2, _ => rfl
  | 3, _ => rfl

/-- Settles O23: the lanes of the static key, and R93's example. -/
theorem staticKeyLanes : Obligations.StaticKeyLanes := ⟨fun index => ⟨rfl, hk_lanes index⟩, by decide⟩

/-! ### The stages -/

/-- Two pads may be XORed in either order. -/
theorem xorPad_comm (p q : Nat → Byte) (s : List Byte) : xorPad p 0 (xorPad q 0 s) = xorPad q 0 (xorPad p 0 s) := by
  refine List.ext_getElem? fun j => ?_
  simp only [xorPad_getElem?, Option.map_map]
  refine congrFun (congrArg _ (funext fun b => ?_)) _
  simp only [Function.comp_apply]
  ac_rfl

/-- Settles O24: the orders are the definitions, the XOR stages commute as pads, and one byte shows that stage P commutes with
neither. -/
theorem stageOrder : Obligations.StageOrder :=
  ⟨fun _ _ _ => ⟨rfl, rfl⟩, fun _ s _ _ => xorPad_comm _ _ s,
    ⟨[1#8], [0#8, 0#8, 0#8, 0#8], 0, by decide⟩, ⟨[0#8, 0#8, 0#8, 0#8], [1#8], by decide⟩⟩

/-! ### Byte by byte -/

/-- The byte stage K XORs at position `i` (R94). -/
def keyPad (key : List Byte) (index : Word) (i : Nat) : Byte :=
  key.getD ((i + (kso index).toNat) % Config.keyLength) 0#8

/-- Deciphering acts on each byte by itself: the key byte off, the rotation back, the index byte off (R102). -/
theorem decipher_getElem? (key : List Byte) (index : Word) {s : List Byte} (h : s.length % 4 = 0) (i : Nat) :
    (decipher key index s)[i]? =
      (s[i]?).map fun b => rol3 (b ^^^ keyPad key index i) ^^^ byteOf index (i % 4) := by
  simp only [decipher]
  rw [mapWords_unswizzle (by rwa [xorHk_length, xorKey_length]), List.getElem?_map, xorHk, xorPad_getElem?, xorKey,
    xorPad_getElem?, Option.map_map, Option.map_map]
  refine congrFun (congrArg _ (funext fun b => ?_)) _
  simp only [Function.comp_apply, Nat.zero_add]
  rw [rol3_xor, hk_getD index (Nat.mod_lt i (by decide)), rol3_ror3]
  rfl

/-- Enciphering acts on each byte by itself, the other way round (R102). -/
theorem encipher_getElem? (key : List Byte) (index : Word) {s : List Byte} (h : s.length % 4 = 0) (i : Nat) :
    (encipher key index s)[i]? =
      (s[i]?).map fun b => ror3 (b ^^^ byteOf index (i % 4)) ^^^ keyPad key index i := by
  simp only [encipher]
  rw [mapWords_swizzle h, xorKey, xorPad_getElem?, xorHk, xorPad_getElem?, List.getElem?_map, Option.map_map,
    Option.map_map]
  refine congrFun (congrArg _ (funext fun b => ?_)) _
  simp only [Function.comp_apply, Nat.zero_add]
  rw [hk_getD index (Nat.mod_lt i (by decide)), ror3_xor]
  rfl

end Sys2Proof.Machine
end

section
/-! SUPPORT. The block transform as a whole (42_block_transform.md R101, R102, R106): the closed form of both directions, the
round trips of `decrypt` and `encrypt`, and that one flipped bit is found. -/
namespace Sys2Proof.Machine

/-! ### The closed form -/

theorem keyPad_eq (key : List Byte) (index : Word) {i : Nat} (hi : i < 260) :
    keyPad key index i = key.getD (i + (kso index).toNat) 0#8 := by
  rw [keyPad, (keyIndex_no_wrap index (Nat.le_of_lt_succ hi)).1]

theorem getElem?_eq_some_getD {s : List Byte} {i : Nat} (h : i < s.length) : s[i]? = some (s.getD i 0#8) := by
  rw [List.getElem?_eq_getElem h, List.getD_eq_getElem _ _ h]

/-- Settles O25: each direction acts byte by byte, and the key index does not wrap. -/
theorem transformClosedForm : Obligations.TransformClosedForm := by
  refine ⟨fun index => by rw [hk, le32_bytesLe32, unswizzle_swizzle], fun key index s i hs _ hi => ?_⟩
  have whole : s.length % 4 = 0 := by rw [hs]
  rw [decipher_getElem? key index whole, encipher_getElem? key index whole, getElem?_eq_some_getD (hs.symm ▸ hi),
    keyPad_eq key index hi]
  exact ⟨rfl, rfl⟩

/-! ### Round trips -/

/-- The other way round to `decipher_encipher`: each stage undoes itself (R99). -/
theorem encipher_decipher (key : List Byte) (index : Word) {ct : List Byte} (h : ct.length % 4 = 0) :
    encipher key index (decipher key index ct) = ct := by
  have stageP : mapWords swizzle (decipher key index ct) = xorHk (xorKey key ct (kso index).toNat) (hk index) :=
    mapWords_mapWords_cancel swizzle_unswizzle _ (by rwa [xorHk_length, xorKey_length])
  rw [encipher, stageP, xorHk_xorHk, xorKey_xorKey]

/-- What `decrypt` accepts, said once: the checksum agrees, and the result is the parse of the plaintext (R97). -/
theorem decrypt_eq_ok_iff {key ct : List Byte} {crc index : Word} {r : Word × List Byte} :
    decrypt key crc index ct = .ok r ↔
      checksum (decipher key index ct) = crc ∧ parsePlain (decipher key index ct) = r := by
  by_cases hsum : checksum (decipher key index ct) = crc
  · rw [decrypt, decryptPlain_of_checksum_eq hsum, Except.map]
    simp [hsum]
  · rw [decrypt, decryptPlain_of_checksum_ne hsum, Except.map]
    simp [hsum]

theorem decrypt_encrypt (key : List Byte) (fa : Word) {p : List Byte} (index unknown pad : Word)
    (hp : p.length = Config.payloadLength) :
    decrypt key (encrypt key fa p index unknown pad).crc32 index (encrypt key fa p index unknown pad).cipherData =
      .ok (fa, p) := by
  have whole : (asmPlain fa p).length % 4 = 0 := by rw [asmPlain_length, hp]; rfl
  have plain : decipher key index (encrypt key fa p index unknown pad).cipherData = asmPlain fa p :=
    decipher_encipher key index whole
  rw [decrypt_eq_ok_iff, plain]
  exact ⟨rfl, parsePlain_asmPlain fa hp⟩

theorem encrypt_decrypt {key ct p : List Byte} {crc index fa : Word} (u pd : Word)
    (hct : ct.length = Config.plainLength) (h : decrypt key crc index ct = .ok (fa, p)) :
    (encrypt key fa p index u pd).crc32 = crc ∧ (encrypt key fa p index u pd).cipherData = ct := by
  obtain ⟨hsum, hparse⟩ := decrypt_eq_ok_iff.1 h
  have whole : ct.length % 4 = 0 := congrArg (· % 4) hct
  have plain : asmPlain fa p = decipher key index ct := by
    have assembled := asmPlain_parsePlain ((decipher_length key index ct whole).trans hct)
    rwa [hparse] at assembled
  constructor
  · show checksum (asmPlain fa p) = crc
    rw [plain, hsum]
  · show encipher key index (asmPlain fa p) = ct
    rw [plain, encipher_decipher key index whole]

/-- Settles O26: R101's round trip and its converse. -/
theorem blockRoundTrip : Obligations.BlockRoundTrip :=
  ⟨fun key fa _ index unknown pad hp => decrypt_encrypt key fa index unknown pad hp,
    fun _ _ _ _ _ _ u pd hct h => encrypt_decrypt u pd hct h⟩

/-! ### Flipped bits -/

/-- A sequence with one byte replaced by another has another checksum: a burst of at most 8 bits (R80). -/
theorem checksum_set_ne {s : List Byte} {i : Nat} {v : Byte} (hi : i < s.length) (hv : s.getD i 0#8 ≠ v) :
    checksum (s.set i v) ≠ checksum s := by
  refine burstChangesChecksum (s.set i v) s (8 * i) List.length_set (fun heq => hv ?_) fun j hj => ?_
  · rw [← heq, List.getD_eq_getElem _ _ (by rwa [List.length_set]), List.getElem_set_self]
  · have elsewhere : i ≠ j / 8 := by omega
    rw [bitAt, bitAt, List.getD_eq_getElem?_getD, List.getElem?_set_ne elsewhere, ← List.getD_eq_getElem?_getD]

/-- Deciphering a block with one byte XORed XORs the rotated bits into the same byte of the plaintext (R106). -/
theorem decipher_set_xor (key : List Byte) (index : Word) {ct : List Byte} (h : ct.length % 4 = 0) {i : Nat}
    (hi : i < ct.length) (m : Byte) :
    decipher key index (ct.set i (ct.getD i 0#8 ^^^ m)) =
      (decipher key index ct).set i ((decipher key index ct).getD i 0#8 ^^^ rol3 m) := by
  have length : (decipher key index ct).length = ct.length := decipher_length key index ct h
  refine List.ext_getElem? fun j => ?_
  rw [decipher_getElem? key index (by rwa [List.length_set])]
  by_cases hj : i = j
  · subst hj
    have plain := decipher_getElem? key index h i
    rw [getElem?_eq_some_getD hi, getElem?_eq_some_getD (length.symm ▸ hi), Option.map_some, Option.some_inj] at plain
    have maskLast : ct.getD i 0#8 ^^^ m ^^^ keyPad key index i = ct.getD i 0#8 ^^^ keyPad key index i ^^^ m := by ac_rfl
    rw [List.getElem?_set_self hi, List.getElem?_set_self (length.symm ▸ hi), plain, Option.map_some, Option.some_inj,
      maskLast, rol3_xor]
    ac_rfl
  · rw [List.getElem?_set_ne hj, List.getElem?_set_ne hj, decipher_getElem? key index h]

theorem xor_ne_self {n : Nat} {x y : BitVec n} (hy : y ≠ 0#n) : x ≠ x ^^^ y := by
  intro h
  have cancelled : x ^^^ x = x ^^^ (x ^^^ y) := congrArg (x ^^^ ·) h
  rw [BitVec.xor_self, ← BitVec.xor_assoc, BitVec.xor_self, BitVec.zero_xor] at cancelled
  exact hy cancelled.symm

/-- Bit `b` of a byte goes to bit `(b+3) mod 8`, and stays set (R85). -/
theorem rol3_single_bit : ∀ b < 8, rol3 (1#8 <<< b) = 1#8 <<< ((b + 3) % 8) ∧ 1#8 <<< ((b + 3) % 8) ≠ 0#8 := by
  decide

theorem single_bit_ne_zero : ∀ b < 32, 1#32 <<< b ≠ 0#32 := by decide

/-- Settles O29: a flipped cipher bit is one flipped plaintext bit, which the checksum finds; a flipped checksum bit is
another checksum. -/
theorem singleBitFlipIsDetected : Obligations.SingleBitFlipIsDetected := by
  constructor
  · intro s crc index ct key i b hph hcrc hindex hkey hct hsum hi hb hdata
    have whole : ct.length % 4 = 0 := by rw [hct]
    have inBlock : i < ct.length := by rwa [hct]
    obtain ⟨rotated, flipped⟩ := rol3_single_bit b hb
    have plain := decipher_set_xor key index whole inBlock (1#8 <<< b)
    rw [rotated] at plain
    have operands : BlockOperands s index (ct.set i (ct.getD i 0#8 ^^^ (1#8 <<< b))) key :=
      ⟨Phase.keyed_iff.2 hph, hindex, hdata, hkey⟩
    refine ⟨plain, execDec_blockChecksumMismatch operands hcrc ?_⟩
    rw [plain, ← hsum]
    exact checksum_set_ne (by rwa [decipher_length key index ct whole]) (xor_ne_self flipped)
  · intro s crc index ct key b hph hcrc hindex hkey hdata hsum hb
    have operands : BlockOperands s index ct key := ⟨Phase.keyed_iff.2 hph, hindex, hdata, hkey⟩
    exact execDec_blockChecksumMismatch operands hcrc (by rw [hsum]; exact xor_ne_self (single_bit_ne_zero b hb))

end Sys2Proof.Machine
end

section
/-! SUPPORT. The commands as words (30_encoding.md R59, R66) and the step that runs the command the host issues (44_key_and_host.md
R131). -/
namespace Sys2Proof.Machine

/-- Settles O1: no command is ill formed, and each word decodes to its own command. -/
theorem commandWordsRoundTrip : Obligations.CommandWordsRoundTrip :=
  fun i => ⟨by cases i <;> rfl, decode_eq_ok_iff.2 rfl⟩

/-- Settles O3: the words written out are those the encoder gives. -/
theorem familyWordsDecode : Obligations.FamilyWordsDecode :=
  ⟨decode_eq_ok_iff.2 (by decide), decode_eq_ok_iff.2 (by decide), decode_eq_ok_iff.2 (by decide),
    decode_eq_ok_iff.2 (by decide), decode_eq_ok_iff.2 (by decide)⟩

/-! ### The step -/

theorem step_of_move {s : State} {m : HostMove} {rest : List HostMove} (h : s.inbox = m :: rest) :
    step s = perform m { s with inbox := rest } := by
  rw [step, turn, State.nextMove, h]

/-- With no move waiting the engine waits (R150). -/
theorem step_of_no_move {s : State} (h : s.inbox = []) : step s = .next s := by
  rw [step, turn, State.nextMove, h]

/-- A value below 2^32 written to `CMD` is the command word in its low half (R59, R131). -/
theorem issue_of_decode {v : Dword} {i : Instr} (hv : v.toNat < 2 ^ 32) (hi : decode (v.setWidth 32) = .ok i) (s : State) :
    issue v s = exec i s := by
  have high : v.extractLsb' 32 32 = 0#32 := by
    apply BitVec.eq_of_toNat_eq
    rw [BitVec.extractLsb'_toNat, Nat.shiftRight_eq_div_pow, Nat.div_eq_of_lt hv]
    rfl
  have low : v.extractLsb' 0 32 = v.setWidth 32 := by
    apply BitVec.eq_of_toNat_eq
    rw [BitVec.extractLsb'_toNat, BitVec.toNat_setWidth, Nat.shiftRight_zero]
  rw [issue, if_pos high, low, hi]

theorem perform_commandMove (i : Instr) (s : State) : perform (commandMove i) s = exec i s := by
  refine issue_of_decode ?_ (decode_eq_ok_iff.2 ?_) s
  · rw [BitVec.toNat_setWidth_of_le (by decide)]
    exact (encode i).isLt
  · rw [BitVec.setWidth_setWidth_of_le _ (by decide), BitVec.setWidth_eq]

/-- The fetched word is the move that issues the command. -/
theorem fetchMove_encode (i : Instr) : fetchMove 32 (encode i).toNat = commandMove i := by
  rw [fetchMove, commandMove, Nat.mod_eq_of_lt (encode i).isLt, BitVec.ofNat_toNat]

/-- Settles O5: the step performs the waiting move, which for a command word is the command. -/
theorem stepRunsTheIssuedCommand : Obligations.StepRunsTheIssuedCommand := by
  refine ⟨fun s v i rest hin hv hdecode => ⟨(commandWordsRoundTrip i).1, ?issued⟩, fun s m rest => step_of_move,
    fun s => step_of_no_move, fun s i => ?fetched⟩
  case issued => exact (step_of_move hin).trans (issue_of_decode hv hdecode _)
  case fetched =>
    have waiting : (s.withFetchWord 32 (encode i).toNat).inbox = commandMove i :: s.inbox :=
      congrArg (· :: s.inbox) (fetchMove_encode i)
    exact (step_of_move waiting).trans (perform_commandMove i s)

end Sys2Proof.Machine
end

section
/-! SUPPORT. The host's side of the register map (10_state.md R31 to R33, 44_key_and_host.md R127, R128): `RESET`, the writes, the
reads, and the two views made of fields. -/
namespace Sys2Proof.Machine

theorem State.afterReset_status (s : State) : s.afterReset.status = 0x00000000#32 := by
  rw [State.status, State.afterReset_ph, State.afterReset_err, State.afterReset_elog]
  decide

/-- Settles O43: every element of the reset state, one by one. -/
theorem resetMove : Obligations.ResetMove := fun s =>
  ⟨s.afterReset, rfl, rfl, rfl, rfl, rfl, rfl, rfl, fun _ => rfl, fun _ => rfl, rfl, rfl, rfl, rfl, rfl, rfl, rfl, rfl, rfl,
    rfl, rfl, rfl, rfl, rfl, s.afterReset_status, rfl, rfl, rfl⟩

/-! ### Writes -/

/-- `RO` registers and numbers above 15 (R33). -/
theorem writeRegister_refused {n : Nat} (h : n ∈ [3, 5, 7, 9, 14, 15] ∨ 16 ≤ n) (v : Dword) (s : State) :
    ∃ r, writeRegister n v s = .refused r := by
  obtain hro | ⟨k, rfl⟩ := h.imp_right Nat.exists_eq_add_of_le'
  · simp only [List.mem_cons, List.not_mem_nil, or_false] at hro
    rcases hro with rfl | rfl | rfl | rfl | rfl | rfl
    all_goals exact ⟨_, rfl⟩
  · exact ⟨.noSuchRegister (k + 16), rfl⟩

/-- Settles O44: the writable registers by their numbers, and the refusals. -/
theorem registerWrites : Obligations.RegisterWrites := fun s v =>
  ⟨rfl, rfl, rfl, rfl, rfl, rfl, rfl, rfl, rfl, fun _ h => writeRegister_refused h v s⟩

/-! ### Fields of a view -/

section
variable {n w k : Nat} (x : BitVec n)

/-- A field placed at bit `k` has no bit outside its own. -/
theorem field_getLsbD_outside {i : Nat} (h : i < k ∨ k + n ≤ i) : (x.setWidth w <<< k).getLsbD i = false := by
  rw [BitVec.getLsbD_shiftLeft, BitVec.getLsbD_setWidth]
  rcases h with h | h
  · simp [h]
  · simp [BitVec.getLsbD_of_ge x (i - k) (by omega)]

theorem field_extract_outside {j m : Nat} (h : j + m ≤ k ∨ k + n ≤ j) :
    (x.setWidth w <<< k).extractLsb' j m = 0#m := by
  refine BitVec.eq_of_getLsbD_eq fun i hi => ?_
  rw [BitVec.getLsbD_extractLsb', field_getLsbD_outside x (by omega), Bool.and_false, BitVec.getLsbD_zero]

theorem field_extract_own (h : k + n ≤ w) : (x.setWidth w <<< k).extractLsb' k n = x := by
  refine BitVec.eq_of_getLsbD_eq fun i hi => ?_
  have inside : k + i < w := by omega
  simp [hi, inside]

end

/-- `HVER` as three fields, each placed at its bit (R32). -/
theorem versionWord_eq_fields (minor major : Byte) (magic : Half) :
    versionWord minor major magic = minor.setWidth 32 <<< 0 ||| major.setWidth 32 <<< 8 ||| magic.setWidth 32 <<< 16 := by
  rw [BitVec.shiftLeft_zero, versionWord]

theorem versionWord_fields (minor major : Byte) (magic : Half) :
    (versionWord minor major magic).extractLsb' 0 8 = minor ∧ (versionWord minor major magic).extractLsb' 8 8 = major ∧
      (versionWord minor major magic).extractLsb' 16 16 = magic := by
  rw [versionWord_eq_fields]
  refine ⟨?low, ?middle, ?high⟩
  all_goals rw [BitVec.extractLsb'_or, BitVec.extractLsb'_or]
  case low =>
    rw [field_extract_own _ (by decide), field_extract_outside _ (.inl (by decide)),
      field_extract_outside _ (.inl (by decide)), BitVec.or_zero, BitVec.or_zero]
  case middle =>
    rw [field_extract_own _ (by decide), field_extract_outside _ (.inr (by decide)),
      field_extract_outside _ (.inl (by decide)), BitVec.zero_or, BitVec.or_zero]
  case high =>
    rw [field_extract_own _ (by decide), field_extract_outside _ (.inr (by decide)),
      field_extract_outside _ (.inr (by decide)), BitVec.zero_or, BitVec.zero_or]

/-- `STATUS` as three fields, each placed at its bit (R31). -/
theorem State.status_eq_fields (s : State) :
    s.status = s.ph.code.setWidth 32 <<< 0 ||| s.err.setWidth 32 <<< 4 ||| s.elog.setWidth 32 <<< 8 := by
  rw [BitVec.shiftLeft_zero, State.status]

theorem State.status_fields (s : State) :
    s.status.extractLsb' 0 3 = s.ph.code ∧ s.status.extractLsb' 4 3 = s.err ∧ s.status.extractLsb' 8 5 = s.elog ∧
      s.status.extractLsb' 13 19 = 0#19 := by
  rw [State.status_eq_fields]
  refine ⟨?phase, ?err, ?elog, ?rest⟩
  all_goals rw [BitVec.extractLsb'_or, BitVec.extractLsb'_or]
  case phase =>
    rw [field_extract_own _ (by decide), field_extract_outside _ (.inl (by decide)),
      field_extract_outside _ (.inl (by decide)), BitVec.or_zero, BitVec.or_zero]
  case err =>
    rw [field_extract_own _ (by decide), field_extract_outside _ (.inr (by decide)),
      field_extract_outside _ (.inl (by decide)), BitVec.zero_or, BitVec.or_zero]
  case elog =>
    rw [field_extract_own _ (by decide), field_extract_outside _ (.inr (by decide)),
      field_extract_outside _ (.inr (by decide)), BitVec.zero_or, BitVec.zero_or]
  case rest =>
    rw [field_extract_outside _ (.inr (by decide)), field_extract_outside _ (.inr (by decide)),
      field_extract_outside _ (.inr (by decide)), BitVec.or_zero, BitVec.or_zero]

/-- The bits between the fields (R31). -/
theorem State.status_gap (s : State) {i : Nat} (hi : i = 3 ∨ i = 7) : s.status.getLsbD i = false := by
  rw [State.status_eq_fields, BitVec.getLsbD_or, BitVec.getLsbD_or, field_getLsbD_outside _ (by omega),
    field_getLsbD_outside _ (by omega), field_getLsbD_outside _ (by omega)]
  rfl

/-! ### Reads -/

section
variable {n : Nat} {s : State}

theorem perform_readReg_ok {v : Dword} (h : readRegister n s = .ok v) : perform (.readReg n) s = .next (s.reply v) :=
  deliver_next_iff.2 ⟨v, h, rfl⟩

theorem perform_readReg_refused {r : Refusal} (h : readRegister n s = .error r) :
    perform (.readReg n) s = .refused r := by
  rw [perform, h, deliver]

/-- A 64-bit register, with and without a value (R128). -/
theorem readRegister_of_operand {e : Element} {x : Reg 64} (h : readRegister n s = operand e x) :
    (x = none → ∃ r, perform (.readReg n) s = .refused r) ∧
      ∀ v, x = some v → perform (.readReg n) s = .next { s with replies := v :: s.replies } := by
  constructor
  · rintro rfl; exact ⟨_, perform_readReg_refused h⟩
  · rintro v rfl; exact perform_readReg_ok h

/-- A 32-bit register, with and without a value (R8, R128). -/
theorem readRegister_of_operand32 {e : Element} {x : Reg 32} (h : readRegister n s = operand32 e x) :
    (x = none → ∃ r, perform (.readReg n) s = .refused r) ∧
      ∀ v, x = some v → perform (.readReg n) s = .next { s with replies := v.setWidth 64 :: s.replies } := by
  constructor
  · rintro rfl; exact ⟨_, perform_readReg_refused h⟩
  · rintro v rfl; exact perform_readReg_ok h

theorem readRegister_version_ok {minor major : Byte} {magic : Half} (hminor : s.hminor = some minor)
    (hmajor : s.hmajor = some major) (hmagic : s.hmagic = some magic) :
    readRegister 6 s = .ok ((versionWord minor major magic).setWidth 64) := by
  rw [readRegister, hminor, hmajor, hmagic]
  rfl

/-- "A host read is refused while any of the three is `undef`" (R32). -/
theorem perform_readReg_version_refused (h : s.hminor = none ∨ s.hmajor = none ∨ s.hmagic = none) :
    ∃ r, perform (.readReg 6) s = .refused r := by
  refine refused_of_no_next fun t hnext => ?_
  obtain ⟨v, hread, -⟩ := deliver_next_iff.1 hnext
  simp only [readRegister, bind_ok_iff, operand_ok_iff] at hread
  obtain ⟨minor, hminor, major, hmajor, magic, hmagic, -⟩ := hread
  rcases h with hundef | hundef | hundef
  · cases hundef.symm.trans hminor
  · cases hundef.symm.trans hmajor
  · cases hundef.symm.trans hmagic

theorem perform_readReg_length (hlen : s.flen < 2 ^ 64) :
    perform (.readReg 15) s = .next { s with replies := BitVec.ofNat 64 s.flen :: s.replies } :=
  perform_readReg_ok (congrArg Except.ok (if_pos hlen))

/-- `CMD` is write-only, and there is no register above 15 (R33). -/
theorem perform_readReg_none (h : n = 0 ∨ 16 ≤ n) : ∃ r, perform (.readReg n) s = .refused r := by
  obtain rfl | ⟨k, rfl⟩ := h.imp_right Nat.exists_eq_add_of_le'
  · exact ⟨_, rfl⟩
  · exact ⟨.noSuchRegister (k + 16), rfl⟩

end

/-- Settles O45: every register of R33 by its number. -/
theorem registerReads : Obligations.RegisterReads := by
  intro s
  refine ⟨fun n x h => ?words, fun n x h => ?dwords, fun minor major magic hminor hmajor hmagic => ?version,
    perform_readReg_version_refused, rfl, rfl, perform_readReg_length, fun n => perform_readReg_none⟩
  case words =>
    simp only [List.mem_cons, Prod.mk.injEq, List.not_mem_nil, or_false] at h
    rcases h with ⟨rfl, rfl⟩ | ⟨rfl, rfl⟩ | ⟨rfl, rfl⟩ | ⟨rfl, rfl⟩ | ⟨rfl, rfl⟩ | ⟨rfl, rfl⟩ | ⟨rfl, rfl⟩ | ⟨rfl, rfl⟩ |
      ⟨rfl, rfl⟩
    all_goals exact readRegister_of_operand32 rfl
  case dwords =>
    simp only [List.mem_cons, Prod.mk.injEq, List.not_mem_nil, or_false] at h
    rcases h with ⟨rfl, rfl⟩ | ⟨rfl, rfl⟩
    all_goals exact readRegister_of_operand rfl
  case version =>
    obtain ⟨low, middle, high⟩ := versionWord_fields minor major magic
    exact ⟨low, middle, high, perform_readReg_ok (readRegister_version_ok hminor hmajor hmagic)⟩

/-- Settles O46: the fields of `STATUS`, the bits between and above them, and that it can always be read. -/
theorem statusView : Obligations.StatusView := by
  intro s
  obtain ⟨phase, err, elog, rest⟩ := s.status_fields
  exact ⟨phase, s.status_gap (.inl rfl), err, s.status_gap (.inr rfl), elog, rest, rfl, s.afterReset_status⟩

/-- Settles O50: the three reading moves deliver a value and do nothing else. -/
theorem hostReadsChangeNothing : Obligations.HostReadsChangeNothing := by
  intro s t m hm h
  cases m with
  | readReg n => obtain ⟨v, -, rfl⟩ := deliver_next_iff.1 h; exact ⟨v, rfl⟩
  | readBlock i => obtain ⟨v, -, rfl⟩ := deliver_next_iff.1 h; exact ⟨v, rfl⟩
  | readFrame a => obtain ⟨v, -, rfl⟩ := deliver_next_iff.1 h; exact ⟨v, rfl⟩
  | reset | writeReg | writeBlock | loadFrame | writeFrame => cases hm

end Sys2Proof.Machine
end

section
/-! SUPPORT. The block-buffer and frame moves (44_key_and_host.md R129, R130), and that no move but a command and `RESET` touches
or depends on the key (10_state.md R20, 60_exceptions.md R147). -/
namespace Sys2Proof.Machine

/-! ### Block buffer -/

section
variable {s : State} {i : Nat}

theorem perform_writeBlock_next_iff {b : Byte} {t : State} :
    perform (.writeBlock i b) s = .next t ↔
      i < Config.plainLength ∧ t = { s with bdata := Memory.put .bdata s.bdata i b } := by
  rw [perform, permit_next_iff, require_ok_iff, decide_eq_true_iff]

theorem perform_readBlock_next_iff {t : State} :
    perform (.readBlock i) s = .next t ↔
      i < Config.plainLength ∧ ∃ b, s.blockByte i = some b ∧ t = s.reply (b.setWidth 64) := by
  simp only [perform, deliver_next_iff, readBlockByte_ok_iff]
  constructor
  · rintro ⟨_, ⟨hi, b, hb, rfl⟩, rfl⟩; exact ⟨hi, b, hb, rfl⟩
  · rintro ⟨hi, b, hb, rfl⟩; exact ⟨_, ⟨hi, b, hb, rfl⟩, rfl⟩

end

/-- Settles O47: what each of the two moves asks for, and what it does. -/
theorem blockBufferMoves : Obligations.BlockBufferMoves := by
  refine fun s i => ⟨fun b hi => ?writes, fun b hi hb => ?reads, fun _ hundef => ?undef, fun hout => ⟨?readOut, fun b => ?writeOut⟩⟩
  case writes =>
    refine ⟨_, perform_writeBlock_next_iff.2 ⟨hi, rfl⟩, ?_, fun j hj => ?_, rfl⟩
    · rw [State.blockByte, Memory.get_put, if_pos rfl]
    · rw [State.blockByte, Memory.get_put, if_neg hj, State.blockByte]
  case reads => exact perform_readBlock_next_iff.2 ⟨hi, b, hb, rfl⟩
  case undef =>
    refine refused_of_no_next fun t hnext => ?_
    obtain ⟨-, b, hb, -⟩ := perform_readBlock_next_iff.1 hnext
    cases hundef.symm.trans hb
  case readOut => exact refused_of_no_next fun t hnext => Nat.not_lt_of_le hout (perform_readBlock_next_iff.1 hnext).1
  case writeOut => exact refused_of_no_next fun t hnext => Nat.not_lt_of_le hout (perform_writeBlock_next_iff.1 hnext).1

/-! ### Frame -/

section
variable {s t : State} {a : Nat}

theorem perform_loadFrame_next_iff {bytes : List Byte} :
    perform (.loadFrame bytes) s = .next t ↔
      (s.ph = .idle ∧ bytes.length ≤ s.params.fcap) ∧ t = s.setFrame bytes := by
  rw [perform, permit_next_iff, mayLoadFrame_ok_iff]

theorem perform_writeFrame_next_iff {b : Byte} :
    perform (.writeFrame a b) s = .next t ↔ (s.ph = .idle ∧ a < s.flen) ∧ t = s.memWrite a [b] := by
  rw [perform, permit_next_iff, mayWriteFrame_ok_iff]

theorem perform_readFrame_next_iff :
    perform (.readFrame a) s = .next t ↔
      s.ph.keyed = true ∧ a < s.flen ∧ t = s.reply ((s.frameByte a).setWidth 64) := by
  simp only [perform, deliver_next_iff, readFrameByte_ok_iff]
  constructor
  · rintro ⟨_, ⟨hkeyed, ha, rfl⟩, rfl⟩; exact ⟨hkeyed, ha, rfl⟩
  · rintro ⟨hkeyed, ha, rfl⟩; exact ⟨_, ⟨hkeyed, ha, rfl⟩, rfl⟩

theorem State.frameByte_memWrite_self (s : State) (a : Nat) (b : Byte) : (s.memWrite a [b]).frameByte a = b := by
  rw [State.frameByte_memWrite, if_pos (by simp), Nat.sub_self, List.getD_cons_zero]

theorem State.frameByte_memWrite_other (s : State) {a x : Nat} (b : Byte) (hx : x ≠ a) :
    (s.memWrite a [b]).frameByte x = s.frameByte x := by
  rw [State.frameByte_memWrite, if_neg (by simp; omega)]

/-- The placeholder is there to be read (R130). -/
theorem State.Inv.building_placeholder (h : s.Inv) (hph : s.ph = .building) (ha : a < Config.headerLength) :
    a < s.flen ∧ s.frameByte a = 0#8 := by
  have length := h.building_length hph
  have byte := congrArg (·[a]?) (h.building_header hph)
  simp only [State.memRead_getElem?, List.getElem?_replicate, if_pos ha, Nat.zero_add, Option.some_inj] at byte
  exact ⟨by rw [length]; exact Nat.lt_of_lt_of_le ha (Nat.le_add_right _ _), byte⟩

end

/-- Settles O48: what each of the three moves asks for, and what it does. -/
theorem frameMoves : Obligations.FrameMoves := by
  refine fun s => ⟨fun bytes hph hroom => ?loads, fun bytes h => ?loadRefused, fun a b hph ha => ?writes,
    fun a b h => ?writeRefused, fun a hph ha => ?reads, fun a h => ?readRefused, fun a hinv hph ha => ?placeholder⟩
  case loads => exact ⟨_, perform_loadFrame_next_iff.2 ⟨⟨hph, hroom⟩, rfl⟩, s.memRead_setFrame bytes, rfl⟩
  case loadRefused =>
    refine refused_of_no_next fun t hnext => ?_
    obtain ⟨⟨hph, hroom⟩, -⟩ := perform_loadFrame_next_iff.1 hnext
    exact h.elim (fun hphase => hphase hph) (Nat.not_lt_of_le hroom)
  case writes =>
    exact ⟨_, perform_writeFrame_next_iff.2 ⟨⟨hph, ha⟩, rfl⟩, s.frameByte_memWrite_self a b,
      fun x hx => s.frameByte_memWrite_other b hx, rfl⟩
  case writeRefused =>
    refine refused_of_no_next fun t hnext => ?_
    obtain ⟨⟨hph, ha⟩, -⟩ := perform_writeFrame_next_iff.1 hnext
    exact h.elim (fun hphase => hphase hph) (Nat.not_le_of_lt ha)
  case reads => exact perform_readFrame_next_iff.2 ⟨Phase.keyed_iff.2 hph, ha, rfl⟩
  case readRefused =>
    refine refused_of_no_next fun t hnext => ?_
    obtain ⟨hkeyed, ha, -⟩ := perform_readFrame_next_iff.1 hnext
    rcases h with hnoKey | hdead | hout
    · exact Phase.not_keyed_of_noKey_or_dead (.inl hnoKey) hkeyed
    · exact Phase.not_keyed_of_noKey_or_dead (.inr hdead) hkeyed
    · exact Nat.not_le_of_lt ha hout
  case placeholder =>
    obtain ⟨inFrame, zero⟩ := hinv.building_placeholder hph ha
    refine perform_readFrame_next_iff.2 ⟨Phase.keyed_iff.2 (.inr (.inr hph)), inFrame, ?_⟩
    rw [zero]
    rfl

/-! ### The key -/

/-- The same state with another key and another key store. -/
def State.withKey (s : State) (key : Memory) (ks : List Byte) : State :=
  { s with key := key, params := { s.params with ks := ks } }

section
variable (s : State) (key : Memory) (ks : List Byte)

theorem deliver_withKey (x : Except Refusal Dword) :
    deliver x (s.withKey key ks) = mapNext (·.withKey key ks) (deliver x s) := by
  cases x <;> rfl

theorem permit_withKey (c : Except Refusal Unit) (t : State) :
    permit c (t.withKey key ks) = mapNext (·.withKey key ks) (permit c t) := by
  cases c <;> rfl

/-- `CMD` aside, a register is written without a look at the key. -/
theorem writeRegister_withKey {n : Nat} (hn : n ≠ 0) (v : Dword) :
    writeRegister n v (s.withKey key ks) = mapNext (·.withKey key ks) (writeRegister n v s) := by
  unfold writeRegister
  split
  case h_1 => exact absurd rfl hn
  all_goals rfl

theorem readRegister_withKey (n : Nat) : readRegister n (s.withKey key ks) = readRegister n s := rfl

theorem readBlockByte_withKey (i : Nat) : readBlockByte i (s.withKey key ks) = readBlockByte i s := rfl

theorem readFrameByte_withKey (a : Nat) : readFrameByte a (s.withKey key ks) = readFrameByte a s := rfl

theorem mayLoadFrame_withKey (bytes : List Byte) : mayLoadFrame bytes (s.withKey key ks) = mayLoadFrame bytes s := rfl

theorem mayWriteFrame_withKey (a : Nat) : mayWriteFrame a (s.withKey key ks) = mayWriteFrame a s := rfl

end

/-- Settles O49: each move tests and reads the same without the key, and writes beside it. -/
theorem hostCannotReachTheKey : Obligations.HostCannotReachTheKey := by
  intro s key ks m hm hr
  show perform m (s.withKey key ks) = mapNext (·.withKey key ks) (perform m s)
  cases m with
  | reset => exact absurd rfl hr
  | readReg n => rw [perform, readRegister_withKey, deliver_withKey, perform]
  | writeReg n v => exact writeRegister_withKey s key ks (beq_eq_false_iff_ne.1 hm) v
  | readBlock i => rw [perform, readBlockByte_withKey, deliver_withKey, perform]
  | writeBlock i b => exact permit_withKey key ks _ { s with bdata := Memory.put .bdata s.bdata i b }
  | loadFrame bytes => rw [perform, mayLoadFrame_withKey]; exact permit_withKey key ks _ (s.setFrame bytes)
  | readFrame a => rw [perform, readFrameByte_withKey, deliver_withKey, perform]
  | writeFrame a b => rw [perform, mayWriteFrame_withKey]; exact permit_withKey key ks _ (s.memWrite a [b])

end Sys2Proof.Machine
end

section
/-! SUPPORT. The phase table (43_container.md R124): which commands a phase accepts, that a wrong phase is the first ground of
refusal (log 9), and where a command leaves `PH`. -/
namespace Sys2Proof.Machine

/-- The table written out is the one the commands test. -/
theorem mem_commandTable_iff {i : Instr} {p : Phase} : (i, p) ∈ commandTable ↔ acceptedIn i p = true := by
  cases i <;> cases p <;> decide

/-- A test that does not refuse for the phase. -/
def NotForPhase {α : Type} (x : Except Refusal α) : Prop := ∀ p, x ≠ .error (.wrongPhase p)

section
variable {α β : Type}

theorem notForPhase_ok (a : α) : NotForPhase (.ok a : Except Refusal α) := fun _ => nofun

theorem notForPhase_operand (e : Element) (x : Option α) : NotForPhase (operand e x) := fun _ h =>
  nomatch (operand_error_iff.1 h).2

theorem notForPhase_require {r : Refusal} (c : Bool) (hr : ∀ p, r ≠ .wrongPhase p) : NotForPhase (require c r) :=
  fun p h => hr p (require_error_iff.1 h).2

theorem notForPhase_bind {x : Except Refusal α} {f : α → Except Refusal β} (hx : NotForPhase x)
    (hf : ∀ a, NotForPhase (f a)) : NotForPhase (x >>= f) := by
  intro p h
  obtain hfirst | ⟨a, -, hrest⟩ := bind_error_iff.1 h
  · exact hx p hfirst
  · exact hf a p hrest

theorem notForPhase_frameRange (s : State) : NotForPhase (frameRange s) :=
  notForPhase_bind (notForPhase_operand _ _) fun _ => notForPhase_bind (notForPhase_operand _ _) fun _ =>
    notForPhase_bind (notForPhase_require _ nofun) fun _ => notForPhase_ok _

end

/-- A command that tests its phase, and then its other operands. -/
inductive PhaseFirst (i : Instr) (s : State) : Host.Outcome State Fault Refusal → Prop where
  | phaseOnly (effect : Unit → Except ErrorKind State) : PhaseFirst i s (accept (requirePhase i s) effect s)
  | operands {α : Type} {x : Except Refusal α} (effect : α → Except ErrorKind State) (hx : NotForPhase x) :
      PhaseFirst i s (accept (requirePhase i s >>= fun _ => x) effect s)

/-- Every command is one, its operands read in the order of its rule. -/
theorem exec_phaseFirst (i : Instr) (s : State) : PhaseFirst i s (exec i s) := by
  cases i with
  | ldkey | decc | close | begin => exact .phaseOnly _
  | crc | swzb | uswzb => exact .operands _ (notForPhase_frameRange s)
  | swz | uswz => exact .operands _ (notForPhase_operand _ _)
  | dec =>
    exact .operands _ (notForPhase_bind (notForPhase_operand _ _) fun _ => notForPhase_bind (notForPhase_operand _ _)
      fun _ => notForPhase_bind (notForPhase_operand _ _) fun _ => notForPhase_bind (notForPhase_operand _ _)
      fun _ => notForPhase_ok _)
  | enc =>
    exact .operands _ (notForPhase_bind (notForPhase_operand _ _) fun _ => notForPhase_bind (notForPhase_operand _ _)
      fun _ => notForPhase_bind (notForPhase_operand _ _) fun _ => notForPhase_ok _)
  | ldblk =>
    exact .operands _ (notForPhase_bind (notForPhase_operand _ _) fun _ => notForPhase_bind (notForPhase_operand _ _)
      fun _ => notForPhase_bind (notForPhase_require _ nofun) fun _ => notForPhase_bind (notForPhase_require _ nofun)
      fun _ => notForPhase_ok _)
  | append =>
    exact .operands _ (notForPhase_bind (notForPhase_operand _ _) fun _ => notForPhase_bind (notForPhase_operand _ _)
      fun _ => notForPhase_bind (notForPhase_operand _ _) fun _ => notForPhase_bind (notForPhase_operand _ _)
      fun _ => notForPhase_bind (notForPhase_operand _ _) fun _ => notForPhase_bind (notForPhase_require _ nofun)
      fun _ => notForPhase_bind (notForPhase_require _ nofun) fun _ => notForPhase_ok _)
  | encc =>
    exact .operands _ (notForPhase_bind (notForPhase_operand _ _) fun _ => notForPhase_bind (notForPhase_operand _ _)
      fun _ => notForPhase_bind (notForPhase_operand _ _) fun _ => notForPhase_bind (notForPhase_operand _ _)
      fun _ => notForPhase_bind (notForPhase_require _ nofun) fun _ => notForPhase_ok _)

theorem PhaseFirst.refused_iff {i : Instr} {s : State} {o : Host.Outcome State Fault Refusal} (h : PhaseFirst i s o) :
    o = .refused (.wrongPhase s.ph) ↔ acceptedIn i s.ph = false := by
  cases h with
  | phaseOnly effect => rw [accept_refused_iff, requirePhase_error_iff, and_iff_left rfl]
  | operands effect hx =>
    rw [accept_refused_iff, bind_error_iff, requirePhase_error_iff, and_iff_left rfl]
    exact or_iff_left fun ⟨_, _, hrefused⟩ => hx _ hrefused

/-- The column of R124 that says where an accepted command leaves `PH`, given the `ERR` it ends with. -/
def Instr.phaseAfter (p : Phase) (err : BitVec 3) : Instr → Phase
  | .ldkey => if err = 0#3 then .idle else .dead
  | .decc => if err = 0#3 then .opened else .idle
  | .close => .idle
  | .begin => .building
  | .encc => .idle
  | .crc | .swz | .uswz | .swzb | .uswzb | .dec | .enc | .ldblk | .append => p

theorem ErrorKind.code_ne_zero (e : ErrorKind) : e.code ≠ 0#3 := by
  cases e <;> decide

/-- A command of R132's table that fails leaves `PH`, which for `DECC` is `IDLE`. -/
theorem phaseAfter_of_failed {i : Instr} {p : Phase} {e : ErrorKind} (hi : acceptedIn i p = true)
    (hrow : (i, e.code.toNat) ∈ errorTable) (he : e ≠ .invalidKeyLength) : Instr.phaseAfter p e.code i = p := by
  simp only [errorTable, List.mem_cons, Prod.mk.injEq, List.not_mem_nil, or_false] at hrow
  have decc (h : acceptedIn .decc p = true) : Instr.phaseAfter p e.code .decc = p :=
    (if_neg e.code_ne_zero).trans (beq_iff_eq.1 h).symm
  rcases hrow with ⟨rfl, -⟩ | ⟨rfl, -⟩ | ⟨rfl, -⟩ | ⟨rfl, -⟩ | ⟨rfl, -⟩ | ⟨rfl, hcode⟩
  · exact decc hi
  · exact decc hi
  · rfl
  · rfl
  · rfl
  · cases e with
    | invalidKeyLength => exact absurd rfl he
    | truncatedInput | fileChecksumMismatch | blockChecksumMismatch | malformedLength => exact absurd hcode (by decide)

/-- Where an accepted command leaves `PH`, by its effect. -/
theorem CommandEffect.phase {i : Instr} {s t : State} (h : CommandEffect s i t) (hi : acceptedIn i s.ph = true) :
    t.ph = Instr.phaseAfter s.ph t.err i := by
  cases h with
  | keyRejected => rfl
  | failed hrow he => exact (ErrorKind.phaseAfter_of_ne he s.ph).trans (phaseAfter_of_failed hi hrow he).symm
  | keyLoaded => rfl
  | registersWritten hwriter =>
    simp only [registerWriters, List.mem_cons, List.not_mem_nil, or_false] at hwriter
    rcases hwriter with rfl | rfl | rfl | rfl | rfl | rfl
    all_goals rfl
  | rangeWritten hrange =>
    rcases hrange with rfl | rfl
    all_goals rfl
  | opened => rfl
  | closed => rfl
  | begun => rfl
  | appended => rfl
  | completed => rfl

/-- Settles O53: the phase is tested first, and each effect says where it leaves `PH`. -/
theorem phaseTable : Obligations.PhaseTable := by
  refine ⟨fun i s => ?refused, fun i s t h => ?completes, fun m s t h => ?moves⟩
  case refused => rw [(exec_phaseFirst i s).refused_iff, mem_commandTable_iff, Bool.not_eq_true]
  case completes =>
    have accepted : acceptedIn i s.ph = true := (exec_ends h).1
    refine ⟨mem_commandTable_iff.2 accepted, ((exec_effect h).phase accepted).trans ?_⟩
    cases i <;> rfl
  case moves =>
    by_cases hreset : m = .reset
    · subst hreset
      cases h
      exact .inl ⟨rfl, rfl⟩
    · cases hcommand : m.isCommand with
      | true => exact .inr (.inl rfl)
      | false =>
        obtain ⟨hph, -⟩ := move_keeps hcommand hreset h
        exact .inr (.inr hph)

end Sys2Proof.Machine
end

section
/-! SUPPORT. The container functions (43_container.md R107 to R110): the block region record by record, `decodeContainer` on a
header and a body, the round trips, and what a change of the bytes gives. -/
namespace Sys2Proof.Machine

/-! ### The block region -/

/-- The `k`-th of the records that lie one after another in `body` (R49). -/
def bodyRecord (body : List Byte) (k : Nat) : BlockRecord :=
  parseBlock (slice body (Config.blockLength * k) Config.blockLength)

/-- The first `n` records of `body`. -/
def bodyRecords (body : List Byte) (n : Nat) : List BlockRecord := (List.range n).map (bodyRecord body)

/-- Every record has its 260 cipher bytes (R56). -/
def AllSized (blocks : List BlockRecord) : Prop := ∀ b ∈ blocks, b.cipherData.length = Config.plainLength

theorem bodyRecords_length (body : List Byte) (n : Nat) : (bodyRecords body n).length = n := by
  rw [bodyRecords, List.length_map, List.length_range]

theorem flatMap_serBlock_length {blocks : List BlockRecord} (h : AllSized blocks) :
    (blocks.flatMap serBlock).length = Config.blockLength * blocks.length := by
  induction blocks with
  | nil => rfl
  | cons b blocks ih =>
    obtain ⟨hb, hblocks⟩ := List.forall_mem_cons.1 h
    rw [List.flatMap_cons, List.length_append, serBlock_length_of_plainLength hb, ih hblocks, List.length_cons,
      Nat.mul_succ, Nat.add_comm]

/-- Serialized records are found again at their places. -/
theorem bodyRecord_flatMap {blocks : List BlockRecord} (h : AllSized blocks) {k : Nat} (hk : k < blocks.length) :
    bodyRecord (blocks.flatMap serBlock) k = blocks[k] := by
  induction blocks generalizing k with
  | nil => cases hk
  | cons b blocks ih =>
    obtain ⟨hb, hblocks⟩ := List.forall_mem_cons.1 h
    have length : (serBlock b).length = Config.blockLength := serBlock_length_of_plainLength hb
    cases k with
    | zero => rw [bodyRecord, List.flatMap_cons, Nat.mul_zero, slice_append_left _ _ _ length, parseBlock_serBlock hb]; rfl
    | succ k =>
      rw [bodyRecord, List.flatMap_cons, Nat.mul_succ, Nat.add_comm, slice_append_right _ _ _ _ _ length]
      exact ih hblocks (Nat.lt_of_succ_lt_succ hk)

theorem bodyRecords_flatMap {blocks : List BlockRecord} (h : AllSized blocks) {n : Nat} (hn : n ≤ blocks.length) :
    bodyRecords (blocks.flatMap serBlock) n = blocks.take n := by
  refine List.ext_getElem (by rw [bodyRecords_length, List.length_take_of_le hn]) fun k hk _ => ?_
  have inBlocks : k < blocks.length := Nat.lt_of_lt_of_le (bodyRecords_length _ n ▸ hk) hn
  rw [List.getElem_take, ← bodyRecord_flatMap h inBlocks]
  simp [bodyRecords]

/-- Whole records, parsed and serialized again, are the bytes they were. -/
theorem flatMap_bodyRecords (body : List Byte) {n : Nat} (hn : Config.blockLength * n ≤ body.length) :
    (bodyRecords body n).flatMap serBlock = slice body 0 (Config.blockLength * n) := by
  induction n with
  | zero => rfl
  | succ n ih =>
    rw [Nat.mul_succ] at hn ⊢
    have record : serBlock (bodyRecord body n) = slice body (Config.blockLength * n) Config.blockLength :=
      serBlock_parseBlock (slice_length body _ _ hn)
    rw [bodyRecords, List.range_succ, List.map_append, List.flatMap_append, slice_add, Nat.zero_add, ← ih (by omega),
      ← record]
    simp [bodyRecords]

/-! ### `decodeContainer` -/

/-- R107 on a header and the bytes behind it: the two length tests are one, then the checksum. -/
theorem decodeContainer_serHeader_append (h : FileHeader) (body : List Byte) :
    decodeContainer (serHeader h ++ body) =
      if body.length < Config.blockLength * h.numBlocks.toNat then .error .truncatedInput
      else if checksum body ≠ h.crc32 then .error .fileChecksumMismatch
      else .ok (h, bodyRecords body h.numBlocks.toNat) := by
  have length : (serHeader h ++ body).length = Config.headerLength + body.length := by
    rw [List.length_append, serHeader_length]
  have header : parseHeader (slice (serHeader h ++ body) 0 Config.headerLength) = h := by
    rw [slice_append_left _ _ _ (serHeader_length h), parseHeader_serHeader]
  have behind : (serHeader h ++ body).drop Config.headerLength = body := List.drop_left' (serHeader_length h)
  have records : ((List.range h.numBlocks.toNat).map fun k =>
      parseBlock (slice (serHeader h ++ body) (recordAddress k) Config.blockLength)) =
      bodyRecords body h.numBlocks.toNat :=
    List.map_congr_left fun k _ => congrArg parseBlock (slice_append_right _ _ _ _ _ (serHeader_length h))
  simp only [decodeContainer, length, header, behind, records]
  rw [if_neg (Nat.not_lt_of_le (Nat.le_add_right _ _))]
  simp only [recordAddress, Nat.add_lt_add_iff_left]

/-- Bytes that decode are a header and a body that pass R107's tests, and the result is their parse. -/
theorem decodeContainer_eq_ok_iff {bytes : List Byte} {h : FileHeader} {blocks : List BlockRecord} :
    decodeContainer bytes = .ok (h, blocks) ↔
      ∃ body, bytes = serHeader h ++ body ∧ Config.blockLength * h.numBlocks.toNat ≤ body.length ∧
        checksum body = h.crc32 ∧ blocks = bodyRecords body h.numBlocks.toNat := by
  constructor
  · intro hdecode
    by_cases hshort : bytes.length < Config.headerLength
    · rw [decodeContainer, if_pos hshort] at hdecode; cases hdecode
    have split : bytes = serHeader (parseHeader (bytes.take Config.headerLength)) ++ bytes.drop Config.headerLength := by
      rw [serHeader_parseHeader (List.length_take_of_le (Nat.le_of_not_lt hshort)), List.take_append_drop]
    rw [split, decodeContainer_serHeader_append] at hdecode
    split at hdecode
    · cases hdecode
    · rename_i hlen
      split at hdecode
      · cases hdecode
      · rename_i hsum
        cases hdecode
        exact ⟨_, split, Nat.le_of_not_lt hlen, not_not.1 hsum, rfl⟩
  · rintro ⟨body, rfl, hlen, hsum, rfl⟩
    rw [decodeContainer_serHeader_append, if_neg (Nat.not_lt_of_le hlen), if_neg (not_not.2 hsum)]

/-! ### Round trips -/

/-- The header `encodeContainer` writes (R108). -/
theorem encodeContainer_eq (h : FileHeader) {blocks : List BlockRecord} {n : Word} (hn : n.toNat = blocks.length) :
    encodeContainer h blocks =
      serHeader { h with crc32 := checksum (blocks.flatMap serBlock), numBlocks := n } ++ blocks.flatMap serBlock := by
  rw [encodeContainer, ← hn, blockCountWord_toNat]

theorem decodeContainer_encodeContainer (h : FileHeader) {blocks : List BlockRecord} {n : Word}
    (hn : n.toNat = blocks.length) (hsized : AllSized blocks) :
    decodeContainer (encodeContainer h blocks) =
      .ok ({ h with crc32 := checksum (blocks.flatMap serBlock), numBlocks := n }, blocks) := by
  refine decodeContainer_eq_ok_iff.2 ⟨_, encodeContainer_eq h hn, ?_, rfl, ?_⟩
  · rw [flatMap_serBlock_length hsized, hn]
  · show blocks = bodyRecords _ n.toNat
    rw [hn, bodyRecords_flatMap hsized (Nat.le_refl _), List.take_length]

theorem encodeContainer_decodeContainer {bytes : List Byte} {h : FileHeader} {blocks : List BlockRecord}
    (hdecode : decodeContainer bytes = .ok (h, blocks)) (hlen : bytes.length = recordAddress h.numBlocks.toNat) :
    encodeContainer h blocks = bytes := by
  obtain ⟨body, rfl, -, hsum, rfl⟩ := decodeContainer_eq_ok_iff.1 hdecode
  have exact : body.length = Config.blockLength * h.numBlocks.toNat := by
    rwa [List.length_append, serHeader_length, recordAddress, Nat.add_left_cancel_iff] at hlen
  have same : (bodyRecords body h.numBlocks.toNat).flatMap serBlock = body := by
    rw [flatMap_bodyRecords body exact.ge, slice_whole body _ exact]
  rw [encodeContainer_eq h (bodyRecords_length body _).symm, same, hsum]

/-- Settles O30: encoding writes what decoding tests, and decoding keeps every byte of whole records. -/
theorem containerRoundTrip : Obligations.ContainerRoundTrip := by
  refine ⟨fun h blocks hcount hsized => ?_, fun bytes h blocks => encodeContainer_decodeContainer⟩
  exact decodeContainer_encodeContainer h (by rw [BitVec.toNat_ofNat, Nat.mod_eq_of_lt hcount]) hsized

/-! ### Corruption -/

/-- Settles O31: a changed byte behind the header changes the checksum (R80); a changed header is tested against the records
and the checksum that are there. -/
theorem fileCorruptionIsDetected : Obligations.FileCorruptionIsDetected := by
  constructor
  · intro bytes h blocks i b hdecode hi hin hb
    obtain ⟨body, rfl, hlen, hsum, -⟩ := decodeContainer_eq_ok_iff.1 hdecode
    obtain ⟨k, rfl⟩ := Nat.exists_eq_add_of_le hi
    have inBody : k < body.length := by
      rw [List.length_append, serHeader_length] at hin; omega
    have changed : (serHeader h ++ body).set (16 + k) b = serHeader h ++ body.set k b := by
      rw [List.set_append_right _ _ (by rw [serHeader_length]; omega), serHeader_length, Nat.add_sub_cancel_left]
    have byte : body.getD k 0#8 ≠ b := by
      rwa [List.getD_append_right _ _ _ _ (by rw [serHeader_length]; omega), serHeader_length, Nat.add_sub_cancel_left]
        at hb
    rw [changed, decodeContainer_serHeader_append, List.length_set, if_neg (Nat.not_lt_of_le hlen), if_pos]
    rw [← hsum]
    exact checksum_set_ne inBody byte
  · intro h blocks _ hsized
    rw [decodeContainer_serHeader_append, flatMap_serBlock_length hsized]
    refine ⟨fun hmore => if_pos (Nat.mul_lt_mul_of_pos_left hmore (by decide)), fun hfits hsum => ?_, fun hfits hsum => ?_⟩
    all_goals rw [if_neg (Nat.not_lt_of_le (Nat.mul_le_mul_left _ hfits))]
    · exact if_pos (Ne.symm hsum)
    · rw [if_neg (not_not.2 hsum.symm), bodyRecords_flatMap hsized hfits]

end Sys2Proof.Machine
end

section
/-! SUPPORT. The container in the frame (43_container.md R107, R108, R112, R113, R117): `DECC` and `LDBLK` are `decodeContainer`
on the frame's bytes, and `ENCC` leaves what `encodeContainer` makes of the records appended. -/
namespace Sys2Proof.Machine

/-! ### The frame as header and records -/

theorem State.memRead_add (s : State) (a n m : Nat) : s.memRead a (n + m) = s.memRead a n ++ s.memRead (a + n) m := by
  simp only [State.memRead, ← List.map_append, List.range'_append_1]

/-- Record `k` of the frame (R49). -/
def State.record (s : State) (k : Nat) : BlockRecord := parseBlock (s.memRead (recordAddress k) Config.blockLength)

/-- The first `n` records of the frame. -/
def State.records (s : State) (n : Nat) : List BlockRecord := (List.range n).map s.record

theorem State.records_length (s : State) (n : Nat) : (s.records n).length = n := by
  rw [State.records, List.length_map, List.length_range]

theorem State.record_sized (s : State) (k : Nat) : (s.record k).cipherData.length = Config.plainLength :=
  parseBlock_cipherData_length (s.memRead_length _ _)

theorem State.records_getElem?_eq_some_iff {s : State} {n k : Nat} {b : BlockRecord} :
    (s.records n)[k]? = some b ↔ k < n ∧ b = s.record k := by
  rw [State.records, List.getElem?_map]
  by_cases hk : k < n
  · simp [hk, eq_comm]
  · simp [hk]

section
variable {s : State}

/-- The records of the bytes behind the header are those at the frame addresses of R49. -/
theorem State.bodyRecords_memRead {m n : Nat} (hn : Config.blockLength * n ≤ m) :
    bodyRecords (s.memRead Config.headerLength m) n = s.records n := by
  refine List.map_congr_left fun k hk => congrArg parseBlock ?_
  have inBody : Config.blockLength * k + Config.blockLength ≤ m := by
    rw [← Nat.mul_succ]
    exact (Nat.mul_le_mul_left _ (List.mem_range.1 hk)).trans hn
  exact s.slice_memRead _ _ _ _ inBody

theorem State.frameBytes_eq_append (h : Config.headerLength ≤ s.flen) :
    s.frameBytes = s.memRead 0 Config.headerLength ++ s.memRead Config.headerLength (s.flen - Config.headerLength) := by
  rw [State.frameBytes, ← Nat.add_sub_of_le h, State.memRead_add, Nat.zero_add, Nat.add_sub_cancel_left]

/-- R107 on the frame, in the terms of R112. -/
theorem decodeContainer_frameBytes :
    decodeContainer s.frameBytes =
      if s.flen < Config.headerLength ∨ s.flen < recordAddress s.frameHeader.numBlocks.toNat then
        .error .truncatedInput
      else if s.bodyChecksum ≠ s.frameHeader.crc32 then .error .fileChecksumMismatch
      else .ok (s.frameHeader, s.records s.frameHeader.numBlocks.toNat) := by
  by_cases hheader : s.flen < Config.headerLength
  · rw [if_pos (.inl hheader), decodeContainer, if_pos (by rwa [State.frameBytes, State.memRead_length])]
  have header : serHeader s.frameHeader = s.memRead 0 Config.headerLength :=
    serHeader_parseHeader (s.memRead_length _ _)
  have promise : s.flen - Config.headerLength < Config.blockLength * s.frameHeader.numBlocks.toNat ↔
      s.flen < Config.headerLength ∨ s.flen < recordAddress s.frameHeader.numBlocks.toNat := by
    rw [recordAddress]; omega
  rw [State.frameBytes_eq_append (Nat.le_of_not_lt hheader), ← header, decodeContainer_serHeader_append,
    State.memRead_length]
  by_cases hblocks : s.flen - Config.headerLength < Config.blockLength * s.frameHeader.numBlocks.toNat
  · rw [if_pos hblocks, if_pos (promise.1 hblocks)]
  · rw [if_neg hblocks, if_neg (mt promise.2 hblocks), State.bodyRecords_memRead (Nat.le_of_not_lt hblocks),
      State.bodyChecksum]

/-! ### `DECC` -/

theorem execDecc_of_decode_error {e : ErrorKind} (hph : s.ph = .idle)
    (hdecode : decodeContainer s.frameBytes = .error e) : execDecc s = .next (s.raise e) := by
  refine execDecc_next_iff.2 ⟨hph, ?_⟩
  rw [decodeContainer_frameBytes] at hdecode
  split at hdecode
  · rename_i hshort
    cases hdecode
    exact (if_pos hshort).symm
  · rename_i hlong
    split at hdecode
    · rename_i hsum
      cases hdecode
      exact ((if_neg hlong).trans (if_pos hsum)).symm
    · cases hdecode

theorem execDecc_of_decode_ok {h : FileHeader} {blocks : List BlockRecord} (hph : s.ph = .idle)
    (hdecode : decodeContainer s.frameBytes = .ok (h, blocks)) :
    execDecc s = .next (s.openedWith h) ∧ recordAddress h.numBlocks.toNat ≤ s.flen ∧
      blocks = s.records h.numBlocks.toNat := by
  rw [decodeContainer_frameBytes] at hdecode
  split at hdecode
  · cases hdecode
  · rename_i hlong
    split at hdecode
    · cases hdecode
    · rename_i hsum
      cases hdecode
      exact ⟨execDecc_next_iff.2 ⟨hph, ((if_neg hlong).trans (if_neg hsum)).symm⟩,
        Nat.le_of_not_lt (not_or.1 hlong).2, rfl⟩

/-! ### `LDBLK` -/

/-- A record in the block registers and `BDATA` (R113). -/
def State.loaded (s : State) (b : BlockRecord) : State :=
  State.finish { s.setBdata b.cipherData with
    bcrc := some b.crc32, bidx := some b.index, bunk := some b.unknown, bpad := some b.pad }

theorem execLdblk_loads {k : Dword} {n : Word} (hph : s.ph = .opened) (hk : s.arg0 = some k) (hn : s.hnblk = some n)
    (hlt : k.toNat < n.toNat) (hroom : recordAddress n.toNat ≤ s.flen) :
    execLdblk s = .next (s.loaded (s.record k.toNat)) :=
  execLdblk_next_iff.2 ⟨hph, k, n, hk, hn, hlt, (recordAddress_succ_le hlt).trans hroom, rfl⟩

theorem State.blockBytes_loaded {b : BlockRecord} (h : b.cipherData.length = Config.plainLength) :
    (s.loaded b).blockBytes = some b.cipherData :=
  Memory.collect_ofBytes .bdata b.cipherData _ h

end

/-- Settles O33: one case split, on R107's tests, says what both do. -/
theorem deccAndLdblkAreDecodeContainer : Obligations.DeccAndLdblkAreDecodeContainer := by
  refine fun s hph => ⟨fun e => execDecc_of_decode_error hph, fun h blocks hdecode => ?_⟩
  obtain ⟨hopens, hroom, rfl⟩ := execDecc_of_decode_ok hph hdecode
  refine ⟨s.records_length _, s.openedWith h, hopens, rfl, rfl, rfl, rfl, rfl, rfl, rfl, rfl, fun k b hb => ?_⟩
  obtain ⟨hlt, rfl⟩ := State.records_getElem?_eq_some_iff.1 hb
  exact ⟨_, execLdblk_loads (s := { s.openedWith h with arg0 := some k }) rfl rfl rfl hlt hroom, rfl, rfl, rfl, rfl,
    State.blockBytes_loaded (s.record_sized _)⟩

/-! ### `ENCC` -/

/-- A container being built that holds the given records behind its placeholder header (R116). -/
structure State.Builds (s : State) (blocks : List BlockRecord) : Prop where
  phase : s.ph = .building
  count : s.ecnt.toNat = blocks.length
  length : s.flen = recordAddress blocks.length
  body : s.memRead Config.headerLength (Config.blockLength * blocks.length) = blocks.flatMap serBlock

section
variable {s : State} {blocks : List BlockRecord}

/-- In `BUILD` the frame holds `ECNT` records. -/
theorem State.Inv.builds (h : s.Inv) (hph : s.ph = .building) : s.Builds (s.records s.ecnt.toNat) := by
  have records : bodyRecords (s.memRead Config.headerLength (Config.blockLength * s.ecnt.toNat)) s.ecnt.toNat =
      s.records s.ecnt.toNat := State.bodyRecords_memRead (Nat.le_refl _)
  refine ⟨hph, (s.records_length _).symm, ?length, ?body⟩
  case length => rw [State.records_length, h.building_length hph]
  case body =>
    rw [State.records_length, ← records, flatMap_bodyRecords _ (by rw [State.memRead_length]),
      slice_whole _ _ (s.memRead_length _ _)]

theorem State.Builds.bodyLength (h : s.Builds blocks) :
    s.flen - Config.headerLength = Config.blockLength * blocks.length := by
  rw [h.length, recordAddress, Nat.add_sub_cancel_left]

theorem State.Builds.header_le (h : s.Builds blocks) : Config.headerLength ≤ s.flen := by
  rw [h.length]
  exact Nat.le_add_right _ _

theorem State.Builds.flen_eq (h : s.Builds blocks) : s.flen = recordAddress s.ecnt.toNat := by
  rw [h.length, h.count]

/-- The header `ENCC` writes and the records behind it are what `encodeContainer` gives, whatever `crc32` and `numBlocks` it is
given (R108, R117). -/
theorem State.Builds.frameBytes_completed (h : s.Builds blocks) (minor major : Byte) (magic : Half) (pad c n : Word) :
    (s.completed (s.completedHeader minor major magic pad)).frameBytes =
      encodeContainer ⟨minor, major, magic, c, pad, n⟩ blocks := by
  have body : s.memRead Config.headerLength (s.flen - Config.headerLength) = blocks.flatMap serBlock := by
    rw [h.bodyLength, h.body]
  rw [State.frameBytes_eq_append (s := s.completed _) h.header_le, State.memRead_completed_header, encodeContainer_eq _ h.count,
    State.memRead_completed_body]
  show serHeader (s.completedHeader minor major magic pad) ++
    s.memRead Config.headerLength (s.flen - Config.headerLength) = _
  rw [State.completedHeader, body]

end

/-- Settles O39: in `BUILD` the frame holds the records that `ENCC` puts a header before. -/
theorem enccWritesEncodeContainer : Obligations.EnccWritesEncodeContainer := by
  intro s minor major magic pad hinv hph hminor hmajor hmagic hpad
  have builds := hinv.builds hph
  exact ⟨_, _, execEncc_ok hph hminor hmajor hmagic hpad builds.header_le,
    builds.frameBytes_completed minor major magic pad 0#32 0#32,
    execDecc_completed hminor hmajor hmagic hpad builds.flen_eq, rfl⟩

end Sys2Proof.Machine
end

section
/-! SUPPORT. The sequence `ENCODE_ALL` (30_encoding.md R72, 43_container.md R118): one tuple becomes one record of the frame, and the
whole sequence leaves the container of the tuples. -/
namespace Sys2Proof.Machine

/-! ### Moves -/

/-- The block `encrypt` makes of a tuple (R98). -/
def BlockTuple.encrypted (key : List Byte) (b : BlockTuple) : BlockRecord :=
  encrypt key b.flashAddress b.payload b.index b.unknown b.pad

theorem blockWrites_append (i : Nat) (a b : List Byte) :
    blockWrites i (a ++ b) = blockWrites i a ++ blockWrites (i + a.length) b := by
  induction a generalizing i with
  | nil => rfl
  | cons x a ih =>
    rw [List.cons_append, blockWrites, ih, blockWrites, List.cons_append, List.length_cons, Nat.add_right_comm, Nat.add_assoc]

/-- All 260 bytes of `BDATA` written one by one are read back. -/
theorem collect_putBytes {sp : Space} (m : Memory) {bs : List Byte} {n : Nat} (h : bs.length = n) :
    Memory.collect sp (Memory.putBytes sp m 0 bs) 0 n = some bs := by
  refine (Memory.collect_eq_some_iff ..).2 ⟨h, fun i hi => ?_⟩
  rw [Memory.get_putBytes, if_pos (by omega), Nat.sub_zero, Nat.zero_add]

theorem setWidth_word_dword (v : Word) : (v.setWidth 64).setWidth 32 = v := by
  rw [BitVec.setWidth_setWidth_of_le _ (by decide), BitVec.setWidth_eq]

theorem asmPlain_plainLength (fa : Word) {p : List Byte} (h : p.length = Config.payloadLength) :
    (asmPlain fa p).length = Config.plainLength := by
  rw [asmPlain_length, h]
  rfl

/-- The registers and the plaintext of a tuple, before `ENC` (R72). -/
def State.withTuple (s : State) (b : BlockTuple) : State :=
  { s with
    bidx := some b.index, bunk := some b.unknown, bpad := some b.pad,
    bdata := Memory.putBytes .bdata s.bdata 0 (asmPlain b.flashAddress b.payload) }

/-- What the sequence leaves alone of the state while it encodes a tuple. -/
structure EncodeKept (s t : State) : Prop where
  params : t.params = s.params
  key : t.key = s.key
  elog : t.elog = s.elog
  replies : t.replies = s.replies
  hminor : t.hminor = s.hminor
  hmajor : t.hmajor = s.hmajor
  hmagic : t.hmagic = s.hmagic
  hpad : t.hpad = s.hpad

theorem EncodeKept.trans {s t u : State} (h : EncodeKept s t) (h' : EncodeKept t u) : EncodeKept s u where
  params := h'.params.trans h.params
  key := h'.key.trans h.key
  elog := h'.elog.trans h.elog
  replies := h'.replies.trans h.replies
  hminor := h'.hminor.trans h.hminor
  hmajor := h'.hmajor.trans h.hmajor
  hmagic := h'.hmagic.trans h.hmagic
  hpad := h'.hpad.trans h.hpad

section
variable {s t : State} {key : List Byte} {b : BlockTuple} {blocks : List BlockRecord}

theorem performAll_tupleWrites (hb : b.payload.length = Config.payloadLength) (rest : List HostMove) :
    performAll ([.writeReg 11 (b.index.setWidth 64), .writeReg 12 (b.unknown.setWidth 64),
        .writeReg 13 (b.pad.setWidth 64)] ++ blockWrites 0 (bytesLe32 b.flashAddress) ++ blockWrites 4 b.payload ++ rest) s =
      performAll rest (s.withTuple b) := by
  have index : perform (.writeReg 11 (b.index.setWidth 64)) s = .next { s with bidx := some b.index } := by
    show Host.Outcome.next { s with bidx := some ((b.index.setWidth 64).setWidth 32) } = _
    rw [setWidth_word_dword]
  have unknown (u : State) : perform (.writeReg 12 (b.unknown.setWidth 64)) u = .next { u with bunk := some b.unknown } := by
    show Host.Outcome.next { u with bunk := some ((b.unknown.setWidth 64).setWidth 32) } = _
    rw [setWidth_word_dword]
  have pad (u : State) : perform (.writeReg 13 (b.pad.setWidth 64)) u = .next { u with bpad := some b.pad } := by
    show Host.Outcome.next { u with bpad := some ((b.pad.setWidth 64).setWidth 32) } = _
    rw [setWidth_word_dword]
  have plain : blockWrites 0 (bytesLe32 b.flashAddress) ++ blockWrites 4 b.payload =
      blockWrites 0 (asmPlain b.flashAddress b.payload) := (blockWrites_append 0 _ _).symm
  have fits : 0 + (asmPlain b.flashAddress b.payload).length ≤ 260 := by
    rw [asmPlain_plainLength _ hb]; decide
  rw [List.append_assoc, List.append_assoc, ← List.append_assoc (blockWrites 0 _), plain, List.cons_append,
    performAll_cons index, List.cons_append, performAll_cons (unknown _), List.cons_append, performAll_cons (pad _),
    List.nil_append, performAll_append (performAll_blockWrites _ 0 _ fits)]
  rfl

/-- `ENC` makes the tuple's block of what the host has written. -/
theorem execEnc_withTuple (hkeyed : s.ph.keyed = true) (hkey : s.keyBytes = some key)
    (hb : b.payload.length = Config.payloadLength) :
    ∃ t, execEnc (s.withTuple b) = .next t ∧ t.blockBytes = some (b.encrypted key).cipherData ∧
      t = { s.withTuple b with bcrc := some (b.encrypted key).crc32, bdata := t.bdata, err := 0#3 } := by
  have plain : (s.withTuple b).blockBytes = some (asmPlain b.flashAddress b.payload) :=
    collect_putBytes s.bdata (asmPlain_plainLength _ hb)
  exact execEnc_ok ⟨hkeyed, rfl, plain, hkey⟩

theorem encrypted_sized (hb : b.payload.length = Config.payloadLength) :
    (b.encrypted key).cipherData.length = Config.plainLength := by
  have length := asmPlain_plainLength b.flashAddress hb
  exact (encipher_length key b.index _ (congrArg (· % 4) length)).trans length

/-- One more record behind those already there. -/
theorem State.Builds.appended {r : BlockRecord} (h : s.Builds blocks) (operands : AppendOperands s r) :
    (s.appended r).Builds (blocks ++ [r]) := by
  have grown : (s.appended r).flen = recordAddress (s.appended r).ecnt.toNat := operands.flen_growFrame h.flen_eq
  have count : (s.appended r).ecnt.toNat = blocks.length + 1 := by
    have hcount := operands.count
    rw [← h.count]
    show (s.ecnt + 1).toNat = s.ecnt.toNat + 1
    bv_omega
  have length : (blocks ++ [r]).length = blocks.length + 1 := List.length_append
  refine ⟨h.phase, by rw [count, length], by rw [grown, count, length], ?body⟩
  case body =>
    have earlier : (s.appended r).memRead Config.headerLength (Config.blockLength * blocks.length) =
        blocks.flatMap serBlock := by
      rw [← h.body]
      refine State.memRead_congr fun i hi => s.frameByte_growFrame_of_lt (serBlock r) ?_
      rw [h.length]
      exact Nat.add_lt_add_left hi _
    have record : (s.appended r).memRead (recordAddress blocks.length) Config.blockLength = serBlock r := by
      have written := s.memRead_growFrame (serBlock r)
      rwa [h.length, operands.serBlock_length] at written
    rw [length, Nat.mul_succ, State.memRead_add, earlier, List.flatMap_append, List.flatMap_singleton]
    exact congrArg _ record

/-- `ENCODE_BLOCK`, R72: the tuple's block is the next record. -/
theorem performAll_encodeBlock (h : s.Builds blocks) (hkey : s.keyBytes = some key)
    (hb : b.payload.length = Config.payloadLength) (hcount : blocks.length + 1 < 2 ^ 32)
    (hroom : recordAddress (blocks.length + 1) ≤ s.params.fcap) :
    ∃ t, performAll (encodeBlockMoves b) s = .next t ∧ t.Builds (blocks ++ [b.encrypted key]) ∧ EncodeKept s t := by
  have keyed : s.ph.keyed = true := Phase.keyed_iff.2 (.inr (.inr h.phase))
  obtain ⟨t, henc, hcipher, ht⟩ := execEnc_withTuple keyed hkey hb
  have builds : t.Builds blocks := by
    rw [ht]
    exact ⟨h.phase, h.count, h.length, h.body⟩
  have operands : AppendOperands t (b.encrypted key) := by
    refine ⟨builds.phase, congrArg State.bcrc ht, congrArg State.bidx ht, congrArg State.bunk ht, congrArg State.bpad ht,
      hcipher, ?count, ?room⟩
    case count => rw [builds.count]; omega
    case room => rw [builds.count, ht]; exact hroom
  refine ⟨t.appended (b.encrypted key), ?runs, builds.appended operands, ?kept⟩
  case runs =>
    rw [encodeBlockMoves, performAll_tupleWrites hb, performAll_cons ((perform_commandMove .enc _).trans henc),
      performAll_cons ((perform_commandMove .append t).trans (execAppend_next_iff_operands.2 ⟨_, operands, rfl⟩)),
      performAll_nil]
    rfl
  case kept =>
    have written : EncodeKept s t := by rw [ht]; exact ⟨rfl, rfl, rfl, rfl, rfl, rfl, rfl, rfl⟩
    exact written.trans ⟨rfl, rfl, rfl, rfl, rfl, rfl, rfl, rfl⟩

end

/-- The tuples one after another (R72). -/
theorem performAll_encodeBlocks {key : List Byte} (tuples : List BlockTuple) {s : State} {blocks : List BlockRecord}
    (h : s.Builds blocks) (hkey : s.keyBytes = some key) (hsized : ∀ b ∈ tuples, b.payload.length = Config.payloadLength)
    (hcount : blocks.length + tuples.length < 2 ^ 32)
    (hroom : recordAddress (blocks.length + tuples.length) ≤ s.params.fcap) :
    ∃ t, performAll (tuples.flatMap encodeBlockMoves) s = .next t ∧
      t.Builds (blocks ++ tuples.map (·.encrypted key)) ∧ EncodeKept s t := by
  induction tuples generalizing s blocks with
  | nil =>
    rw [List.map_nil, List.append_nil]
    exact ⟨s, rfl, h, ⟨rfl, rfl, rfl, rfl, rfl, rfl, rfl, rfl⟩⟩
  | cons b tuples ih =>
    obtain ⟨hb, htuples⟩ := List.forall_mem_cons.1 hsized
    rw [List.length_cons] at hcount hroom
    have room : recordAddress (blocks.length + 1) ≤ s.params.fcap :=
      (recordAddress_succ_le (by omega)).trans hroom
    obtain ⟨t, hfirst, builds, kept⟩ := performAll_encodeBlock h hkey hb (by omega) room
    have keyThere : t.keyBytes = some key := by rw [State.keyBytes, kept.key]; exact hkey
    have next : (blocks ++ [b.encrypted key]).length + tuples.length = blocks.length + (tuples.length + 1) := by
      rw [List.length_append, List.length_singleton]; omega
    obtain ⟨u, hrest, buildsAll, keptAll⟩ := ih builds keyThere htuples (next.trans_lt hcount)
      (by simpa only [next, kept.params] using hroom)
    refine ⟨u, ?_, ?_, kept.trans keptAll⟩
    · rw [List.flatMap_cons, performAll_append hfirst, hrest]
    · rwa [List.append_assoc] at buildsAll

/-! ### The whole sequence -/

/-- Bits of a word are the same bits of the word zero-extended. -/
theorem extract_setWidth_dword (v : Word) {k n : Nat} (h : k + n ≤ 32) :
    (v.setWidth 64).extractLsb' k n = v.extractLsb' k n := by
  refine BitVec.eq_of_getLsbD_eq fun i hi => ?_
  have inside : k + i < 64 := by omega
  simp [inside]

/-- `WR HVER` with the word that `HVER` shows sets the three elements it shows (R32). -/
theorem perform_writeReg_version (s : State) (minor major : Byte) (magic : Half) :
    perform (.writeReg 6 ((versionWord minor major magic).setWidth 64)) s =
      .next { s with hminor := some minor, hmajor := some major, hmagic := some magic } := by
  obtain ⟨low, middle, high⟩ := versionWord_fields minor major magic
  rw [perform, writeRegister, extract_setWidth_dword _ (by decide), extract_setWidth_dword _ (by decide),
    extract_setWidth_dword _ (by decide), low, middle, high]

/-- `IDLE` with the header registers written, and then `BEGIN`. -/
def State.begunWith (s : State) (minor major : Byte) (magic : Half) (hpad : Word) : State :=
  State.begun { s with hminor := some minor, hmajor := some major, hmagic := some magic, hpad := some hpad }

theorem performAll_encodeBegin {s : State} (hph : s.ph = .idle) (minor major : Byte) (magic : Half) (hpad : Word) :
    performAll [.writeReg 6 ((versionWord minor major magic).setWidth 64), .writeReg 8 (hpad.setWidth 64),
      commandMove .begin] s = .next (s.begunWith minor major magic hpad) := by
  have pad (u : State) : perform (.writeReg 8 (hpad.setWidth 64)) u = .next { u with hpad := some hpad } := by
    show Host.Outcome.next { u with hpad := some ((hpad.setWidth 64).setWidth 32) } = _
    rw [setWidth_word_dword]
  have begins (u : State) (hu : u.ph = .idle) : perform (commandMove .begin) u = .next u.begun :=
    (perform_commandMove .begin u).trans (execBegin_next_iff.2 ⟨hu, rfl⟩)
  exact (performAll_cons (perform_writeReg_version s minor major magic)).trans
    ((performAll_cons (pad _)).trans (performAll_cons (begins
      { s with hminor := some minor, hmajor := some major, hmagic := some magic, hpad := some hpad } hph)))

/-- `BEGIN` leaves a container without records. -/
theorem State.builds_begunWith (s : State) (minor major : Byte) (magic : Half) (hpad : Word) :
    (s.begunWith minor major magic hpad).Builds [] where
  phase := rfl
  count := rfl
  length := List.length_replicate
  body := rfl

/-- `ENCODE_ALL`, R72 and R118: the container of the tuples' blocks, and what else the sequence leaves. -/
theorem performAll_encodeAll {s : State} {key : List Byte} (minor major : Byte) (magic : Half) (hpad : Word)
    {tuples : List BlockTuple} (hph : s.ph = .idle) (hkey : s.keyBytes = some key) (hcount : tuples.length < 2 ^ 32)
    (hsized : ∀ b ∈ tuples, b.payload.length = Config.payloadLength)
    (hroom : recordAddress tuples.length ≤ s.params.fcap) :
    ∃ t, performAll (encodeAllMoves minor major magic hpad tuples) s = .next t ∧ t.ph = .idle ∧ t.err = 0#3 ∧
      t.frameBytes = encodeContainer ⟨minor, major, magic, 0#32, hpad, 0#32⟩ (tuples.map (·.encrypted key)) ∧
      t.keyBytes = some key ∧ t.elog = s.elog ∧ t.replies = s.replies := by
  have begun := s.builds_begunWith minor major magic hpad
  obtain ⟨u, hloop, builds, kept⟩ := performAll_encodeBlocks tuples begun (key := key) hkey hsized
    (by rwa [List.length_nil, Nat.zero_add]) (by rwa [List.length_nil, Nat.zero_add])
  rw [List.nil_append] at builds
  have ends : exec .encc u = .next (u.completed (u.completedHeader minor major magic hpad)) :=
    execEncc_ok builds.phase kept.hminor kept.hmajor kept.hmagic kept.hpad builds.header_le
  refine ⟨u.completed (u.completedHeader minor major magic hpad), ?runs, rfl, rfl,
    builds.frameBytes_completed minor major magic hpad 0#32 0#32, ?key, kept.elog, kept.replies⟩
  case runs =>
    rw [encodeAllMoves, List.append_assoc, performAll_append (performAll_encodeBegin hph minor major magic hpad),
      performAll_append hloop, performAll_cons ((perform_commandMove .encc u).trans ends), performAll_nil]
  case key =>
    show Memory.collect .key u.key 0 Config.keyLength = some key
    rw [kept.key]
    exact hkey

end Sys2Proof.Machine
end

section
/-! SUPPORT. The sequence `DECODE_ALL` (30_encoding.md R72, 43_container.md R119): one record becomes one tuple, and the whole run
gives the tuples of the container back. -/
namespace Sys2Proof.Machine

/-! ### One block -/

/-- What the sequence leaves alone of the state while it decodes the blocks of an open container. -/
structure DecodeKept (s t : State) : Prop where
  ph : t.ph = s.ph
  key : t.key = s.key
  frame : t.frame = s.frame
  flen : t.flen = s.flen
  hnblk : t.hnblk = s.hnblk
  elog : t.elog = s.elog

theorem DecodeKept.trans {s t u : State} (h : DecodeKept s t) (h' : DecodeKept t u) : DecodeKept s u where
  ph := h'.ph.trans h.ph
  key := h'.key.trans h.key
  frame := h'.frame.trans h.frame
  flen := h'.flen.trans h.flen
  hnblk := h'.hnblk.trans h.hnblk
  elog := h'.elog.trans h.elog

theorem State.memRead_of_frame_eq {s t : State} (h : t.frame = s.frame) (a n : Nat) : t.memRead a n = s.memRead a n :=
  State.memRead_congr fun i _ => State.frameByte_congr h (a + i)

theorem DecodeKept.record {s t : State} (h : DecodeKept s t) (k : Nat) : t.record k = s.record k := by
  rw [State.record, State.memRead_of_frame_eq h.frame, State.record]

theorem DecodeKept.keyBytes {s t : State} (h : DecodeKept s t) : t.keyBytes = s.keyBytes := by
  rw [State.keyBytes, h.key, State.keyBytes]

/-- An open container with the key, `n` of whose records are in the frame (R112). -/
structure State.Offers (s : State) (key : List Byte) (n : Word) : Prop where
  phase : s.ph = .opened
  key : s.keyBytes = some key
  count : s.hnblk = some n
  room : recordAddress n.toNat ≤ s.flen

section
variable {s t : State} {key : List Byte} {n : Word} {k : Nat} {b : BlockTuple}

theorem State.Offers.kept (h : s.Offers key n) (hkept : DecodeKept s t) : t.Offers key n where
  phase := hkept.ph.trans h.phase
  key := hkept.keyBytes.trans h.key
  count := hkept.hnblk.trans h.count
  room := hkept.flen ▸ h.room

theorem performAll_loadBlock (h : s.Offers key n) (hk : k < n.toNat) (rest : List HostMove) :
    performAll (loadBlockMoves k ++ rest) s =
      performAll rest (State.loaded { s with arg0 := some (BitVec.ofNat 64 k) } (s.record k)) := by
  have number : (BitVec.ofNat 64 k).toNat = k := by
    have hn := n.isLt
    rw [BitVec.toNat_ofNat]
    omega
  have loads := execLdblk_loads (s := { s with arg0 := some (BitVec.ofNat 64 k) }) (k := BitVec.ofNat 64 k) h.phase rfl
    h.count (by rwa [number]) h.room
  rw [number] at loads
  exact (performAll_cons rfl).trans (performAll_cons ((perform_commandMove .ldblk _).trans loads))

/-- `LDBLK k` and `DEC` on a record that `encrypt` has made: the tuple's plaintext is in `BDATA` (R101, R119). -/
theorem performAll_decodeBlock (h : s.Offers key n) (hk : k < n.toNat) (hrecord : s.record k = b.encrypted key)
    (hb : b.payload.length = Config.payloadLength) :
    ∃ t, performAll (loadBlockMoves k ++ [commandMove .dec]) s = .next t ∧ t.err = 0#3 ∧
      t.blockBytes = some (asmPlain b.flashAddress b.payload) ∧ t.bidx = some b.index ∧ t.bunk = some b.unknown ∧
      t.bpad = some b.pad ∧ t.replies = s.replies ∧ DecodeKept s t := by
  have keyed : s.ph.keyed = true := Phase.keyed_iff.2 (.inr (.inl h.phase))
  have operands : BlockOperands (State.loaded { s with arg0 := some (BitVec.ofNat 64 k) } (b.encrypted key)) b.index
      (b.encrypted key).cipherData key :=
    ⟨keyed, rfl, State.blockBytes_loaded (encrypted_sized hb), h.key⟩
  have plain : decipher key b.index (b.encrypted key).cipherData = asmPlain b.flashAddress b.payload :=
    decipher_encipher key b.index (congrArg (· % 4) (asmPlain_plainLength b.flashAddress hb))
  obtain ⟨t, hdec, hplain, ht⟩ := execDec_ok operands rfl (congrArg checksum plain)
  obtain ⟨data, rfl⟩ : ∃ data, t = { State.loaded { s with arg0 := some (BitVec.ofNat 64 k) } (b.encrypted key) with
      bdata := data, err := 0#3 } := ⟨_, ht⟩
  rw [plain] at hplain
  refine ⟨_, ?runs, rfl, hplain, rfl, rfl, rfl, rfl, rfl, rfl, rfl, rfl, rfl, rfl⟩
  case runs =>
    rw [performAll_loadBlock h hk, hrecord]
    exact performAll_cons ((perform_commandMove .dec _).trans hdec)

end

/-! ### The loop -/

/-- What `DECODE_ALL` adds to a report: the tuples emitted, what the host has read for them, and `CLOSE`. -/
structure Decoded (tuples : List BlockTuple) (r r' : DecodeReport) : Prop where
  emitted : r'.emitted = r.emitted ++ tuples
  failed : r'.failed = r.failed
  ph : r'.state.ph = .idle
  frame : r'.state.frame = r.state.frame
  flen : r'.state.flen = r.state.flen
  elog : r'.state.elog = r.state.elog
  replies : r'.state.replies = (tuples.flatMap tupleReads).reverse ++ r.state.replies

/-- The report after a tuple has been read out of the state `t`. -/
def DecodeReport.withTuple (r : DecodeReport) (t : State) (b : BlockTuple) : DecodeReport :=
  { r with
    state := { t with replies := (tupleReads b).reverse ++ t.replies }
    emitted := r.emitted ++ [b] }

/-- `CLOSE` after the last block. -/
theorem decodeBlocks_close {goOn : Nat → Bool} {k : Nat} {r : DecodeReport} (hph : r.state.ph = .opened) :
    ∃ r', decodeBlocks goOn 0 k r = .next r' ∧ Decoded [] r r' := by
  have closes := (perform_commandMove .close r.state).trans (execClose_next_iff.2 ⟨hph, rfl⟩)
  refine ⟨{ r with state := State.finish { r.state with ph := .idle } }, ?_, ?_⟩
  · rw [decodeBlocks, closes, andThen_next]
  · exact ⟨(List.append_nil _).symm, rfl, rfl, rfl, rfl, rfl, rfl⟩

/-- One turn of the loop, on a record that `encrypt` has made of a tuple: the block passes and the tuple is emitted. -/
theorem decodeBlocks_tuple {goOn : Nat → Bool} {key : List Byte} {n : Word} {left k : Nat} {r : DecodeReport}
    {b : BlockTuple} (h : r.state.Offers key n) (hk : k < n.toNat) (hrecord : r.state.record k = b.encrypted key)
    (hb : b.payload.length = Config.payloadLength) :
    ∃ t, decodeBlocks goOn (left + 1) k r = decodeBlocks goOn left (k + 1) (r.withTuple t b) ∧
      t.replies = r.state.replies ∧ DecodeKept r.state t := by
  obtain ⟨t, hruns, hok, hplain, hindex, hunknown, hpad, hreplies, kept⟩ := performAll_decodeBlock h hk hrecord hb
  have emits := emitTuple_next (r := { r with state := t }) hplain hindex hunknown hpad
  rw [parsePlain_asmPlain _ hb] at emits
  exact ⟨t, by rw [decodeBlocks_passed hruns hok, emits]; rfl, hreplies, kept⟩

theorem DecodeKept.withTuple {r : DecodeReport} {t : State} (h : DecodeKept r.state t) (b : BlockTuple) :
    DecodeKept r.state (r.withTuple t b).state :=
  h.trans ⟨rfl, rfl, rfl, rfl, rfl, rfl⟩

/-- A tuple emitted, and then the rest of the run. -/
theorem Decoded.cons {tuples : List BlockTuple} {b : BlockTuple} {t : State} {r r' : DecodeReport}
    (h : Decoded tuples (r.withTuple t b) r') (hkept : DecodeKept r.state t) (hreplies : t.replies = r.state.replies) :
    Decoded (b :: tuples) r r' where
  emitted := by rw [h.emitted, DecodeReport.withTuple, List.append_assoc]; rfl
  failed := h.failed
  ph := h.ph
  frame := h.frame.trans hkept.frame
  flen := h.flen.trans hkept.flen
  elog := h.elog.trans hkept.elog
  replies := by
    rw [h.replies, DecodeReport.withTuple, List.flatMap_cons, List.reverse_append, List.append_assoc, ← hreplies]

/-- The loop over the records that `encrypt` has made of the tuples: every block passes, so the host never chooses. -/
theorem decodeBlocks_tuples {goOn : Nat → Bool} {key : List Byte} {n : Word} (tuples : List BlockTuple) {k : Nat}
    {r : DecodeReport} (h : r.state.Offers key n) (hn : k + tuples.length = n.toNat)
    (hrecords : ∀ j b, tuples[j]? = some b → r.state.record (k + j) = b.encrypted key)
    (hsized : ∀ b ∈ tuples, b.payload.length = Config.payloadLength) :
    ∃ r', decodeBlocks goOn tuples.length k r = .next r' ∧ Decoded tuples r r' := by
  induction tuples generalizing k r with
  | nil => exact decodeBlocks_close h.phase
  | cons b tuples ih =>
    obtain ⟨hb, htuples⟩ := List.forall_mem_cons.1 hsized
    rw [List.length_cons] at hn
    obtain ⟨t, hturn, hreplies, kept⟩ := decodeBlocks_tuple (goOn := goOn) (left := tuples.length) h (by omega)
      (hrecords 0 b rfl) hb
    have keptEmit := kept.withTuple b
    have later (j : Nat) (c : BlockTuple) (hj : tuples[j]? = some c) :
        (r.withTuple t b).state.record (k + 1 + j) = c.encrypted key := by
      rw [keptEmit.record, Nat.add_assoc, Nat.add_comm 1 j]
      exact hrecords (j + 1) c hj
    obtain ⟨r', hrest, decoded⟩ := ih (h.kept keptEmit) (by omega) later htuples
    exact ⟨r', hturn.trans hrest, decoded.cons kept hreplies⟩

/-! ### The whole sequence -/

/-- After a `DECC` that succeeds, `DECODE_ALL` is the loop over the blocks it offers (R72). -/
theorem decodeAll_of_opened {goOn : Nat → Bool} {s : State} {h : FileHeader}
    (hopens : execDecc s = .next (s.openedWith h)) :
    decodeAll goOn s = decodeBlocks goOn h.numBlocks.toNat 0 { state := s.openedWith h, emitted := [], failed := [] } := by
  have offered : openedBlocks (s.openedWith h) = some h.numBlocks.toNat := rfl
  rw [decodeAll, (perform_commandMove .decc s).trans hopens, andThen_next, offered]

/-- `DECODE_ALL` on a frame that decodes to the blocks `encrypt` has made of the tuples (R119). -/
theorem decodeAll_of_decode {goOn : Nat → Bool} {s : State} {key : List Byte} {h : FileHeader}
    {tuples : List BlockTuple} (hph : s.ph = .idle) (hkey : s.keyBytes = some key)
    (hsized : ∀ b ∈ tuples, b.payload.length = Config.payloadLength)
    (hdecode : decodeContainer s.frameBytes = .ok (h, tuples.map (·.encrypted key))) :
    ∃ r, decodeAll goOn s = .next r ∧ Decoded tuples { state := s.openedWith h, emitted := [], failed := [] } r := by
  obtain ⟨hopens, hroom, hblocks⟩ := execDecc_of_decode_ok hph hdecode
  have count : tuples.length = h.numBlocks.toNat := by
    have lengths := congrArg List.length hblocks
    rwa [List.length_map, State.records_length] at lengths
  have records (j : Nat) (b : BlockTuple) (hj : tuples[j]? = some b) : s.record (0 + j) = b.encrypted key := by
    have present : (s.records h.numBlocks.toNat)[j]? = some (b.encrypted key) := by
      rw [← hblocks, List.getElem?_map, hj]; rfl
    rw [Nat.zero_add]
    exact (State.records_getElem?_eq_some_iff.1 present).2.symm
  obtain ⟨r, hloop, decoded⟩ := decodeBlocks_tuples (goOn := goOn) (k := 0) tuples
    (r := { state := s.openedWith h, emitted := [], failed := [] }) ⟨rfl, hkey, rfl, hroom⟩
    ((Nat.zero_add _).trans count) records hsized
  exact ⟨r, by rw [decodeAll_of_opened hopens, ← count, hloop], decoded⟩

/-- Settles O40: `ENCODE_ALL` leaves the container of the tuples' blocks, and `DECODE_ALL` decodes what it finds there. -/
theorem encodeAllThenDecodeAllRestores : Obligations.EncodeAllThenDecodeAllRestores := by
  intro s key minor major magic hpad tuples goOn _ hph hkey hcount hsized hroom
  obtain ⟨t, hencode, hidle, hok, hframe, hkeyKept, helog, hreplies⟩ :=
    performAll_encodeAll minor major magic hpad hph hkey hcount hsized hroom
  have count : (BitVec.ofNat 32 tuples.length).toNat = (tuples.map (·.encrypted key)).length := by
    rw [BitVec.toNat_ofNat, Nat.mod_eq_of_lt hcount, List.length_map]
  have sized : AllSized (tuples.map (·.encrypted key)) := List.forall_mem_map.2 fun b hb => encrypted_sized (hsized b hb)
  have decodes := decodeContainer_encodeContainer ⟨minor, major, magic, 0#32, hpad, 0#32⟩ count sized
  rw [← hframe] at decodes
  obtain ⟨r, hdecode, decoded⟩ := decodeAll_of_decode (goOn := goOn) hidle hkeyKept hsized decodes
  refine ⟨t, r, hencode, hidle, hok, hframe, hdecode, decoded.emitted, decoded.failed, decoded.ph, ?frame,
    decoded.elog.trans helog, ?replies⟩
  case frame =>
    rw [State.frameBytes, decoded.flen, State.memRead_of_frame_eq decoded.frame]
    rfl
  case replies =>
    rw [← hreplies]
    exact decoded.replies

end Sys2Proof.Machine
end
